-- ==== Sys2Proof/Word.lean ====
section
/-! DEFINITION. The word types of the block (rule R10): data, status and control values are 8-bit bytes, an MFM code
is 16 bits. A time or a duration is a `Nat`: a count of `TIME_UNIT`, which never wraps (rule R15). -/

namespace Sys2Proof

/-- A data, status or control value (rule R10, rule R53). -/
abbrev Byte := BitVec 8

/-- A 16-bit MFM code (rule R10, rule R76). -/
abbrev Code := BitVec 16

end Sys2Proof
end

