-- ==== Sys2Proof/Config.lean ====
section
/-! DEFINITION. The implementation parameters of rule R8, `PORT_MAP` of rule R67, and the free values: the constants
without a body that stand for what no source gives (93_implementation_defined.md, I3 to I6, I9 to I11). -/

namespace Sys2Proof

/-- The direction of a host access (rule R65). -/
inductive Dir where
  | read
  | write
  deriving DecidableEq, Repr, Inhabited

/-- The drive kind of rule R13. -/
inductive Kind where
  | fd
  | hd
  deriving DecidableEq, Repr, Inhabited

/-- The operations a slot of the port space can select (rule R66, rule R67). -/
inductive PortOp where
  | rdStatus0
  | rdStatus1
  | rdData
  | rdReset
  | wrControl0
  | wrControl1
  | wrData
  | wrReset
  | wrStart
  | invalid
  deriving DecidableEq, Repr, Inhabited

/-- The direction an operation belongs to; `INVALID` fits both (rule R67). -/
def PortOp.dir? : PortOp → Option Dir
  | .rdStatus0 => some .read
  | .rdStatus1 => some .read
  | .rdData => some .read
  | .rdReset => some .read
  | .wrControl0 => some .write
  | .wrControl1 => some .write
  | .wrData => some .write
  | .wrReset => some .write
  | .wrStart => some .write
  | .invalid => none

/-- `PORT_MAP` (rule R67): the operation of each read slot and of each write slot, by offset. A slot the lists do not
reach is `INVALID`. -/
structure PortMap where
  reads : List PortOp
  writes : List PortOp
  deriving DecidableEq, Repr, Inhabited

/-- The slots of one direction, by offset. -/
def PortMap.slots (m : PortMap) : Dir → List PortOp
  | .read => m.reads
  | .write => m.writes

/-- `PORT_MAP(offset, dir)` (rule R130). -/
def PortMap.slot (m : PortMap) (d : Dir) (offset : Nat) : PortOp :=
  ((m.slots d)[offset]?).getD .invalid

/-- The conditions of rule R67 (and item I8): read slots hold only `RD_*` or `INVALID`, write slots only `WR_*` or
`INVALID`, and the map is injective on the operations that are not `INVALID`. -/
def PortMap.ok (m : PortMap) : Bool :=
  m.reads.all (fun o => decide (o.dir? ≠ some .write)) &&
  m.writes.all (fun o => decide (o.dir? ≠ some .read)) &&
  decide (m.reads.filter (· ≠ .invalid)).Nodup &&
  decide (m.writes.filter (· ≠ .invalid)).Nodup

/-- The nine named operations (rule R66). -/
def PortOp.named : List PortOp :=
  [.rdStatus0, .rdStatus1, .rdData, .rdReset, .wrControl0, .wrControl1, .wrData, .wrReset, .wrStart]

/-- The operations a map leaves without a slot (rule R67, rule R68). -/
def PortMap.unreachable (m : PortMap) : List PortOp :=
  PortOp.named.filter fun o => o ∉ m.reads ++ m.writes

/-- `PM_TEST`, the named wider configuration of 95_test_vectors.md, whose slots the opcode table's notes give. -/
def PortMap.pmTest : PortMap :=
  { reads := [.rdStatus0, .rdStatus1, .rdData, .rdReset, .invalid],
    writes := [.wrControl0, .wrControl1, .wrData, .wrStart, .wrReset] }

/-- The map stays within the port space of the source: offsets 0..3 in each direction (rule R67). -/
def PortMap.fourOffsets (m : PortMap) : Bool := decide (m.reads.length ≤ 4) && decide (m.writes.length ≤ 4)

/-- The named configurations with a larger port space (rule R69): `PM_TEST`, the one the spec names. -/
def PortMap.namedWider : List PortMap := [PortMap.pmTest]

/-- The size that rule R69 allows: four offsets, or more in a named configuration only. -/
def PortMap.sizeOk (m : PortMap) : Bool := m.fourOffsets || decide (m ∈ PortMap.namedWider)

/-- The four offsets of `PM_TEST`, a map without `WR_RESET` (95_test_vectors.md). -/
def PortMap.pmFour : PortMap :=
  { reads := [.rdStatus0, .rdStatus1, .rdData, .rdReset], writes := [.wrControl0, .wrControl1, .wrData, .wrStart] }

/-- `HD_HEADS`: a power of two between 1 and 8 (rule R11). -/
inductive HeadCount where
  | one
  | two
  | four
  | eight
  deriving DecidableEq, Repr, Inhabited

/-- The number of heads. -/
def HeadCount.toNat : HeadCount → Nat
  | .one => 1
  | .two => 2
  | .four => 4
  | .eight => 8

/-- The head count a number stands for; every other number is refused (rule R11). -/
def HeadCount.ofNat? (n : Nat) : Option HeadCount :=
  if n = 1 then some .one
  else if n = 2 then some .two
  else if n = 4 then some .four
  else if n = 8 then some .eight
  else none

/-- `IDLE_RELEASE` (rule R124). -/
inductive IdleRelease where
  | never
  | oneRevolution
  deriving DecidableEq, Repr, Inhabited

/-- The parameter record of rule R8. Every literal's default is the document's value, counted in `TIME_UNIT`
(`timeUnit` picoseconds); the fields without a default are the OPEN parameters. -/
structure Params where
  /-- `TIME_UNIT`, in picoseconds. -/
  timeUnit : Nat := 1
  /-- `BUF_LEN`. -/
  bufLen : Nat := 512
  /-- `FD_SECTORS`. -/
  fdSectors : Nat := 16
  /-- `HD_SECTORS`. -/
  hdSectors : Nat := 32
  /-- `FD_HALF_CELL`, 2 µs. -/
  fdHalfCell : Nat := 2000000 / timeUnit
  /-- `HD_HALF_CELL`, 100 ns. -/
  hdHalfCell : Nat := 100000 / timeUnit
  /-- `CODE_BITS`. -/
  codeBits : Nat := 16
  /-- `FD_DEBOUNCE`, 10.2 ms. -/
  fdDebounce : Nat := 10200000000 / timeUnit
  /-- `MOTOR_TIME`, 2.82 s. -/
  motorTime : Nat := 2820000000000 / timeUnit
  /-- `SYNC_WINDOW_BYTES`. -/
  syncWindowBytes : Nat := 30
  /-- `FD_SYNC`. -/
  fdSync : Code := 0x5554#16
  /-- `HD_SYNC`. -/
  hdSync : Code := 0x5555#16
  /-- `BUSY_VALUE`. -/
  busyValue : Byte := 0xFF#8
  /-- `INVALID_VALUE`. -/
  invalidValue : Byte := 0xFF#8
  /-- `FLOPPY_ATTACHED`, by slot. OPEN. -/
  floppyAttached : Vector Bool 4
  /-- `HD_ATTACHED`. OPEN. -/
  hdAttached : Bool
  /-- `HD_HEADS`. OPEN. -/
  hdHeads : HeadCount
  /-- `HD_TYPE_BIT`. OPEN. -/
  hdTypeBit : Bool
  /-- `PORT_MAP`. OPEN. -/
  portMap : PortMap
  /-- `ECC_FIELD`, OPEN: the entry at place `c` lists the buffer indices that hold the ECC field when the cursor is `c` at
  completion; a place the table does not reach has no ECC field. -/
  eccField : List (List Nat)
  /-- `IDLE_RELEASE`. OPEN. -/
  idleRelease : IdleRelease
  deriving DecidableEq, Repr

/-- `FLOPPY_ATTACHED[n]`. -/
def Params.attached (c : Params) (n : Fin 4) : Bool := c.floppyAttached[n]

/-- The attached floppy slots, in rising order: the range of "for n in 0..3 with FLOPPY_ATTACHED[n]" (rule R133). -/
def Params.attachedSlots (c : Params) : List (Fin 4) :=
  ([0, 1, 2, 3] : List (Fin 4)).filter fun n => c.attached n

/-- The OPEN parameter `FLOPPY_ATTACHED` of the machine that `State.reset` describes: a constant without a value. -/
opaque Config.floppyAttached : Fin 4 → Bool

/-- The OPEN parameter `HD_ATTACHED`: a constant without a value. -/
opaque Config.hdAttached : Bool

/-- The OPEN parameter `HD_HEADS`: a constant without a value. -/
opaque Config.hdHeads : HeadCount

/-- The OPEN parameter `HD_TYPE_BIT`: a constant without a value (item I6). -/
opaque Config.hdTypeBit : Bool

/-- A port map without a value, from which `Config.portMap` is made. -/
opaque Config.anyPortMap : PortMap

/-- The OPEN parameter `ECC_FIELD`: a constant without a value (item I3). -/
opaque Config.eccField : List (List Nat)

/-- The OPEN parameter `IDLE_RELEASE`: a constant without a value (item I10). -/
opaque Config.idleRelease : IdleRelease

/-- The OPEN parameter `PORT_MAP`: any map of four offsets that rule R67 admits. A map it refuses is replaced by the four
offsets of `PM_TEST`, so that `State.reset` describes a machine of an admitted configuration and every admitted map of four
offsets is possible. DESIGN CHOICE, safe (log entry 7). -/
def Config.portMap : PortMap :=
  if Config.anyPortMap.ok && Config.anyPortMap.fourOffsets then Config.anyPortMap else PortMap.pmFour

/-- The power-on byte of a buffer index: a free value (rule R22, item I4). -/
opaque Config.powerOnByte : Nat → Byte

/-- What the adapter answers when the inputs that State holds have run out: a free value (rule R17, item I5). -/
opaque Config.pllAnswer : Nat → Option (Bool × Nat)

/-- What the hard disk answers to a bit read when the inputs that State holds have run out: a free value (item I5). -/
opaque Config.hdBit : Nat → Bool

/-- What a drive answers to a status query when the inputs that State holds have run out: a free value (item I5). -/
opaque Config.signal : Nat → Bool

/-- The parameters of the machine that `State.reset` describes: the document's literals, and the OPEN constants. -/
def Config.params : Params :=
  { floppyAttached := Vector.ofFn Config.floppyAttached,
    hdAttached := Config.hdAttached,
    hdHeads := Config.hdHeads,
    hdTypeBit := Config.hdTypeBit,
    portMap := Config.portMap,
    eccField := Config.eccField,
    idleRelease := Config.idleRelease }

end Sys2Proof
end

