-- ==== Sys2Proof/Syntax.lean ====
section
/-! DEFINITION. The operations of the block, one constructor for each row of spec/opcode_table.json, in its order
(rule R65: PORT, EVENT and FUNC forms). -/

namespace Sys2Proof

/-- An operation of the block. `peek` marks a diagnostic read (rule R130, rule R146). -/
inductive Instr where
  /-- `WR_CONTROL0 data` (rule R133). -/
  | wrControl0 (data : Byte)
  /-- `WR_CONTROL1 data` (rule R137). -/
  | wrControl1 (data : Byte)
  /-- `RD_STATUS0` (rule R139). -/
  | rdStatus0 (peek : Bool)
  /-- `RD_STATUS1` (rule R140). -/
  | rdStatus1 (peek : Bool)
  /-- `WR_START data`; the data byte is ignored (rule R142, rule R75). -/
  | wrStart (data : Byte)
  /-- `WR_DATA data` (rule R143). -/
  | wrData (data : Byte)
  /-- `WR_RESET data`; the data byte is ignored (rule R144, rule R75). -/
  | wrReset (data : Byte)
  /-- `RD_DATA` (rule R145). -/
  | rdData (peek : Bool)
  /-- `RD_RESET` (rule R147). -/
  | rdReset (peek : Bool)
  /-- An access to a slot that `PORT_MAP` maps to `INVALID` (rule R148). -/
  | invalid (dir : Dir) (offset : Nat) (data : Byte) (peek : Bool)
  /-- `FD_PULSE(n)`: an index or sector pulse of floppy slot `n` (rule R107). -/
  | fdPulse (n : Fin 4)
  /-- `HD_INDEX`: the hard disk's index pulse (rule R110). -/
  | hdIndex
  /-- `SECTOR_FIRE`: the synthetic sector timer fires (rule R113). -/
  | sectorFire
  /-- `BYTE_FIRE`: the byte timer fires (rule R155). -/
  | byteFire
  /-- `MOTOR_FIRE`: the motor timer fires (rule R184). -/
  | motorFire
  /-- `DEVICE_RESET` (rule R195). -/
  | deviceReset
  /-- `MFM_ENCODE(d, p)` (rule R85). -/
  | mfmEncode (d p : Byte)
  /-- `MFM_DECODE(c)` (rule R86). -/
  | mfmDecode (c : Code)
  /-- `pll.nextBit(S.readPos, deadline)` (rule R98). -/
  | pllNextBit (deadline : Nat)
  /-- `pll.setClock(h)` (rule R99). -/
  | pllSetClock (h : Nat)
  /-- `pll.resetForRead(t)`, then `S.readPos <- t` (rule R100). -/
  | pllResetForRead (t : Nat)
  /-- `hdNextBit()` (rule R101). -/
  | hdNextBit
  /-- `nextCodeBit(deadline)` (rule R102). -/
  | nextCodeBit (deadline : Nat)
  /-- `readByteFire(k)` (rule R156). -/
  | readByteFire (k : Kind)
  /-- `writeByteFire(k)` (rule R162). -/
  | writeByteFire (k : Kind)
  /-- `emitFlux(t, c)` (rule R165). -/
  | emitFlux (t : Nat) (c : Code)
  /-- `emitCode(t, c)` (rule R166). -/
  | emitCode (t : Nat) (c : Code)
  deriving DecidableEq, Repr

end Sys2Proof
end

