-- ==== Sys2Proof/WellFormed.lean ====
section
/-! DEFINITION. Which operations a host, a drive or a timer can perform under a port map: a port operation needs a slot
of its own direction (rule R67), and an access carries a data byte only when it writes and a peek flag only when it
reads (rule R65, rule R130). Every operand range of the other rows is in the types of `Instr`. -/

namespace Sys2Proof

/-- The map gives the operation a slot of its direction: "An operation outside the image of `PORT_MAP` cannot be
performed" (rule R67). -/
def PortMap.reaches (m : PortMap) (o : PortOp) : Bool :=
  match o.dir? with
  | some d => decide (o ∈ m.slots d)
  | none => false

/-- An access to an `INVALID` slot: the map has no operation there, a read carries no data byte (rule R65), and "writes
always have `peek = false`" (rule R130). -/
def invalidAccessOk (m : PortMap) (dir : Dir) (offset : Nat) (data : Byte) (peek : Bool) : Bool :=
  decide (m.slot dir offset = .invalid) &&
  match dir with
  | .read => decide (data = 0)
  | .write => !peek

/-- The operation can be performed under the map. -/
def Instr.wellFormed (m : PortMap) : Instr → Bool
  | .wrControl0 _ => m.reaches .wrControl0
  | .wrControl1 _ => m.reaches .wrControl1
  | .rdStatus0 _ => m.reaches .rdStatus0
  | .rdStatus1 _ => m.reaches .rdStatus1
  | .wrStart _ => m.reaches .wrStart
  | .wrData _ => m.reaches .wrData
  | .wrReset _ => m.reaches .wrReset
  | .rdData _ => m.reaches .rdData
  | .rdReset _ => m.reaches .rdReset
  | .invalid dir offset data peek => invalidAccessOk m dir offset data peek
  | .fdPulse _ => true
  | .hdIndex => true
  | .sectorFire => true
  | .byteFire => true
  | .motorFire => true
  | .deviceReset => true
  | .mfmEncode _ _ => true
  | .mfmDecode _ => true
  | .pllNextBit _ => true
  | .pllSetClock _ => true
  | .pllResetForRead _ => true
  | .hdNextBit => true
  | .nextCodeBit _ => true
  | .readByteFire _ => true
  | .writeByteFire _ => true
  | .emitFlux _ _ => true
  | .emitCode _ _ => true

/-- The operations an agent outside the block performs on it: host accesses, drive pulses and the device reset (rule R7,
rule R65). The timer events come from the block's own timers, and the FUNC operations are made by the block itself. -/
def Instr.external : Instr → Bool
  | .wrControl0 _ => true
  | .wrControl1 _ => true
  | .rdStatus0 _ => true
  | .rdStatus1 _ => true
  | .wrStart _ => true
  | .wrData _ => true
  | .wrReset _ => true
  | .rdData _ => true
  | .rdReset _ => true
  | .invalid _ _ _ _ => true
  | .fdPulse _ => true
  | .hdIndex => true
  | .sectorFire => false
  | .byteFire => false
  | .motorFire => false
  | .deviceReset => true
  | .mfmEncode _ _ => false
  | .mfmDecode _ => false
  | .pllNextBit _ => false
  | .pllSetClock _ => false
  | .pllResetForRead _ => false
  | .hdNextBit => false
  | .nextCodeBit _ => false
  | .readByteFire _ => false
  | .writeByteFire _ => false
  | .emitFlux _ _ => false
  | .emitCode _ _ => false

end Sys2Proof
end

