-- ==== Sys2Proof/Decode.lean ====
section
/-! DEFINITION. From the word that names an operation to the operation, and back. The spec encodes a port access as
`(dir, offset, data, peek)` through `PORT_MAP` (rule R65, rule R130) and gives events and functions no bits (rule R78),
so the layout of the word is the model's own. DESIGN CHOICE, safe (log entry 1): it only names operations.

A word is a natural number; bit 0 is the least significant. Bits 7..0 are its head, the operand lies above it:

| head | operation | operand (from bit 8 up) |
|---|---|---|
| 00, 01 | port read, port peek read | bits 15..8 zero, offset from bit 16 up |
| 02 | port write | data in bits 15..8, offset from bit 16 up |
| 10 | `FD_PULSE` | slot 0..3 |
| 11, 12, 13, 14, 15 | `HD_INDEX`, `SECTOR_FIRE`, `BYTE_FIRE`, `MOTOR_FIRE`, `DEVICE_RESET` | zero |
| 20 | `MFM_ENCODE` | d in bits 15..8, p in bits 23..16 |
| 21 | `MFM_DECODE` | the code, bits 23..8 |
| 22, 23, 24, 26 | `pll.nextBit`, `pll.setClock`, `pll.resetForRead`, `nextCodeBit` | the time |
| 25 | `hdNextBit` | zero |
| 27, 28 | `readByteFire`, `writeByteFire` | 0 floppy, 1 hard disk |
| 29, 2A | `emitFlux`, `emitCode` | code in bits 23..8, the time from bit 24 up | -/

namespace Sys2Proof

/-- Why a word names no operation. -/
inductive DecodeError where
  /-- No operation has this head. -/
  | unknownOperation (head : Nat)
  /-- The operand has bits that the operation does not take. -/
  | operandBits (head : Nat)
  /-- The map holds an operation of the other direction in this slot: rule R67 refuses such a map. -/
  | wrongDirection (op : PortOp)
  deriving DecidableEq, Repr

/-- The operation that an access performs (rule R130), given what `PORT_MAP` holds in its slot. -/
def portInstr (op : PortOp) (dir : Dir) (offset : Nat) (data : Byte) (peek : Bool) : Except DecodeError Instr :=
  match dir, op with
  | .read, .rdStatus0 => .ok (.rdStatus0 peek)
  | .read, .rdStatus1 => .ok (.rdStatus1 peek)
  | .read, .rdData => .ok (.rdData peek)
  | .read, .rdReset => .ok (.rdReset peek)
  | .write, .wrControl0 => .ok (.wrControl0 data)
  | .write, .wrControl1 => .ok (.wrControl1 data)
  | .write, .wrData => .ok (.wrData data)
  | .write, .wrReset => .ok (.wrReset data)
  | .write, .wrStart => .ok (.wrStart data)
  | d, .invalid => .ok (.invalid d offset data peek)
  | _, o => .error (.wrongDirection o)

/-- A port read: no data byte. -/
def decodeRead (m : PortMap) (peek : Bool) (operand : Nat) : Except DecodeError Instr :=
  if operand % 256 = 0 then
    portInstr (m.slot .read (operand / 256)) .read (operand / 256) 0 peek
  else .error (.operandBits peek.toNat)

/-- A port write: always with `peek = false` (rule R130). -/
def decodeWrite (m : PortMap) (operand : Nat) : Except DecodeError Instr :=
  portInstr (m.slot .write (operand / 256)) .write (operand / 256) (BitVec.ofNat 8 operand) false

/-- An operation whose operand must lie below `bound`. -/
def decodeBelow (bound head operand : Nat) (i : Instr) : Except DecodeError Instr :=
  if operand < bound then .ok i else .error (.operandBits head)

/-- The drive kind of the operand 0 or 1. -/
def kindOfNat (n : Nat) : Kind := if n = 0 then .fd else .hd

/-- The operation that a head names, with its operand. -/
def decodeOperation (m : PortMap) (head operand : Nat) : Except DecodeError Instr :=
  if head = 0x00 then decodeRead m false operand
  else if head = 0x01 then decodeRead m true operand
  else if head = 0x02 then decodeWrite m operand
  else if head = 0x10 then decodeBelow 4 head operand (.fdPulse (Fin.ofNat 4 operand))
  else if head = 0x11 then decodeBelow 1 head operand .hdIndex
  else if head = 0x12 then decodeBelow 1 head operand .sectorFire
  else if head = 0x13 then decodeBelow 1 head operand .byteFire
  else if head = 0x14 then decodeBelow 1 head operand .motorFire
  else if head = 0x15 then decodeBelow 1 head operand .deviceReset
  else if head = 0x20 then
    decodeBelow 0x10000 head operand (.mfmEncode (BitVec.ofNat 8 operand) (BitVec.ofNat 8 (operand / 256)))
  else if head = 0x21 then decodeBelow 0x10000 head operand (.mfmDecode (BitVec.ofNat 16 operand))
  else if head = 0x22 then .ok (.pllNextBit operand)
  else if head = 0x23 then .ok (.pllSetClock operand)
  else if head = 0x24 then .ok (.pllResetForRead operand)
  else if head = 0x25 then decodeBelow 1 head operand .hdNextBit
  else if head = 0x26 then .ok (.nextCodeBit operand)
  else if head = 0x27 then decodeBelow 2 head operand (.readByteFire (kindOfNat operand))
  else if head = 0x28 then decodeBelow 2 head operand (.writeByteFire (kindOfNat operand))
  else if head = 0x29 then .ok (.emitFlux (operand / 0x10000) (BitVec.ofNat 16 operand))
  else if head = 0x2A then .ok (.emitCode (operand / 0x10000) (BitVec.ofNat 16 operand))
  else .error (.unknownOperation head)

/-- The operation that a word names. -/
def decode (m : PortMap) (w : Nat) : Except DecodeError Instr := decodeOperation m (w % 256) (w / 256)

/-- The number of a drive kind in an operand. -/
def Kind.toNat : Kind → Nat
  | .fd => 0
  | .hd => 1

/-- A head and its operand. -/
def wordOf (head operand : Nat) : Nat := head + 256 * operand

/-- The head of an access. -/
def accessHead (dir : Dir) (peek : Bool) : Nat :=
  match dir with
  | .read => peek.toNat
  | .write => 0x02

/-- The word of an access to a given slot. -/
def accessWord (dir : Dir) (offset : Nat) (data : Byte) (peek : Bool) : Nat :=
  wordOf (accessHead dir peek) (data.toNat + 256 * offset)

/-- The word of a port operation: the access to the slot that holds it, if the map has one. -/
def encodePort (m : PortMap) (op : PortOp) (dir : Dir) (data : Byte) (peek : Bool) : Option Nat :=
  ((m.slots dir).idxOf? op).map fun offset => accessWord dir offset data peek

/-- The word of an operation; none for a port operation the map leaves out (rule R67, rule R68). -/
def encode (m : PortMap) : Instr → Option Nat
  | .wrControl0 data => encodePort m .wrControl0 .write data false
  | .wrControl1 data => encodePort m .wrControl1 .write data false
  | .rdStatus0 peek => encodePort m .rdStatus0 .read 0 peek
  | .rdStatus1 peek => encodePort m .rdStatus1 .read 0 peek
  | .wrStart data => encodePort m .wrStart .write data false
  | .wrData data => encodePort m .wrData .write data false
  | .wrReset data => encodePort m .wrReset .write data false
  | .rdData peek => encodePort m .rdData .read 0 peek
  | .rdReset peek => encodePort m .rdReset .read 0 peek
  | .invalid dir offset data peek => some (accessWord dir offset data peek)
  | .fdPulse n => some (wordOf 0x10 n.val)
  | .hdIndex => some (wordOf 0x11 0)
  | .sectorFire => some (wordOf 0x12 0)
  | .byteFire => some (wordOf 0x13 0)
  | .motorFire => some (wordOf 0x14 0)
  | .deviceReset => some (wordOf 0x15 0)
  | .mfmEncode d p => some (wordOf 0x20 (d.toNat + 256 * p.toNat))
  | .mfmDecode c => some (wordOf 0x21 c.toNat)
  | .pllNextBit deadline => some (wordOf 0x22 deadline)
  | .pllSetClock h => some (wordOf 0x23 h)
  | .pllResetForRead t => some (wordOf 0x24 t)
  | .hdNextBit => some (wordOf 0x25 0)
  | .nextCodeBit deadline => some (wordOf 0x26 deadline)
  | .readByteFire k => some (wordOf 0x27 k.toNat)
  | .writeByteFire k => some (wordOf 0x28 k.toNat)
  | .emitFlux t c => some (wordOf 0x29 (c.toNat + 0x10000 * t))
  | .emitCode t c => some (wordOf 0x2A (c.toNat + 0x10000 * t))

/-- The operation that the decoder reads from a word of `nbits` bits, under `PM_TEST`, the map whose slots the opcode
table's notes give: every bit above `nbits` is 0. -/
def decodeTableWord (nbits w : Nat) : Option Instr :=
  match decode PortMap.pmTest (w % 2 ^ nbits) with
  | .ok i => some i
  | .error _ => none

end Sys2Proof
end

