-- ==== Sys2Proof/Machine/State.lean ====
section
/-! DEFINITION. The state: the record `S` of 10_state.md, the scheduler's time, the configuration (rule R8), and the
model's own fields that stand for the outside world (rule R17). -/

namespace Sys2Proof.Machine

/-- CommandState (rule R23). -/
structure CommandState where
  selectedDrive : Fin 4
  selectedHead : BitVec 3
  reducedWriteCurrent : Bool
  targetSector : BitVec 5
  readMode : Bool
  eccRequested : Bool
  writePrecompensation : Bool
  deriving DecidableEq, Repr

/-- CommandState after `DEVICE_RESET` (rule R195). -/
def CommandState.reset : CommandState :=
  { selectedDrive := 0, selectedHead := 0, reducedWriteCurrent := false, targetSector := 0, readMode := false,
    eccRequested := false, writePrecompensation := false }

/-- A pending periodic timer: its next firing and its period (rule R16 `schedulePeriodic`). -/
structure Periodic where
  next : Nat
  period : Nat
  deriving DecidableEq, Repr

/-- The calls the block makes on the drives (rule R95, rule R96) and on the adapter (rule R98 to rule R100), with the
answer where there is one. An adapter call names the floppy the adapter is bound to (rule R97). -/
inductive Call where
  | fdSetMotor (n : Fin 4) (on : Bool)
  | fdSetHead (n : Fin 4) (head : BitVec 3)
  | fdSetStep (n : Fin 4) (level : Bool)
  | fdSetDir (n : Fin 4) (level : Bool)
  | fdWp (n : Fin 4) (answer : Bool)
  | fdTk0 (n : Fin 4) (answer : Bool)
  | fdWriteFlux (n : Fin 4) (t0 t1 : Nat) (transitions : List Nat)
  | hdSetHead (head : BitVec 3)
  | hdSetStep (level : Bool)
  | hdSetDir (level : Bool)
  | hdReady (answer : Bool)
  | hdTk0 (answer : Bool)
  | hdSeekComplete (answer : Bool)
  | hdReadBit (t : Nat) (answer : Bool)
  | hdWriteCode (t : Nat) (c : Code) (pre rwc : Bool)
  | pllSetClock (n : Fin 4) (h : Nat)
  | pllResetForRead (n : Fin 4) (t : Nat)
  | pllNextBit (n : Fin 4) (ref deadline : Nat) (answer : Option (Bool × Nat))
  deriving DecidableEq, Repr

/-- The value an operation returns to its caller (rule R65: "a read returns an 8-bit value"; rule R79; rule R98). -/
inductive Result where
  /-- No operation has returned a value yet. -/
  | none
  /-- A port read or `MFM_DECODE`. -/
  | byte (v : Byte)
  /-- `MFM_ENCODE`. -/
  | code (c : Code)
  /-- A code bit, or "none". -/
  | bit (b : Option Bool)
  deriving DecidableEq, Repr

/-- An operation the outside world has still to perform: its time, its rank among the events of that time (rule R61,
rule R62; Machine/Scheduler.lean says how ranks are read), and the word that names it (Decode.lean). -/
structure Stimulus where
  time : Nat
  rank : Nat
  word : Nat
  deriving DecidableEq, Repr

/-- The state of the machine. -/
structure State where
  /-- The configuration of rule R8; no operation changes it. -/
  cfg : Params
  /-- `S.buffer` (rule R20): every index of the buffer with its byte, indices rising. -/
  buffer : List Host.Cell
  /-- `S.cursor` (rule R21). -/
  cursor : Nat
  /-- `S.cmd` (rule R23). -/
  cmd : CommandState
  /-- `S.busy` (rule R26). -/
  busy : Bool
  /-- The pending firing of `MOTOR` (rule R30). -/
  motor : Option Nat
  /-- The pending firings of `SECTOR` (rule R31). -/
  sector : Option Periodic
  /-- The pending firing of `BYTE` (rule R32). -/
  byte : Option Nat
  /-- `S.fdCounter` (rule R33). -/
  fdCounter : Nat
  /-- `S.fdLastPulse` (rule R33). -/
  fdLastPulse : Option Nat
  /-- `S.hdCounter` (rule R34). -/
  hdCounter : Nat
  /-- `S.hdLastPulse` (rule R34). -/
  hdLastPulse : Option Nat
  /-- `S.hdPeriod` (rule R34). -/
  hdPeriod : Option Nat
  /-- `S.pendingBits` (rule R36). -/
  pendingBits : Code
  /-- `S.pendingCount` (rule R36). -/
  pendingCount : Nat
  /-- `S.readPos` (rule R37). -/
  readPos : Nat
  /-- `S.idleCount` (rule R38). -/
  idleCount : Option Nat
  /-- The scheduler's current virtual time (rule R15). -/
  now : Nat
  /-- The model's own: what the outside world has still to do. -/
  agenda : List Stimulus
  /-- The model's own: the adapter's next answers, before the law of rule R98. -/
  pllAnswers : List (Option (Bool × Nat))
  /-- The model's own: the hard disk's next answers to a bit read. -/
  hdBits : List Bool
  /-- The model's own: the drives' next answers to status queries. -/
  signals : List Bool
  /-- The model's own: how many free answers of Config have been drawn. -/
  drawn : Nat
  /-- The model's own: the calls made so far, newest first. -/
  calls : List Call
  /-- The model's own: the value returned by the latest operation that returns one. -/
  result : Result
  deriving DecidableEq, Repr

/-- Why a run stops with a fault: never. "The block raises no exception, trap or error code" (rule R175), so there is no
constructor. -/
inductive Fault where
  deriving DecidableEq, Repr

/-- Why the model refuses a step. -/
inductive Refusal where
  /-- An arm of `exec` without a meaning raises it. Safe: nothing is claimed of such an operation. -/
  | notModelled (mnemonic : String)
  /-- `step` raises it: the configuration is one that rule R67, rule R69 or item I8 refuses before any run, or one in which a
  rule has no meaning (log entry 8). Safe: no run is modelled. -/
  | badConfiguration
  /-- `step` raises it: the agenda holds a word that names no operation. Safe: no agent performs such a thing. -/
  | unreadableWord (e : DecodeError)
  deriving DecidableEq, Repr

/-- The buffer of a machine just powered on: each byte is a draw (rule R22, rule R196). -/
def powerOnBuffer (len : Nat) : List Host.Cell :=
  (List.range len).map fun i => (i, Config.powerOnByte i)

/-- The machine right after power-on: the `DEVICE_RESET` state of rule R195 with every buffer byte a draw (rule R196).
The time, the empty inputs and the result are the model's. DESIGN CHOICE, unsafe (log entry 11). -/
def State.reset : State :=
  { cfg := Config.params,
    buffer := powerOnBuffer Config.params.bufLen,
    cursor := 0,
    cmd := CommandState.reset,
    busy := false,
    motor := none,
    sector := none,
    byte := none,
    fdCounter := 0,
    fdLastPulse := none,
    hdCounter := 0,
    hdLastPulse := none,
    hdPeriod := none,
    pendingBits := 0,
    pendingCount := 0,
    readPos := 0,
    idleCount := none,
    now := 0,
    agenda := [],
    pllAnswers := [],
    hdBits := [],
    signals := [],
    drawn := 0,
    calls := (Config.params.attachedSlots.map fun n => Call.fdSetMotor n false).reverse,
    result := .none }

/-- The persisted snapshot (rule R42). -/
structure Snapshot where
  buffer : List Host.Cell
  cursor : Nat
  cmd : CommandState
  busy : Bool
  pendingBits : Code
  pendingCount : Nat
  deriving DecidableEq, Repr

end Sys2Proof.Machine
end

