-- ==== Sys2Proof/Machine/Codec.lean ====
section
/-! DEFINITION. The MFM codec (40_mfm_codec.md): the two pure functions, and the operations that return them. -/

namespace Sys2Proof.Machine

/-- `{ctx, d[7:1]}`: the data byte shifted right by one, the context bit `p[7]` in bit 7 (rule R85). -/
def shiftedData (d p : Byte) : Byte := BitVec.cons (p.getLsbD 7) (d.extractLsb' 1 7)

/-- The clock bits `~(d | sh)` (rule R85). -/
def clockBits (d p : Byte) : Byte := ~~~(d ||| shiftedData d p)

/-- The code with data bits at the even positions and clock bits at the odd ones (rule R76). -/
def interleave (d clk : Byte) : Code :=
  BitVec.ofFnLE fun j : Fin 16 => if j.val % 2 = 0 then d.getLsbD (j.val / 2) else clk.getLsbD (j.val / 2)

/-- `MFM_ENCODE(d, p)` (rule R85). -/
def mfmEncode (d p : Byte) : Code := interleave d (clockBits d p)

/-- `MFM_DECODE(c)`: the bits at the even positions, whatever the clock bits are (rule R86). -/
def mfmDecode (c : Code) : Byte := BitVec.ofFnLE fun i : Fin 8 => c.getLsbD (2 * i.val)

/-- Shift a received code bit in at bit 0 (rule R55, rule R119, rule R157). -/
def shiftInBit (reg : Code) (b : Bool) : Code := BitVec.concat (reg.extractLsb' 0 15) b

/-- `MFM_ENCODE` (rule R85): returns the code. -/
def execMfmEncode (d p : Byte) (s : State) : Host.Outcome State Fault Refusal :=
  .next { s with result := .code (mfmEncode d p) }

/-- `MFM_DECODE` (rule R86): returns the data byte. -/
def execMfmDecode (c : Code) (s : State) : Host.Outcome State Fault Refusal :=
  .next { s with result := .byte (mfmDecode c) }

end Sys2Proof.Machine
end

