-- ==== Sys2Proof/Machine/Flags.lean ====
section
/-! DEFINITION. What the state shows: the selected drive kind (rule R12, rule R13), the motor and transfer flags
(rule R27, rule R32), the selected counter (rule R35), the phases (rule R40, rule R41), and the bytes of the status ports
(rule R72, rule R73). The block has no condition codes (rule R28). -/

namespace Sys2Proof.Machine

/-- `kind(S)`: the hard disk when it is attached and drive 0 is selected, else the floppy (rule R12, rule R13). -/
def State.kind (s : State) : Kind :=
  if s.cfg.hdAttached && decide (s.cmd.selectedDrive = 0) then .hd else .fd

/-- `motorOn(S)` (rule R27). -/
def State.motorOn (s : State) : Bool := s.motor.isSome

/-- `transferActive(S)` (rule R32). -/
def State.transferActive (s : State) : Bool := s.byte.isSome

/-- `counter(S)` (rule R35). -/
def State.counter (s : State) : Nat :=
  match s.kind with
  | .fd => s.fdCounter
  | .hd => s.hdCounter

/-- `SECTORS(kind)` (rule R124). -/
def sectorsOf (c : Params) : Kind → Nat
  | .fd => c.fdSectors
  | .hd => c.hdSectors

/-- `HALF_CELL(kind)` (rule R9). -/
def halfCell (c : Params) : Kind → Nat
  | .fd => c.fdHalfCell
  | .hd => c.hdHalfCell

/-- `BYTE_TIME(kind)` (rule R9). -/
def byteTime (c : Params) (k : Kind) : Nat := c.codeBits * halfCell c k

/-- The phases of rule R40 and rule R41. -/
inductive Phase where
  | idle
  | ready
  | armed
  | transferring
  deriving DecidableEq, Repr

/-- The phase of a state (rule R40, rule R41). -/
def State.phase (s : State) : Phase :=
  if s.transferActive then .transferring
  else if s.busy then .armed
  else if s.motorOn then .ready
  else .idle

/-- The `hang` of rule R16: an operation whose sync search has failed, busy with no transfer (rule R176). -/
def State.hung (s : State) : Bool := s.busy && !s.transferActive && decide (s.idleCount = none)

/-- The snapshot of rule R42. -/
def State.snapshot (s : State) : Snapshot :=
  { buffer := s.buffer, cursor := s.cursor, cmd := s.cmd, busy := s.busy, pendingBits := s.pendingBits,
    pendingCount := s.pendingCount }

/-- A byte with bit `i` set to `b` and every other bit 0. -/
def bitAt (i : Nat) (b : Bool) : Byte := (BitVec.ofBool b).setWidth 8 <<< i

/-- Status-port-0 byte of a floppy: `WP` at bit 0, `TK0` at bit 2 (rule R72, rule R139). -/
def floppyStatus (wp tk0 : Bool) : Byte := bitAt 0 wp ||| bitAt 2 tk0

/-- Status-port-0 byte of the hard disk: `RDY` at bit 1, `TK0` at bit 2, `SC` at bit 4, `LOS` at bit 5 always 1
(rule R72, rule R139). -/
def hardDiskStatus (ready tk0 seekComplete : Bool) : Byte :=
  bitAt 1 ready ||| bitAt 2 tk0 ||| bitAt 4 seekComplete ||| bitAt 5 true

/-- Status-port-1 byte: `HDSEL` 0, `BUSY` 1, `MOTOR` 2, `HDTYPE` 3 (rule R73, rule R140). -/
def State.status1 (s : State) : Byte :=
  bitAt 0 (decide (s.kind = .hd)) ||| bitAt 1 s.busy ||| bitAt 2 s.motorOn ||| bitAt 3 s.cfg.hdTypeBit

end Sys2Proof.Machine
end

