-- ==== Sys2Proof/Machine/Operands.lean ====
section
/-! DEFINITION. The fields of the two control bytes (rule R70, rule R71), and what a control write stores of them
(rule R133, rule R137). -/

namespace Sys2Proof.Machine

/-- `DRV = data[1:0]` (rule R70). -/
def control0Drive (data : Byte) : Fin 4 := (data.extractLsb' 0 2).toFin

/-- `HEAD = data[4:2]` (rule R70). -/
def control0Head (data : Byte) : BitVec 3 := data.extractLsb' 2 3

/-- `STEP = data[5]` (rule R70). -/
def control0Step (data : Byte) : Bool := data.getLsbD 5

/-- `DIR = data[6]` (rule R70). -/
def control0Dir (data : Byte) : Bool := data.getLsbD 6

/-- `RWC = data[7]` (rule R70). -/
def control0Rwc (data : Byte) : Bool := data.getLsbD 7

/-- `SECT = data[4:0]` (rule R71). -/
def control1Sector (data : Byte) : BitVec 5 := data.extractLsb' 0 5

/-- `RD = data[5]`, 1 = read mode (rule R71). -/
def control1Read (data : Byte) : Bool := data.getLsbD 5

/-- `ECC = data[6]` (rule R71). -/
def control1Ecc (data : Byte) : Bool := data.getLsbD 6

/-- `PRE = data[7]` (rule R71). -/
def control1Pre (data : Byte) : Bool := data.getLsbD 7

/-- What a control-port-0 write stores in CommandState: the step and direction bits are not stored (rule R25, R133). -/
def CommandState.control0 (c : CommandState) (data : Byte) : CommandState :=
  { c with
    selectedDrive := control0Drive data,
    selectedHead := control0Head data,
    reducedWriteCurrent := control0Rwc data }

/-- What a control-port-1 write stores in CommandState (rule R137). -/
def CommandState.control1 (c : CommandState) (data : Byte) : CommandState :=
  { c with
    targetSector := control1Sector data,
    readMode := control1Read data,
    eccRequested := control1Ecc data,
    writePrecompensation := control1Pre data }

/-- The head forwarded to the hard disk, `HEAD & (HD_HEADS - 1)` (rule R134). -/
def maskedHead (heads : HeadCount) (head : BitVec 3) : BitVec 3 :=
  head &&& BitVec.ofNat 3 (heads.toNat - 1)

end Sys2Proof.Machine
end

