-- ==== Sys2Proof/Machine/Ops.lean ====
section
/-! DEFINITION. The named operations over the state that the meanings share: the buffer, the timers, the calls and their
answers, the adapter, the sector clock's actions, and the two paths of the byte-transfer engine. The block takes no
exception and returns from none (rule R175, rule R185), so no such operation stands here; the outcomes in their place are
`State.syncFail` and `State.complete`. -/

namespace Sys2Proof.Machine

/-! ### The staging buffer (rule R16, rule R20, rule R54) -/

/-- The byte a list of cells holds at an index. -/
def cellAt : List Host.Cell → Nat → Option Byte
  | [], _ => none
  | (a, v) :: rest, i => if a = i then some v else cellAt rest i

/-- The byte at an index. Every index of the buffer is listed; an index that is not is none of the buffer's, and reads as
the free value of that index. -/
def byteAt (cells : List Host.Cell) (i : Nat) : Byte := (cellAt cells i).getD (Config.powerOnByte i)

/-- The cells with the byte at one index replaced, indices kept rising. -/
def putCell : List Host.Cell → Nat → Byte → List Host.Cell
  | [], i, v => [(i, v)]
  | (a, w) :: rest, i, v =>
    if i < a then (i, v) :: (a, w) :: rest
    else if i = a then (i, v) :: rest
    else (a, w) :: putCell rest i v

/-- The canonical form of a buffer of `len` bytes: exactly the indices 0..len-1, rising, each with its byte (rule R20). -/
def Memory.wf (len : Nat) (cells : List Host.Cell) : Bool := decide (cells.map Prod.fst = List.range len)

/-- The state's buffer has the canonical form. -/
def State.bufferOk (s : State) : Bool := Memory.wf s.cfg.bufLen s.buffer

/-- `MemRead(i, 1)` (rule R16). -/
def State.memRead (s : State) (i : Nat) : Byte := byteAt s.buffer (i % s.cfg.bufLen)

/-- `MemWrite(i, 1, v)` (rule R16). -/
def State.memWrite (s : State) (i : Nat) (v : Byte) : State :=
  { s with buffer := putCell s.buffer (i % s.cfg.bufLen) v }

/-- `S.cursor <- (S.cursor + 1) mod BUF_LEN` (rule R21). -/
def State.advanceCursor (s : State) : State := { s with cursor := (s.cursor + 1) % s.cfg.bufLen }

/-! ### Timers (rule R16, rule R29) -/

/-- `schedule(MOTOR, t)`. -/
def State.scheduleMotor (s : State) (t : Nat) : State := { s with motor := some t }

/-- `cancel(MOTOR)`, and the state after `MOTOR` has fired. -/
def State.cancelMotor (s : State) : State := { s with motor := none }

/-- `schedule(BYTE, t)`. -/
def State.scheduleByte (s : State) (t : Nat) : State := { s with byte := some t }

/-- `cancel(BYTE)`, and the state after `BYTE` has fired. -/
def State.cancelByte (s : State) : State := { s with byte := none }

/-- `schedulePeriodic(SECTOR, t0, p)`: fires at t0+p, t0+2p, … -/
def State.scheduleSector (s : State) (t0 p : Nat) : State := { s with sector := some { next := t0 + p, period := p } }

/-- `cancel(SECTOR)`. -/
def State.cancelSector (s : State) : State := { s with sector := none }

/-- The state after `SECTOR` has fired: the next firing of a periodic timer is one period later. -/
def State.repeatSector (s : State) : State :=
  { s with sector := s.sector.map fun p => { p with next := p.next + p.period } }

/-! ### Calls, answers and returned values (rule R17) -/

/-- Record a call. -/
def State.call (s : State) (c : Call) : State := { s with calls := c :: s.calls }

/-- Return a value to the caller. -/
def State.returns (s : State) (r : Result) : State := { s with result := r }

/-- The answer to a drive's status query: the next input, or a free value. -/
def State.drawSignal (s : State) : Bool × State :=
  match s.signals with
  | b :: rest => (b, { s with signals := rest })
  | [] => (Config.signal s.drawn, { s with drawn := s.drawn + 1 })

/-- The hard disk's answer to a bit read: the next input, or a free value. -/
def State.drawHdBit (s : State) : Bool × State :=
  match s.hdBits with
  | b :: rest => (b, { s with hdBits := rest })
  | [] => (Config.hdBit s.drawn, { s with drawn := s.drawn + 1 })

/-- The adapter's answer before the law of rule R98: the next input, or a free value. -/
def State.drawPll (s : State) : Option (Bool × Nat) × State :=
  match s.pllAnswers with
  | a :: rest => (a, { s with pllAnswers := rest })
  | [] => (Config.pllAnswer s.drawn, { s with drawn := s.drawn + 1 })

/-- The law of rule R98: an answer `some(b, t')` has `ref < t' <= deadline`; an answer that breaks it is no answer the
adapter can give, and counts as `none`. -/
def lawfulAnswer (ref deadline : Nat) : Option (Bool × Nat) → Option (Bool × Nat)
  | some (b, t) => if ref < t ∧ t ≤ deadline then some (b, t) else none
  | none => none

/-! ### Bit recovery (41_bit_recovery.md) -/

/-- `pll.nextBit(S.readPos, deadline)` (rule R98). -/
def State.pllNextBit (s : State) (deadline : Nat) : Option Bool × State :=
  let answer := lawfulAnswer s.readPos deadline s.drawPll.1
  let s' := s.drawPll.2.call (.pllNextBit s.cmd.selectedDrive s.readPos deadline answer)
  match answer with
  | some (b, t) => (some b, { s' with readPos := t })
  | none => (none, s')

/-- `pll.setClock(h)` (rule R99): no state of the block changes. -/
def State.pllSetClock (s : State) (h : Nat) : State := s.call (.pllSetClock s.cmd.selectedDrive h)

/-- `pll.resetForRead(t)`, then `S.readPos <- t` (rule R100). -/
def State.pllResetForRead (s : State) (t : Nat) : State :=
  { s.call (.pllResetForRead s.cmd.selectedDrive t) with readPos := t }

/-- `hdNextBit()` (rule R101). -/
def State.hdNextBit (s : State) : Bool × State :=
  let b := s.drawHdBit.1
  let s' := s.drawHdBit.2.call (.hdReadBit s.readPos b)
  (b, { s' with readPos := s.readPos + s.cfg.hdHalfCell })

/-- `nextCodeBit(deadline)` for a transfer of kind `k` (rule R102). -/
def State.nextCodeBit (s : State) (k : Kind) (deadline : Nat) : Option Bool × State :=
  match k with
  | .fd => s.pllNextBit deadline
  | .hd =>
    if s.readPos + s.cfg.hdHalfCell > deadline then (none, s)
    else (some s.hdNextBit.1, s.hdNextBit.2)

/-! ### The sync search (rule R119) -/

/-- The sync pattern of a drive kind (rule R119). -/
def syncPattern (c : Params) : Kind → Code
  | .fd => c.fdSync
  | .hd => c.hdSync

/-- The loop of rule R119. `fuel` bounds the number of bits: every bit moves `S.readPos` on by at least one `TIME_UNIT` and
never past the deadline, so a fuel above their distance is never used up (log entry 13). -/
def syncLoop (k : Kind) (deadline : Nat) (pattern : Code) : Nat → Code → Nat → State → Bool × State
  | 0, _, _, s => (false, s)
  | fuel + 1, reg, n, s =>
    match s.nextCodeBit k deadline with
    | (none, s') => (false, s')
    | (some b, s') =>
      if n + 1 ≥ 16 ∧ shiftInBit reg b = pattern then (true, s')
      else syncLoop k deadline pattern fuel (shiftInBit reg b) (n + 1) s'

/-- The deadline of a sync search (rule R119). -/
def State.syncDeadline (s : State) (k : Kind) : Nat := s.now + s.cfg.syncWindowBytes * byteTime s.cfg k

/-- `syncSearch(k)` (rule R119). -/
def State.syncSearch (s : State) (k : Kind) : Bool × State :=
  syncLoop k (s.syncDeadline k) (syncPattern s.cfg k) (s.syncDeadline k - s.readPos + 1) 0 0 s

/-! ### Acting on an increment (rule R115 to rule R124) -/

/-- `ECC_FIELD(cursor)` (rule R122). -/
def eccFieldAt (c : Params) (cursor : Nat) : List Nat := c.eccField.getD cursor []

/-- The cells with `0x00` at each of the given indices. -/
def zeroCells (cells : List Host.Cell) : List Nat → List Host.Cell
  | [] => cells
  | i :: rest => zeroCells (putCell cells i 0) rest

/-- `clearEcc()`: `0x00` into every index of the ECC field (rule R122). -/
def State.clearEcc (s : State) : State :=
  { s with buffer := zeroCells s.buffer ((eccFieldAt s.cfg s.cursor).map (· % s.cfg.bufLen)) }

/-- `complete()` clears the ECC field: a read against the hard disk with ECC requested (rule R121). -/
def State.clearsEcc (s : State) : Bool :=
  s.cmd.readMode && decide (s.kind = .hd) && s.cmd.eccRequested

/-- `complete()`, the forced completion (rule R121). -/
def State.complete (s : State) : State :=
  { s with buffer := if s.clearsEcc then s.clearEcc.buffer else s.buffer, byte := none, busy := false }

/-- `writeStart()` (rule R117). -/
def State.writeStart (s : State) : State := s.scheduleByte s.now

/-- `syncFail()`: no state changes (rule R120). -/
def State.syncFail (s : State) : State := s

/-- The adapter or the direct path made ready for a read pass (rule R118). -/
def State.beginRead (s : State) : State :=
  match s.kind with
  | .fd => (s.pllSetClock s.cfg.fdHalfCell).pllResetForRead s.now
  | .hd => { s with readPos := s.now }

/-- `readStart()` (rule R118). -/
def State.readStart (s : State) : State :=
  match s.beginRead.syncSearch s.kind with
  | (true, s') => s'.scheduleByte s'.readPos
  | (false, s') => s'.syncFail

/-- `sectorMatch()` (rule R116). -/
def State.sectorMatch (s : State) : State :=
  let s' := { s with idleCount := none, pendingBits := 0, pendingCount := 0 }
  if s.cmd.readMode then s'.readStart else s'.writeStart

/-- `idleTick()` (rule R124). -/
def State.idleTick (s : State) : State :=
  match s.idleCount with
  | none => s
  | some n => { s with idleCount := some (n + 1), busy := s.busy && decide (n + 1 < sectorsOf s.cfg s.kind) }

/-- `afterIncrement()` (rule R115): the completion test comes before the match test. -/
def State.afterIncrement (s : State) : State :=
  if s.busy = true ∧ s.transferActive = true then s.complete
  else if s.busy = true ∧ s.counter = s.cmd.targetSector.toNat then s.sectorMatch
  else if s.busy = true ∧ s.cfg.idleRelease = .oneRevolution then s.idleTick
  else s

/-! ### The byte-transfer engine (44_byte_transfer.md) -/

/-- A recovered code bit enters the accumulator (rule R157). -/
def State.accumulate (s : State) (b : Bool) : State :=
  { s with pendingBits := shiftInBit s.pendingBits b, pendingCount := s.pendingCount + 1 }

/-- `storeByte()` (rule R158). -/
def State.storeByte (s : State) : State :=
  { (s.memWrite s.cursor (mfmDecode s.pendingBits)).advanceCursor with pendingBits := 0, pendingCount := 0 }

/-- The loop of rule R156, one action an iteration: take a bit, or wait for the byte's end, or store the byte. `fuel` is never
used up: a bit moves `S.readPos` on by at least one `TIME_UNIT` and never past the horizon, and a store is followed by bits
(log entry 13). -/
def readLoop (k : Kind) (horizon : Nat) : Nat → State → State
  | 0, s => s.scheduleByte horizon
  | fuel + 1, s =>
    if s.pendingCount < 16 then
      match s.nextCodeBit k horizon with
      | (none, s') => s'.scheduleByte horizon
      | (some b, s') => readLoop k horizon fuel (s'.accumulate b)
    else if s.readPos > s.now then s.scheduleByte s.readPos
    else readLoop k horizon fuel s.storeByte

/-- `readByteFire(k)` (rule R156). -/
def State.readByteFire (s : State) (k : Kind) : State :=
  readLoop k (s.now + byteTime s.cfg k) (2 * (s.now + byteTime s.cfg k - s.readPos) + 2) s

/-- The transition times of a code written from time `t` with half-bit-cell `h`, rising: one at the midpoint of the cell of
each set bit, bit 15 first (rule R165). -/
def fluxTimes (h t : Nat) (c : Code) : List Nat :=
  ((List.range 16).filter fun i => c.getLsbD (15 - i)).map fun i => t + i * h + h / 2

/-- The call of `emitFlux(t, c)` (rule R165). -/
def State.fluxCall (s : State) (t : Nat) (c : Code) : Call :=
  .fdWriteFlux s.cmd.selectedDrive t (t + 16 * s.cfg.fdHalfCell) (fluxTimes s.cfg.fdHalfCell t c)

/-- The call of `emitCode(t, c)` (rule R166). -/
def State.codeCall (s : State) (t : Nat) (c : Code) : Call :=
  .hdWriteCode t c s.cmd.writePrecompensation s.cmd.reducedWriteCurrent

/-- `emitFlux(t, c)` (rule R165). -/
def State.emitFlux (s : State) (t : Nat) (c : Code) : State := s.call (s.fluxCall t c)

/-- `emitCode(t, c)` (rule R166). -/
def State.emitCode (s : State) (t : Nat) (c : Code) : State := s.call (s.codeCall t c)

/-- The call that emits the pending code, if one is whole (rule R162). -/
def State.pendingEmission (s : State) (k : Kind) : List Call :=
  if s.pendingCount = 16 then
    match k with
    | .fd => [s.fluxCall s.now s.pendingBits]
    | .hd => [s.codeCall s.now s.pendingBits]
  else []

/-- Emit the pending code, if one is whole (rule R162). -/
def State.emitPending (s : State) (k : Kind) : State := { s with calls := s.pendingEmission k ++ s.calls }

/-- Encode the buffer byte at the cursor, with the previous data byte as context (rule R162, rule R164). -/
def State.encodeNext (s : State) : State :=
  { s.advanceCursor with
    pendingBits := mfmEncode (s.memRead s.cursor) (mfmDecode s.pendingBits),
    pendingCount := 16 }

/-- `writeByteFire(k)` (rule R162). -/
def State.writeByteFire (s : State) (k : Kind) : State :=
  (s.emitPending k).encodeNext.scheduleByte (s.now + byteTime s.cfg k)

/-! ### The drives' lines (rule R133, rule R134, rule R184, rule R195) -/

/-- The calls that turn the motors of the given floppies on or off, in order, newest first. -/
def motorCalls (on : Bool) (slots : List (Fin 4)) : List Call := (slots.map fun n => Call.fdSetMotor n on).reverse

/-- Turn the motors of every attached floppy on or off (rule R133, rule R184). -/
def State.setMotors (s : State) (on : Bool) : State := { s with calls := motorCalls on s.cfg.attachedSlots ++ s.calls }

/-- The calls of `forwardHeadStep(data)`, newest first (rule R134). -/
def State.headStepCalls (s : State) (data : Byte) : List Call :=
  match s.kind with
  | .hd =>
    [.hdSetDir (control0Dir data), .hdSetStep (control0Step data),
      .hdSetHead (maskedHead s.cfg.hdHeads (control0Head data))]
  | .fd =>
    if s.cfg.attached s.cmd.selectedDrive then
      [.fdSetDir s.cmd.selectedDrive (control0Dir data), .fdSetStep s.cmd.selectedDrive (control0Step data),
        .fdSetHead s.cmd.selectedDrive (control0Head data)]
    else []

/-- `forwardHeadStep(data)` (rule R134). -/
def State.forwardHeadStep (s : State) (data : Byte) : State := { s with calls := s.headStepCalls data ++ s.calls }

/-- `if kind(S) = FD: cancel(SECTOR)` (rule R135). -/
def State.cancelSectorForFloppy (s : State) : State :=
  { s with
    sector := match s.kind with
      | .fd => none
      | .hd => s.sector }

/-! ### Busy gating (rule R131) -/

/-- A port write: no effect while busy. -/
def State.gatedWrite (s : State) (effect : State → State) : State := if s.busy then s else effect s

/-- A read of the data or reset port: `BUSY_VALUE` and no effect while busy. -/
def State.gatedRead (s : State) (effect : State → State) : State :=
  if s.busy then s.returns (.byte s.cfg.busyValue) else effect s

end Sys2Proof.Machine
end

