-- ==== Sys2Proof/Machine/BitRecovery.lean ====
section
/-! DEFINITION. The operations of the bit-recovery front-end (41_bit_recovery.md), each returning its answer. -/

namespace Sys2Proof.Machine

/-- `pll.nextBit(S.readPos, deadline)` (rule R98). -/
def execPllNextBit (deadline : Nat) (s : State) : Host.Outcome State Fault Refusal :=
  .next ((s.pllNextBit deadline).2.returns (.bit (s.pllNextBit deadline).1))

/-- `pll.setClock(h)` (rule R99). -/
def execPllSetClock (h : Nat) (s : State) : Host.Outcome State Fault Refusal := .next (s.pllSetClock h)

/-- `pll.resetForRead(t)` (rule R100). -/
def execPllResetForRead (t : Nat) (s : State) : Host.Outcome State Fault Refusal := .next (s.pllResetForRead t)

/-- `hdNextBit()` (rule R101). -/
def execHdNextBit (s : State) : Host.Outcome State Fault Refusal :=
  .next (s.hdNextBit.2.returns (.bit (some s.hdNextBit.1)))

/-- `nextCodeBit(deadline)` for the selected drive kind (rule R102). -/
def execNextCodeBit (deadline : Nat) (s : State) : Host.Outcome State Fault Refusal :=
  .next ((s.nextCodeBit s.kind deadline).2.returns (.bit (s.nextCodeBit s.kind deadline).1))

end Sys2Proof.Machine
end

