-- ==== Sys2Proof/Machine/ByteTransfer.lean ====
section
/-! DEFINITION. The operations of the byte-transfer engine (44_byte_transfer.md). -/

namespace Sys2Proof.Machine

/-- `BYTE_FIRE` (rule R155). -/
def execByteFire (s : State) : Host.Outcome State Fault Refusal :=
  .next (if s.cmd.readMode then s.readByteFire s.kind else s.writeByteFire s.kind)

/-- `readByteFire(k)` (rule R156). -/
def execReadByteFire (k : Kind) (s : State) : Host.Outcome State Fault Refusal := .next (s.readByteFire k)

/-- `writeByteFire(k)` (rule R162). -/
def execWriteByteFire (k : Kind) (s : State) : Host.Outcome State Fault Refusal := .next (s.writeByteFire k)

/-- `emitFlux(t, c)` (rule R165). -/
def execEmitFlux (t : Nat) (c : Code) (s : State) : Host.Outcome State Fault Refusal := .next (s.emitFlux t c)

/-- `emitCode(t, c)` (rule R166). -/
def execEmitCode (t : Nat) (c : Code) (s : State) : Host.Outcome State Fault Refusal := .next (s.emitCode t c)

end Sys2Proof.Machine
end

