-- ==== Sys2Proof/Machine/Platform.lean ====
section
/-! DEFINITION. The motor timer's event (rule R184) and the device reset (rule R195). -/

namespace Sys2Proof.Machine

/-- `MOTOR_FIRE` (rule R184). -/
def execMotorFire (s : State) : Host.Outcome State Fault Refusal :=
  .next (s.cancelMotor.setMotors false)

/-- The state after `DEVICE_RESET`: every field of 10_state.md but the buffer (rule R195). -/
def State.deviceReset (s : State) : State :=
  { s with
    cursor := 0,
    cmd := CommandState.reset,
    busy := false,
    motor := none,
    sector := none,
    byte := none,
    fdCounter := 0,
    fdLastPulse := none,
    hdCounter := 0,
    hdLastPulse := none,
    hdPeriod := none,
    pendingBits := 0,
    pendingCount := 0,
    readPos := 0,
    idleCount := none }

/-- `DEVICE_RESET` (rule R195): the reset state, and every attached floppy's motor turned off. -/
def execDeviceReset (s : State) : Host.Outcome State Fault Refusal :=
  .next (s.deviceReset.setMotors false)

end Sys2Proof.Machine
end

