-- ==== Sys2Proof/Machine/Ports.lean ====
section
/-! DEFINITION. The host port operations (43_host_ports.md). -/

namespace Sys2Proof.Machine

/-- `WR_CONTROL0 data` (rule R133, rule R134, rule R135). -/
def execWrControl0 (data : Byte) (s : State) : Host.Outcome State Fault Refusal :=
  .next (s.gatedWrite fun s =>
    let s1 := { s with cmd := s.cmd.control0 data }
    let s2 := s1.scheduleMotor (s.now + s.cfg.motorTime)
    let s3 := s2.setMotors true
    (s3.forwardHeadStep data).cancelSectorForFloppy)

/-- `WR_CONTROL1 data` (rule R137). -/
def execWrControl1 (data : Byte) (s : State) : Host.Outcome State Fault Refusal :=
  .next (s.gatedWrite fun s => { s with cmd := s.cmd.control1 data })

/-- The status of the selected floppy: its write-protect and track-zero signals, or 0 when none is attached (rule R139,
rule R149). -/
def State.readFloppyStatus (s : State) : State :=
  let n := s.cmd.selectedDrive
  if s.cfg.attached n then
    let s1 := s.drawSignal.2.call (.fdWp n s.drawSignal.1)
    let s2 := s1.drawSignal.2.call (.fdTk0 n s1.drawSignal.1)
    s2.returns (.byte (floppyStatus s.drawSignal.1 s1.drawSignal.1))
  else s.returns (.byte 0)

/-- The status of the hard disk: its ready, track-zero and seek-complete signals, and loss of sync always set (rule R139). -/
def State.readHardDiskStatus (s : State) : State :=
  let s1 := s.drawSignal.2.call (.hdReady s.drawSignal.1)
  let s2 := s1.drawSignal.2.call (.hdTk0 s1.drawSignal.1)
  let s3 := s2.drawSignal.2.call (.hdSeekComplete s2.drawSignal.1)
  s3.returns (.byte (hardDiskStatus s.drawSignal.1 s1.drawSignal.1 s2.drawSignal.1))

/-- `RD_STATUS0`, also while busy; a peek has nothing to suppress (rule R139, rule R141, rule R146). -/
def execRdStatus0 (_peek : Bool) (s : State) : Host.Outcome State Fault Refusal :=
  .next (match s.kind with
    | .fd => s.readFloppyStatus
    | .hd => s.readHardDiskStatus)

/-- `RD_STATUS1`, also while busy; a peek has nothing to suppress (rule R140, rule R141, rule R146). -/
def execRdStatus1 (_peek : Bool) (s : State) : Host.Outcome State Fault Refusal :=
  .next (s.returns (.byte s.status1))

/-- `WR_START data`: the data byte is ignored, and a start with the motor off is too (rule R142, rule R75). -/
def execWrStart (_data : Byte) (s : State) : Host.Outcome State Fault Refusal :=
  .next (s.gatedWrite fun s => if s.motorOn then { s with busy := true, idleCount := some 0 } else s)

/-- `WR_DATA data` (rule R143). -/
def execWrData (data : Byte) (s : State) : Host.Outcome State Fault Refusal :=
  .next (s.gatedWrite fun s => (s.memWrite s.cursor data).advanceCursor)

/-- `WR_RESET data`: the data byte is ignored (rule R144, rule R75). -/
def execWrReset (_data : Byte) (s : State) : Host.Outcome State Fault Refusal :=
  .next (s.gatedWrite fun s => { s with cursor := 0 })

/-- `RD_DATA`: a peek does not advance the cursor (rule R145, rule R146). -/
def execRdData (peek : Bool) (s : State) : Host.Outcome State Fault Refusal :=
  .next (s.gatedRead fun s =>
    let s' := s.returns (.byte (s.memRead s.cursor))
    if peek then s' else s'.advanceCursor)

/-- `RD_RESET` (rule R147). -/
def execRdReset (_peek : Bool) (s : State) : Host.Outcome State Fault Refusal :=
  .next (s.gatedRead fun s => s.returns (.byte s.cfg.invalidValue))

/-- An access to an `INVALID` slot, busy or not: a read returns `INVALID_VALUE`, a write has no effect (rule R148,
rule R132). -/
def execInvalid (dir : Dir) (_offset : Nat) (_data : Byte) (_peek : Bool) (s : State) :
    Host.Outcome State Fault Refusal :=
  .next (match dir with
    | .read => s.returns (.byte s.cfg.invalidValue)
    | .write => s)

end Sys2Proof.Machine
end

