-- ==== Sys2Proof/Machine/SectorTiming.lean ====
section
/-! DEFINITION. The events of the sector-timing state machine (42_sector_timing.md). -/

namespace Sys2Proof.Machine

/-- An `FD_PULSE(n)` is accepted (rule R106). -/
def State.acceptsPulse (s : State) (n : Fin 4) : Bool :=
  decide (s.kind = .fd) && decide (n = s.cmd.selectedDrive) && s.cfg.attached n

/-- The pulse arrives within the debounce window of the previous accepted pulse; the window is strict (rule R107). -/
def State.inDebounce (s : State) : Bool :=
  match s.fdLastPulse with
  | none => false
  | some t => decide (s.now - t < s.cfg.fdDebounce)

/-- The floppy counter after an accepted pulse, and the retriggered window (rule R107, rule R108). -/
def State.countPulse (s : State) : State :=
  { s with
    fdCounter := if s.inDebounce then s.cfg.fdSectors - 1 else (s.fdCounter + 1) % s.cfg.fdSectors,
    fdLastPulse := some s.now }

/-- `FD_PULSE(n)` (rule R107); a pulse that is not accepted has no effect (rule R106). -/
def execFdPulse (n : Fin 4) (s : State) : Host.Outcome State Fault Refusal :=
  .next (if s.acceptsPulse n then s.countPulse.afterIncrement else s)

/-- The period measured by an index pulse, and the timer armed at it or disarmed (rule R110, first part). -/
def State.measurePeriod (s : State) : State :=
  match s.hdLastPulse with
  | none => s.cancelSector
  | some t =>
    let p := (s.now - t) / s.cfg.hdSectors
    let s' := { s with hdPeriod := some p }
    if p > 0 then s'.scheduleSector s.now p else s'.cancelSector

/-- `HD_INDEX` (rule R110); not accepted while a floppy is selected (rule R106). -/
def execHdIndex (s : State) : Host.Outcome State Fault Refusal :=
  .next (match s.kind with
    | .hd => { s.measurePeriod with hdLastPulse := some s.now, hdCounter := 0 }.afterIncrement
    | .fd => s)

/-- The hard-disk counter after a synthetic firing; the firing that reaches the last sector disarms the timer (rule R113). -/
def State.countSector (s : State) : State :=
  let s' := { s with hdCounter := (s.hdCounter + 1) % s.cfg.hdSectors }
  if s'.hdCounter = s.cfg.hdSectors - 1 then s'.cancelSector else s'

/-- `SECTOR_FIRE` (rule R113); not accepted while a floppy is selected (rule R106). -/
def execSectorFire (s : State) : Host.Outcome State Fault Refusal :=
  .next (match s.kind with
    | .hd => s.countSector.afterIncrement
    | .fd => s)

end Sys2Proof.Machine
end

