-- ==== Sys2Proof/Machine/Dispatch.lean ====
section
/-! DEFINITION. The dispatch of an operation to its meaning, one arm for each row of the opcode table. -/

namespace Sys2Proof.Machine

def exec (i : Instr) (s : State) : Host.Outcome State Fault Refusal :=
  match i with
  | .wrControl0 data => Sys2Proof.Machine.execWrControl0 data s
  | .wrControl1 data => Sys2Proof.Machine.execWrControl1 data s
  | .rdStatus0 peek => Sys2Proof.Machine.execRdStatus0 peek s
  | .rdStatus1 peek => Sys2Proof.Machine.execRdStatus1 peek s
  | .wrStart data => Sys2Proof.Machine.execWrStart data s
  | .wrData data => Sys2Proof.Machine.execWrData data s
  | .wrReset data => Sys2Proof.Machine.execWrReset data s
  | .rdData peek => Sys2Proof.Machine.execRdData peek s
  | .rdReset peek => Sys2Proof.Machine.execRdReset peek s
  | .invalid dir offset data peek => Sys2Proof.Machine.execInvalid dir offset data peek s
  | .fdPulse n => Sys2Proof.Machine.execFdPulse n s
  | .hdIndex => Sys2Proof.Machine.execHdIndex s
  | .sectorFire => Sys2Proof.Machine.execSectorFire s
  | .byteFire => Sys2Proof.Machine.execByteFire s
  | .motorFire => Sys2Proof.Machine.execMotorFire s
  | .deviceReset => Sys2Proof.Machine.execDeviceReset s
  | .mfmEncode d p => Sys2Proof.Machine.execMfmEncode d p s
  | .mfmDecode c => Sys2Proof.Machine.execMfmDecode c s
  | .pllNextBit deadline => Sys2Proof.Machine.execPllNextBit deadline s
  | .pllSetClock h => Sys2Proof.Machine.execPllSetClock h s
  | .pllResetForRead t => Sys2Proof.Machine.execPllResetForRead t s
  | .hdNextBit => Sys2Proof.Machine.execHdNextBit s
  | .nextCodeBit deadline => Sys2Proof.Machine.execNextCodeBit deadline s
  | .readByteFire k => Sys2Proof.Machine.execReadByteFire k s
  | .writeByteFire k => Sys2Proof.Machine.execWriteByteFire k s
  | .emitFlux t c => Sys2Proof.Machine.execEmitFlux t c s
  | .emitCode t c => Sys2Proof.Machine.execEmitCode t c s

end Sys2Proof.Machine
end

