-- ==== Sys2Proof/Machine/Scheduler.lean ====
section
/-! DEFINITION. The order of events (rule R60 to rule R62, rule R182): which pending event comes next, and the state in
which its operation runs. The spec has no fetch (rule R63); taking the next event stands where other machines fetch.

Every pending event has a time and a rank among the events of that time: `MOTOR` 1, a floppy or index pulse 3, `SECTOR` 5,
`BYTE` 7 (rule R61). A host access or a device reset has the rank its agenda entry gives it, any number, so that it may come
at any point between two callbacks (rule R62): 0 before `MOTOR`, 2 between `MOTOR` and the pulses, and so on. Of events with
the same time and rank the first listed comes first. DESIGN CHOICE, safe (log entry 3). -/

namespace Sys2Proof.Machine

/-- The configurations that have a run: `PORT_MAP` as rule R67 asks (item I8) and of a size that rule R69 allows, and a buffer,
sector counts and a hard-disk half-cell that are not zero. DEDUCED, safe (log entry 8). Rule R11 holds of every `HeadCount`. -/
def configOk (c : Params) : Bool :=
  c.portMap.ok && c.portMap.sizeOk && decide (0 < c.bufLen) && decide (0 < c.fdSectors) && decide (0 < c.hdSectors) &&
  decide (0 < c.hdHalfCell)

/-- The rank of an event among the events of its time; none for an operation that is no event of rule R61. -/
def eventRank : Instr → Option Nat
  | .wrControl0 _ => none
  | .wrControl1 _ => none
  | .rdStatus0 _ => none
  | .rdStatus1 _ => none
  | .wrStart _ => none
  | .wrData _ => none
  | .wrReset _ => none
  | .rdData _ => none
  | .rdReset _ => none
  | .invalid _ _ _ _ => none
  | .fdPulse _ => some 3
  | .hdIndex => some 3
  | .sectorFire => some 5
  | .byteFire => some 7
  | .motorFire => some 1
  | .deviceReset => none
  | .mfmEncode _ _ => none
  | .mfmDecode _ => none
  | .pllNextBit _ => none
  | .pllSetClock _ => none
  | .pllResetForRead _ => none
  | .hdNextBit => none
  | .nextCodeBit _ => none
  | .readByteFire _ => none
  | .writeByteFire _ => none
  | .emitFlux _ _ => none
  | .emitCode _ _ => none

/-- The rank of an agenda entry: the event's own rank if it names one, else the rank it gives. -/
def stimulusRank (m : PortMap) (e : Stimulus) : Nat :=
  match decode m e.word with
  | .ok i => (eventRank i).getD e.rank
  | .error _ => e.rank

/-- Where a pending event comes from. -/
inductive Source where
  | motor
  | sector
  | byte
  /-- The agenda entry at this place, with its word. -/
  | stimulus (index : Nat) (word : Nat)
  deriving DecidableEq, Repr

/-- A pending event. -/
structure Pending where
  time : Nat
  rank : Nat
  source : Source
  deriving DecidableEq, Repr

/-- The event comes strictly before the other: earlier, or at the same time with a lower rank (rule R60, rule R61). -/
def Pending.before (a b : Pending) : Bool :=
  decide (a.time < b.time) || (decide (a.time = b.time) && decide (a.rank < b.rank))

/-- The agenda's entries as pending events, `index` being the place of the first. -/
def pendingStimuli (m : PortMap) : Nat → List Stimulus → List Pending
  | _, [] => []
  | index, e :: rest =>
    { time := e.time, rank := stimulusRank m e, source := .stimulus index e.word } :: pendingStimuli m (index + 1) rest

/-- A timer's pending firing. -/
def pendingTimer (rank : Nat) (source : Source) : Option Nat → List Pending
  | none => []
  | some t => [{ time := t, rank := rank, source := source }]

/-- Every pending event: the timers' firings and the agenda's entries. -/
def State.pending (s : State) : List Pending :=
  pendingTimer 1 .motor s.motor ++ pendingTimer 5 .sector (s.sector.map Periodic.next) ++ pendingTimer 7 .byte s.byte ++
  pendingStimuli s.cfg.portMap 0 s.agenda

/-- The first of the least events. -/
def leastPending (p : Pending) : List Pending → Pending
  | [] => p
  | q :: rest => leastPending (if q.before p then q else p) rest

/-- What the scheduler hands to the block. -/
inductive Fetched where
  /-- No event is pending: the block waits (rule R198). -/
  | waits
  /-- The operation, and the state in which it runs. -/
  | runs (i : Instr) (s : State)
  /-- The agenda's word names no operation. -/
  | unreadable (e : DecodeError)
  deriving DecidableEq, Repr

/-- The scheduler's time moves on to an event's time; an event whose time has passed comes at once. -/
def State.advanceTo (s : State) (t : Nat) : State := { s with now := max s.now t }

/-- The entry at a place leaves the agenda. -/
def State.dropStimulus (s : State) (index : Nat) : State := { s with agenda := s.agenda.eraseIdx index }

/-- Hand an event to the block: a one-shot timer is no longer pending when its callback runs, the periodic timer is pending
again one period later, an agenda entry is used up (rule R16, rule R182). -/
def State.take (s : State) (p : Pending) : Fetched :=
  match p.source with
  | .motor => .runs .motorFire (s.advanceTo p.time).cancelMotor
  | .sector => .runs .sectorFire (s.advanceTo p.time).repeatSector
  | .byte => .runs .byteFire (s.advanceTo p.time).cancelByte
  | .stimulus index word =>
    match decode s.cfg.portMap word with
    | .ok i => .runs i ((s.advanceTo p.time).dropStimulus index)
    | .error e => .unreadable e

/-- The next event (rule R60). -/
def State.fetch (s : State) : Fetched :=
  match s.pending with
  | [] => .waits
  | p :: rest => s.take (leastPending p rest)

/-- The word of an instruction of `nbits` bits, put at the head of the agenda with the least time and rank, under `PM_TEST`,
the named configuration that numbers the table's port operations (rule R69). -/
def State.placeWord (s : State) (nbits w : Nat) : State :=
  { s with
    cfg := { s.cfg with portMap := PortMap.pmTest },
    agenda := { time := 0, rank := 0, word := w % 2 ^ nbits } :: s.agenda }

end Sys2Proof.Machine
end

