-- ==== Sys2Proof/Machine/Step.lean ====
section
/-! DEFINITION. One step of the machine: the next event's operation, executed. -/

namespace Sys2Proof.Machine

/-- One step: a configuration that has no run is refused (rule R180); when no event is pending the block waits
(rule R198); else the operation of the next event runs (rule R58, rule R60). -/
def step (s : State) : Host.Outcome State Fault Refusal :=
  if configOk s.cfg then
    match s.fetch with
    | .waits => .next s
    | .runs i s' => exec i s'
    | .unreadable e => .refused (.unreadableWord e)
  else .refused .badConfiguration

/-- The state in which the next step runs the operation that the table's word names (log entry 2). -/
def State.withFetchWord (s : State) (nbits w : Nat) : State := s.placeWord nbits w

end Sys2Proof.Machine
end

