-- ==== Sys2Proof/Safety.lean ====
section
/-! DEFINITION. What counts as a safe state: the invariants of the record `S` that the spec states or that follow from its
rules, and what the model asks of the outside world's agenda. -/

namespace Sys2Proof.Machine

/-- The configuration has a run (rule R180), and the buffer, the cursor, the counters and the transfer cursor stay in their
ranges (rule R20, rule R21, rule R33, rule R34, rule R36). -/
structure State.InRange (s : State) : Prop where
  config : configOk s.cfg = true
  buffer : s.bufferOk = true
  cursor : s.cursor < s.cfg.bufLen
  fdCounter : s.fdCounter < s.cfg.fdSectors
  hdCounter : s.hdCounter < s.cfg.hdSectors
  pendingCount : s.pendingCount ≤ 16

/-- `BYTE` is armed only during an operation (rule R155); `SECTOR` only while the hard disk is selected (rule R31, rule R202)
and with the period last computed, which is not 0 (rule R31, rule R110). -/
structure State.TimersArmed (s : State) : Prop where
  byte : s.byte ≠ none → s.busy = true
  sectorKind : s.sector ≠ none → s.kind = .hd
  sectorPeriod : ∀ p, s.sector = some p → s.hdPeriod = some p.period ∧ 0 < p.period

/-- No timer's firing and no pulse's time is on the wrong side of the present (rule R60). -/
structure State.OnTime (s : State) : Prop where
  motor : ∀ t, s.motor = some t → s.now ≤ t
  sector : ∀ p, s.sector = some p → s.now ≤ p.next
  byte : ∀ t, s.byte = some t → s.now ≤ t
  fdLastPulse : ∀ t, s.fdLastPulse = some t → t ≤ s.now
  hdLastPulse : ∀ t, s.hdLastPulse = some t → t ≤ s.now

/-- The agenda holds only operations that an agent outside the block performs (rule R7). -/
def State.AgendaExternal (s : State) : Prop :=
  ∀ e ∈ s.agenda, ∃ i, decode s.cfg.portMap e.word = .ok i ∧ i.external = true

/-- The invariant of every run. -/
structure State.Inv (s : State) : Prop where
  inRange : s.InRange
  timersArmed : s.TimersArmed
  onTime : s.OnTime
  agendaExternal : s.AgendaExternal

/-! ### The terms the statements use -/

/-- The code bits of a code in the order in which they stand on the media: bit 15 first (rule R55). -/
def bitsOfCode (c : Code) : List Bool := (List.range 16).map fun i => c.getLsbD (15 - i)

/-- The 16-bit register after a list of code bits has been shifted into it, the newest at bit 0 (rule R119, rule R157). -/
def codeOfBits (bits : List Bool) : Code := bits.foldl shiftInBit 0

/-- The code bits that are pending, oldest first: the low `S.pendingCount` bits of `S.pendingBits` (rule R157). -/
def State.pendingCodeBits (s : State) : List Bool := (bitsOfCode s.pendingBits).drop (16 - s.pendingCount)

/-- The code bit a call was answered with; none for a call that asks for no code bit or was answered with none (rule R98, rule
R101). -/
def Call.codeBit? : Call → Option Bool
  | .pllNextBit _ _ _ a => a.map Prod.fst
  | .hdReadBit _ b => some b
  | _ => none

/-- The code bits that a list of calls, newest first, was answered with, oldest first. -/
def codeBitsOf (calls : List Call) : List Bool := calls.reverse.filterMap Call.codeBit?

/-- The state after a list of operations, performed in order at one time; none if one of them does not complete. -/
def performAll : State → List Instr → Option State
  | s, [] => some s
  | s, i :: rest =>
    match exec i s with
    | .next t => performAll t rest
    | .fault _ => none
    | .refused _ => none

/-- The bytes that `n` reads of the data port return, and the state after them; none if a read returns no byte. -/
def readBytes : Nat → State → Option (List Byte × State)
  | 0, s => some ([], s)
  | n + 1, s =>
    match exec (.rdData false) s with
    | .next t =>
      match t.result, readBytes n t with
      | .byte v, some (vs, u) => some (v :: vs, u)
      | _, _ => none
    | .fault _ => none
    | .refused _ => none

/-- The state after a run of pulses of one floppy, each the given time after the one before. -/
def pulseRun (n : Fin 4) : List Nat → State → Option State
  | [], s => some s
  | gap :: rest, s =>
    match exec (.fdPulse n) { s with now := s.now + gap } with
    | .next t => pulseRun n rest t
    | .fault _ => none
    | .refused _ => none

/-- The state after a number of steps of the machine; none if one of them stops. -/
def stepsFrom : Nat → State → Option State
  | 0, s => some s
  | n + 1, s =>
    match step s with
    | .next t => stepsFrom n t
    | .fault _ => none
    | .refused _ => none

/-- The call with which the write path emits a code (rule R165, rule R166). -/
def State.emissionCall (s : State) (t : Nat) (c : Code) : Call :=
  match s.kind with
  | .fd => s.fluxCall t c
  | .hd => s.codeCall t c

end Sys2Proof.Machine
end

