-- ==== Sys2Proof/Certificates/Slice0/Obligations.lean ====
section
/-! DEFINITION. The statements for the provers. Each names the rule of spec/ it formalises; a statement about every state holds
in states that no run reaches too. -/

open Sys2Proof Sys2Proof.Machine

/-! ### Runs -/

/-- The machine right after power-on (rule R195, rule R196) is in the invariant of Safety.lean. The values of the model's own
fields (log entry 11) do not enter it. -/
def Obligations.PowerOnStateIsInInvariant : Prop := State.reset.Inv

/-- Every step keeps the invariant: the configuration, the ranges of the cursor, the counters and the pending count (rule R21,
rule R33, rule R34, rule R36), the buffer's form (rule R20), `BYTE` armed only while busy (rule R155), `SECTOR` armed only
with the hard disk selected and with the period last computed (rule R31), no timer and no pulse on the wrong side of the
present (rule R60), and an agenda of outside operations only (rule R7; the agenda is the model's, log entry 1). -/
def Obligations.EveryStepKeepsInvariant : Prop :=
  ∀ s t : State, s.Inv → step s = .next t → t.Inv

/-- In the invariant no step stops: "The block raises no exception, trap or error code" (rule R175). What the invariant asks of
the configuration and of the agenda is the model's, log entries 1, 8 and 17. -/
def Obligations.NoStepStopsInInvariant : Prop :=
  ∀ s : State, s.Inv → ∃ t, step s = .next t

/-- A step never changes the configuration (rule R39) and never moves the time back (rule R15, rule R60). -/
def Obligations.StepKeepsConfigurationAndTimeOrder : Prop :=
  ∀ s t : State, step s = .next t → t.cfg = s.cfg ∧ s.now ≤ t.now

/-- No pending event is passed over: when an operation is taken, the time has not moved past the time of any pending event
(rule R60). -/
def Obligations.NoPendingEventIsPassedOver : Prop :=
  ∀ (s s' : State) (i : Instr), s.fetch = .runs i s' → ∀ p ∈ s.pending, s'.now ≤ max s.now p.time

/-- The order of the events of one time `t`: `MOTOR`, then a drive's pulse, then `SECTOR`, then `BYTE` (rule R61), and a host
access before all of them or after all of them as its rank says (rule R62). Each clause says which of the events due at
`t` the step runs, and in which state. The ranks are the model's, log entry 3. -/
def Obligations.SameTimeEventsRunInOrder : Prop :=
  ∀ (s : State) (t : Nat), configOk s.cfg = true →
    (s.motor = some t → (∀ p, s.sector = some p → t ≤ p.next) → (∀ b, s.byte = some b → t ≤ b) →
      (∀ e ∈ s.agenda, t < e.time ∨ (t = e.time ∧ 1 ≤ stimulusRank s.cfg.portMap e)) →
      step s = exec .motorFire { s with motor := none, now := max s.now t }) ∧
    (∀ (e : Stimulus) (i : Instr), s.agenda = [e] → e.time = t → decode s.cfg.portMap e.word = .ok i →
      (i = .hdIndex ∨ ∃ n, i = .fdPulse n) →
      (∀ m, s.motor = some m → t < m) → (∀ p, s.sector = some p → t ≤ p.next) → (∀ b, s.byte = some b → t ≤ b) →
      step s = exec i { s with agenda := [], now := max s.now t }) ∧
    (∀ p, s.sector = some { next := t, period := p } → (∀ m, s.motor = some m → t < m) →
      (∀ b, s.byte = some b → t ≤ b) → (∀ e ∈ s.agenda, t < e.time) →
      step s = exec .sectorFire { s with sector := some { next := t + p, period := p }, now := max s.now t }) ∧
    (s.byte = some t → (∀ m, s.motor = some m → t < m) → (∀ p, s.sector = some p → t < p.next) →
      (∀ e ∈ s.agenda, t < e.time) →
      step s = exec .byteFire { s with byte := none, now := max s.now t }) ∧
    (∀ (e : Stimulus) (i : Instr), s.agenda = [e] → e.time = t → decode s.cfg.portMap e.word = .ok i →
      eventRank i = none →
      (e.rank = 0 → (∀ m, s.motor = some m → t ≤ m) → (∀ p, s.sector = some p → t ≤ p.next) →
        (∀ b, s.byte = some b → t ≤ b) → step s = exec i { s with agenda := [], now := max s.now t }) ∧
      (8 ≤ e.rank → s.byte = some t → s.motor = none → s.sector = none →
        step s = exec .byteFire { s with byte := none, now := max s.now t }))

/-- A step runs the decoded operation: when the first entry of the agenda decodes to an operation and comes strictly before
every timer's firing and not after any other entry, the step is that operation, in the state with the entry used up and
the time moved on to the entry's. The agenda is the model's, log entry 1. -/
def Obligations.StepRunsTheDecodedOperation : Prop :=
  ∀ (s : State) (e : Stimulus) (rest : List Stimulus) (i : Instr), configOk s.cfg = true → s.agenda = e :: rest →
    decode s.cfg.portMap e.word = .ok i →
    (∀ m, s.motor = some m → e.time < m) → (∀ p, s.sector = some p → e.time < p.next) →
    (∀ b, s.byte = some b → e.time < b) →
    (∀ e' ∈ rest, e.time < e'.time ∨
      (e.time = e'.time ∧ stimulusRank s.cfg.portMap e ≤ stimulusRank s.cfg.portMap e')) →
    step s = exec i { s with agenda := rest, now := max s.now e.time }

/-- A word placed by `State.withFetchWord` is what the next step runs, under the port map `PM_TEST` that numbers the table's port
operations (log entry 2), when no other event is due at time 0. -/
def Obligations.PlacedWordRunsNext : Prop :=
  ∀ (s : State) (nbits w : Nat) (i : Instr), decodeTableWord nbits w = some i →
    configOk { s.cfg with portMap := PortMap.pmTest } = true →
    (∀ m, s.motor = some m → 0 < m) → (∀ p, s.sector = some p → 0 < p.next) → (∀ b, s.byte = some b → 0 < b) →
    (∀ e ∈ s.agenda, 0 < e.time) →
    step (s.withFetchWord nbits w) = exec i { s with cfg := { s.cfg with portMap := PortMap.pmTest } }

/-- With nothing pending the block waits (rule R198); a configuration that rule R67, rule R69 or log entry 8 refuses has no
run (rule R180): of the port maps with more than four offsets only the named one has a run (log entry 7);
and a head count is exactly a power of two between 1 and 8 (rule R11). -/
def Obligations.StepWaitsOrRefuses : Prop :=
  (∀ s : State, configOk s.cfg = true → s.motor = none → s.sector = none → s.byte = none → s.agenda = [] →
    step s = .next s) ∧
  (∀ s : State, step s = .refused .badConfiguration ↔
    ¬ ((∀ o ∈ s.cfg.portMap.reads, o.dir? ≠ some .write) ∧ (∀ o ∈ s.cfg.portMap.writes, o.dir? ≠ some .read) ∧
       (s.cfg.portMap.reads.filter (· ≠ .invalid)).Nodup ∧ (s.cfg.portMap.writes.filter (· ≠ .invalid)).Nodup ∧
       ((s.cfg.portMap.reads.length ≤ 4 ∧ s.cfg.portMap.writes.length ≤ 4) ∨ s.cfg.portMap = PortMap.pmTest) ∧
       0 < s.cfg.bufLen ∧ 0 < s.cfg.fdSectors ∧ 0 < s.cfg.hdSectors ∧ 0 < s.cfg.hdHalfCell)) ∧
  (∀ n : Nat, ((∃ h, HeadCount.ofNat? n = some h) ↔ ∃ k, k ≤ 3 ∧ n = 2 ^ k) ∧
    ∀ h, HeadCount.ofNat? n = some h → h.toNat = n)

/-! ### Words -/

/-- Decode and encode agree: the word of every well-formed operation, with every operand, decodes to it. The layout of the word
is the model's, log entry 1. -/
def Obligations.EncodedOperationDecodesToItself : Prop :=
  ∀ (m : PortMap) (i : Instr), i.wellFormed m = true → ∃ w, encode m i = some w ∧ decode m w = .ok i

/-- A word that decodes names a well-formed operation, and is the only word of that operation, under a port map that rule R67
admits. The layout of the word is the model's, log entry 1. -/
def Obligations.DecodedWordIsTheOperationsWord : Prop :=
  ∀ (m : PortMap) (w : Nat) (i : Instr), m.ok = true → decode m w = .ok i → i.wellFormed m = true ∧ encode m i = some w

/-- A map of four offsets leaves at least one of the nine operations without a slot, and no word names an operation left out
(rule R67, rule R68). -/
def Obligations.FourOffsetMapLeavesAnOperationOut : Prop :=
  ∀ m : PortMap, m.ok = true → m.reads.length ≤ 4 → m.writes.length ≤ 4 →
    m.unreachable ≠ [] ∧
    (∀ data, .wrControl0 ∈ m.unreachable → ∀ w, decode m w ≠ .ok (.wrControl0 data)) ∧
    (∀ data, .wrControl1 ∈ m.unreachable → ∀ w, decode m w ≠ .ok (.wrControl1 data)) ∧
    (∀ data, .wrStart ∈ m.unreachable → ∀ w, decode m w ≠ .ok (.wrStart data)) ∧
    (∀ data, .wrData ∈ m.unreachable → ∀ w, decode m w ≠ .ok (.wrData data)) ∧
    (∀ data, .wrReset ∈ m.unreachable → ∀ w, decode m w ≠ .ok (.wrReset data)) ∧
    (∀ peek, .rdStatus0 ∈ m.unreachable → ∀ w, decode m w ≠ .ok (.rdStatus0 peek)) ∧
    (∀ peek, .rdStatus1 ∈ m.unreachable → ∀ w, decode m w ≠ .ok (.rdStatus1 peek)) ∧
    (∀ peek, .rdData ∈ m.unreachable → ∀ w, decode m w ≠ .ok (.rdData peek)) ∧
    (∀ peek, .rdReset ∈ m.unreachable → ∀ w, decode m w ≠ .ok (.rdReset peek))

/-- A few words, written out under `PM_TEST`, whose slots 95_test_vectors.md gives (rule R67, rule R69): `W 1 23`, `W 3 00`,
`R 1`, `R 4`, `FD_PULSE(2)`, `MFM_ENCODE(4E, 80)`. The layout of the word is the model's, log entry 1. -/
def Obligations.SampleWordsDecode : Prop :=
  decode PortMap.pmTest 0x012302 = .ok (.wrControl1 0x23) ∧
  decode PortMap.pmTest 0x030002 = .ok (.wrStart 0x00) ∧
  decode PortMap.pmTest 0x010000 = .ok (.rdStatus1 false) ∧
  decode PortMap.pmTest 0x040000 = .ok (.invalid .read 4 0 false) ∧
  decode PortMap.pmTest 0x0210 = .ok (.fdPulse 2) ∧
  decode PortMap.pmTest 0x804E20 = .ok (.mfmEncode 0x4E 0x80)

/-! ### The codec -/

/-- `MFM_ENCODE(d, p)` returns the code with `c[2i] = d[i]` and `c[2i+1] = ~(d[i] | d[i+1])`, with `p[7]` above `d[7]`, and
changes nothing else (rule R85). -/
def Obligations.EncodeReturnsDataAndClockBits : Prop :=
  ∀ (d p : Byte) (s : State), ∃ c : Code, exec (.mfmEncode d p) s = .next { s with result := .code c } ∧
    (∀ i < 8, c.getLsbD (2 * i) = d.getLsbD i) ∧
    (∀ i < 7, c.getLsbD (2 * i + 1) = !(d.getLsbD i || d.getLsbD (i + 1))) ∧
    c.getLsbD 15 = !(d.getLsbD 7 || p.getLsbD 7)

/-- `MFM_DECODE(c)` returns `d[i] = c[2i]` for every 16-bit value, whatever its clock bits are, and changes nothing else (rule
R86). -/
def Obligations.DecodeReturnsDataBits : Prop :=
  ∀ (c : Code) (s : State), ∃ d : Byte, exec (.mfmDecode c) s = .next { s with result := .byte d } ∧
    ∀ i < 8, d.getLsbD i = c.getLsbD (2 * i)

/-- "`decode(encode(b, p)) == b` for all byte values `b` and `p`" (rule R87). -/
def Obligations.DecodeUndoesEncode : Prop :=
  ∀ b p : Byte, mfmDecode (mfmEncode b p) = b

/-- No code has two adjacent 1 bits within its own 16 bits, and only the top bit of the context is read (rule R85, its corner
cases). -/
def Obligations.CodesHaveNoAdjacentOnes : Prop :=
  ∀ d p : Byte, (∀ i < 15, ¬ ((mfmEncode d p).getLsbD i = true ∧ (mfmEncode d p).getLsbD (i + 1) = true)) ∧
    mfmEncode d p = mfmEncode d (p &&& 0x80)

/-- `MFM_ENCODE(MFM_DECODE(c), p) = c` exactly when `c` is a code that the encoder produces with context `p`, and two codes with
equal data bits and equal context bit are equal (rule R88). -/
def Obligations.ReencodingRecoversExactlyTheCodes : Prop :=
  (∀ (c : Code) (p : Byte), mfmEncode (mfmDecode c) p = c ↔ ∃ d, c = mfmEncode d p) ∧
  (∀ d d' p p' : Byte, mfmDecode (mfmEncode d p) = mfmDecode (mfmEncode d' p') → p.getLsbD 7 = p'.getLsbD 7 →
    mfmEncode d p = mfmEncode d' p')

/-! ### The host ports -/

/-- Busy gating (rule R131): while busy every write has no effect, the data and reset reads return `BUSY_VALUE` with no effect,
and the two status reads do what they do when not busy, the busy bit apart. -/
def Obligations.BusyGatesThePorts : Prop :=
  ∀ s : State, s.busy = true →
    (∀ data, exec (.wrControl0 data) s = .next s ∧ exec (.wrControl1 data) s = .next s ∧
      exec (.wrStart data) s = .next s ∧ exec (.wrData data) s = .next s ∧ exec (.wrReset data) s = .next s) ∧
    (∀ peek, exec (.rdData peek) s = .next { s with result := .byte s.cfg.busyValue } ∧
      exec (.rdReset peek) s = .next { s with result := .byte s.cfg.busyValue }) ∧
    (∀ peek, ∃ t, exec (.rdStatus0 peek) { s with busy := false } = .next t ∧
      exec (.rdStatus0 peek) s = .next { t with busy := true }) ∧
    (∀ peek, ∃ v w : Byte, exec (.rdStatus1 peek) { s with busy := false } = .next { s with busy := false, result := .byte v } ∧
      exec (.rdStatus1 peek) s = .next { s with result := .byte w } ∧
      (∀ i < 8, i ≠ 1 → w.getLsbD i = v.getLsbD i) ∧ v.getLsbD 1 = false ∧ w.getLsbD 1 = true)

/-- `WR_CONTROL0 data` when not busy (rule R133): the drive, head and reduced-write-current fields are stored, `MOTOR` is armed
for `now + MOTOR_TIME`, every attached floppy's motor is turned on, the head, step and direction lines go to the selected
drive only (rule R134), and `SECTOR` is cancelled exactly when a floppy is then selected (rule R135). Nothing else
changes. -/
def Obligations.WriteControl0SelectsAndForwards : Prop :=
  ∀ (data : Byte) (s : State), s.busy = false → ∃ t, exec (.wrControl0 data) s = .next t ∧
    t = { s with
      cmd := { s.cmd with
        selectedDrive := Fin.ofNat 4 data.toNat,
        selectedHead := BitVec.ofNat 3 (data.toNat / 4),
        reducedWriteCurrent := data.getLsbD 7 },
      motor := some (s.now + s.cfg.motorTime),
      sector := t.sector,
      calls := t.calls } ∧
    t.sector = (if s.cfg.hdAttached = true ∧ data.toNat % 4 = 0 then s.sector else none) ∧
    t.calls =
      (if s.cfg.hdAttached = true ∧ data.toNat % 4 = 0 then
        [.hdSetDir (data.getLsbD 6), .hdSetStep (data.getLsbD 5),
          .hdSetHead (BitVec.ofNat 3 (data.toNat / 4) &&& BitVec.ofNat 3 (s.cfg.hdHeads.toNat - 1))]
      else if s.cfg.attached (Fin.ofNat 4 data.toNat) = true then
        [.fdSetDir (Fin.ofNat 4 data.toNat) (data.getLsbD 6), .fdSetStep (Fin.ofNat 4 data.toNat) (data.getLsbD 5),
          .fdSetHead (Fin.ofNat 4 data.toNat) (BitVec.ofNat 3 (data.toNat / 4))]
      else []) ++
      (((List.finRange 4).filter fun n => s.cfg.attached n).map fun n => Call.fdSetMotor n true).reverse ++ s.calls

/-- `WR_CONTROL1 data` when not busy stores the target sector, the read mode, the ECC request and the write precompensation, and
changes nothing else (rule R137). -/
def Obligations.WriteControl1SetsTheOperation : Prop :=
  ∀ (data : Byte) (s : State), s.busy = false →
    exec (.wrControl1 data) s = .next { s with
      cmd := { s.cmd with
        targetSector := BitVec.ofNat 5 data.toNat,
        readMode := data.getLsbD 5,
        eccRequested := data.getLsbD 6,
        writePrecompensation := data.getLsbD 7 } }

/-- `RD_STATUS0` (rule R139): an attached floppy shows its write-protect signal at bit 0 and its track-zero signal at bit 2, an
absent one 0x00, the hard disk its ready, track-zero and seek-complete signals at bits 1, 2 and 4 and always 1 at bit 5.
The signals are the drive's answers at the time of the read; nothing but the answers, the calls and the result
changes. -/
def Obligations.ReadStatus0ShowsDriveSignals : Prop :=
  ∀ (peek : Bool) (s : State),
    (s.kind = .fd → s.cfg.attached s.cmd.selectedDrive = true → ∃ v : Byte,
      exec (.rdStatus0 peek) s = .next { s.drawSignal.2.drawSignal.2 with
        calls := .fdTk0 s.cmd.selectedDrive s.drawSignal.2.drawSignal.1 :: .fdWp s.cmd.selectedDrive s.drawSignal.1 :: s.calls,
        result := .byte v } ∧
      ∀ i < 8, v.getLsbD i =
        if i = 0 then s.drawSignal.1 else if i = 2 then s.drawSignal.2.drawSignal.1 else false) ∧
    (s.kind = .fd → s.cfg.attached s.cmd.selectedDrive = false →
      exec (.rdStatus0 peek) s = .next { s with result := .byte 0 }) ∧
    (s.kind = .hd → ∃ v : Byte,
      exec (.rdStatus0 peek) s = .next { s.drawSignal.2.drawSignal.2.drawSignal.2 with
        calls := .hdSeekComplete s.drawSignal.2.drawSignal.2.drawSignal.1 :: .hdTk0 s.drawSignal.2.drawSignal.1 ::
          .hdReady s.drawSignal.1 :: s.calls,
        result := .byte v } ∧
      ∀ i < 8, v.getLsbD i =
        if i = 1 then s.drawSignal.1 else if i = 2 then s.drawSignal.2.drawSignal.1
        else if i = 4 then s.drawSignal.2.drawSignal.2.drawSignal.1 else decide (i = 5))

/-- `RD_STATUS1` (rule R140): hard disk selected at bit 0, busy at bit 1, motor on at bit 2, the type bit at bit 3, 0 above; no
state changes. -/
def Obligations.ReadStatus1ShowsFlags : Prop :=
  ∀ (peek : Bool) (s : State), ∃ v : Byte, exec (.rdStatus1 peek) s = .next { s with result := .byte v } ∧
    ∀ i < 8, v.getLsbD i =
      if i = 0 then s.cfg.hdAttached && decide (s.cmd.selectedDrive = 0) else if i = 1 then s.busy
      else if i = 2 then s.motor.isSome else if i = 3 then s.cfg.hdTypeBit else false

/-- `WR_START` when not busy sets the busy flag and starts the idle count only if the motor timer is active, and changes nothing
else (rule R142). -/
def Obligations.WriteStartNeedsTheMotor : Prop :=
  ∀ (data : Byte) (s : State), s.busy = false →
    (s.motor ≠ none → exec (.wrStart data) s = .next { s with busy := true, idleCount := some 0 }) ∧
    (s.motor = none → exec (.wrStart data) s = .next s)

/-- `WR_DATA data` when not busy stores the byte at the cursor and advances the cursor; every other byte of the buffer reads as
before, and nothing else changes (rule R143). That the list of cells keeps its canonical form is a fact of the model's own
list (log entry 5), which no rule states. -/
def Obligations.WriteDataStoresAtCursor : Prop :=
  ∀ (data : Byte) (s : State), s.busy = false → ∃ t, exec (.wrData data) s = .next t ∧
    t = { s with buffer := t.buffer, cursor := (s.cursor + 1) % s.cfg.bufLen } ∧
    (∀ a, byteAt t.buffer a = if a = s.cursor % s.cfg.bufLen then data else byteAt s.buffer a) ∧
    (0 < s.cfg.bufLen → s.bufferOk = true → t.bufferOk = true)

/-- `WR_RESET` when not busy zeroes the cursor and changes nothing else (rule R144). -/
def Obligations.WriteResetZeroesCursor : Prop :=
  ∀ (data : Byte) (s : State), s.busy = false → exec (.wrReset data) s = .next { s with cursor := 0 }

/-- `RD_DATA` when not busy returns the byte at the cursor and advances the cursor, unless it is a peek; nothing else changes
(rule R145). -/
def Obligations.ReadDataReturnsByteAtCursor : Prop :=
  ∀ s : State, s.busy = false →
    exec (.rdData true) s = .next { s with result := .byte (byteAt s.buffer (s.cursor % s.cfg.bufLen)) } ∧
    exec (.rdData false) s = .next { s with
      result := .byte (byteAt s.buffer (s.cursor % s.cfg.bufLen)), cursor := (s.cursor + 1) % s.cfg.bufLen }

/-- `RD_RESET` when not busy returns `INVALID_VALUE` (rule R147), and an access to an `INVALID` slot, busy or not, returns it too
on a read and has no effect on a write (rule R148). -/
def Obligations.ResetReadAndInvalidSlotAreInert : Prop :=
  (∀ (peek : Bool) (s : State), s.busy = false →
    exec (.rdReset peek) s = .next { s with result := .byte s.cfg.invalidValue }) ∧
  (∀ (offset : Nat) (data : Byte) (peek : Bool) (s : State),
    exec (.invalid .read offset data peek) s = .next { s with result := .byte s.cfg.invalidValue } ∧
    exec (.invalid .write offset data peek) s = .next s)

/-- A peek read changes no state of the block, and of the reads only that of the data port has an effect without it (rule R146):
what changes is the returned value, and for a status read the drives' answers and the calls, which are the model's own
fields. -/
def Obligations.PeekReadsChangeNoState : Prop :=
  ∀ (i : Instr) (s : State),
    (i = .rdData true ∨ (∃ peek, i = .rdStatus0 peek) ∨ (∃ peek, i = .rdStatus1 peek) ∨ (∃ peek, i = .rdReset peek) ∨
      ∃ offset data peek, i = .invalid .read offset data peek) →
    ∃ t, exec i s = .next t ∧
      t = { s with signals := t.signals, drawn := t.drawn, calls := t.calls, result := t.result }

/-- The sequences `LOAD_BUF` and `READ_BUF` (rule R84): while not busy, at most `BUF_LEN` bytes written after a reset of the
cursor are read back in order after another. -/
def Obligations.LoadedBytesReadBackInOrder : Prop :=
  ∀ (bytes : List Byte) (s : State), s.busy = false → bytes.length ≤ s.cfg.bufLen →
    ∃ t u, performAll s (.wrReset 0 :: (bytes.map Instr.wrData ++ [.wrReset 0])) = some t ∧
      readBytes bytes.length t = some (bytes, u)

/-! ### The sector clock -/

/-- `FD_PULSE(n)` of the selected, attached floppy (rule R107): within the debounce window of the previous pulse the counter goes
to its maximum, else it increments modulo `FD_SECTORS`; the window restarts, and the increment acts on the operation
(rule R115 says how). -/
def Obligations.FloppyPulseCountsOrDebounces : Prop :=
  ∀ (n : Fin 4) (s : State), s.kind = .fd → n = s.cmd.selectedDrive → s.cfg.attached n = true →
    ∃ t : State, exec (.fdPulse n) s = .next t.afterIncrement ∧
      t = { s with fdCounter := t.fdCounter, fdLastPulse := some s.now } ∧
      ((∃ t0, s.fdLastPulse = some t0 ∧ s.now - t0 < s.cfg.fdDebounce) → t.fdCounter = s.cfg.fdSectors - 1) ∧
      ((∀ t0, s.fdLastPulse = some t0 → s.cfg.fdDebounce ≤ s.now - t0) →
        t.fdCounter = (s.fdCounter + 1) % s.cfg.fdSectors)

/-- `HD_INDEX` with the hard disk selected (rule R110): the period is the interval since the previous index pulse divided by
`HD_SECTORS`, `SECTOR` is armed at it, or cancelled if it is 0 or there was no previous pulse; the counter becomes 0, and
the increment acts on the operation. -/
def Obligations.HardDiskIndexMeasuresThePeriod : Prop :=
  ∀ s : State, s.kind = .hd → ∃ t : State, exec .hdIndex s = .next t.afterIncrement ∧
    t = { s with hdPeriod := t.hdPeriod, sector := t.sector, hdLastPulse := some s.now, hdCounter := 0 } ∧
    (s.hdLastPulse = none → t.sector = none ∧ t.hdPeriod = s.hdPeriod) ∧
    (∀ t0, s.hdLastPulse = some t0 →
      t.hdPeriod = some ((s.now - t0) / s.cfg.hdSectors) ∧
      t.sector = if 0 < (s.now - t0) / s.cfg.hdSectors then
          some { next := s.now + (s.now - t0) / s.cfg.hdSectors, period := (s.now - t0) / s.cfg.hdSectors }
        else none)

/-- `SECTOR_FIRE` with the hard disk selected (rule R113): the counter increments modulo `HD_SECTORS`, the firing that makes it
`HD_SECTORS` - 1 cancels `SECTOR`, and the increment acts on the operation. -/
def Obligations.SectorFireCountsAndDisarms : Prop :=
  ∀ s : State, s.kind = .hd →
    exec .sectorFire s = .next (State.afterIncrement { s with
      hdCounter := (s.hdCounter + 1) % s.cfg.hdSectors,
      sector := if (s.hdCounter + 1) % s.cfg.hdSectors = s.cfg.hdSectors - 1 then none else s.sector })

/-- "An event not accepted has no effect on any state, including the last-pulse timestamps" (rule R106). -/
def Obligations.UnselectedDriveEventsHaveNoEffect : Prop :=
  ∀ s : State,
    (∀ n, ¬ (s.kind = .fd ∧ n = s.cmd.selectedDrive ∧ s.cfg.attached n = true) → exec (.fdPulse n) s = .next s) ∧
    (s.kind = .fd → exec .hdIndex s = .next s ∧ exec .sectorFire s = .next s)

/-- What an increment does (rule R115): with a transfer active it completes the operation, whatever the counter; else at the
target it is a sector match; else it is an idle tick if `IDLE_RELEASE` is `oneRevolution`; else nothing. -/
def Obligations.IncrementCompletesBeforeItMatches : Prop :=
  ∀ s : State,
    (s.busy = true → s.byte ≠ none → s.afterIncrement = s.complete) ∧
    (s.busy = true → s.byte = none →
      (match s.kind with | .fd => s.fdCounter | .hd => s.hdCounter) = s.cmd.targetSector.toNat →
      s.afterIncrement = s.sectorMatch) ∧
    (s.busy = true → s.byte = none →
      (match s.kind with | .fd => s.fdCounter | .hd => s.hdCounter) ≠ s.cmd.targetSector.toNat →
      (s.cfg.idleRelease = .oneRevolution → s.afterIncrement = s.idleTick) ∧
      (s.cfg.idleRelease = .never → s.afterIncrement = s)) ∧
    (s.busy = false → s.afterIncrement = s)

/-- The forced completion (rule R121) clears the busy flag and cancels `BYTE`; for a hard-disk read with ECC requested it writes
0x00 at every index of `ECC_FIELD(S.cursor)` (rule R122), and it changes nothing else: every other byte reads as before. -/
def Obligations.ForcedCompletionReleasesBusy : Prop :=
  ∀ s : State, ∃ b, s.complete = { s with buffer := b, byte := none, busy := false } ∧
    ∀ a, byteAt b a =
      if (s.cmd.readMode = true ∧ s.kind = .hd ∧ s.cmd.eccRequested = true) ∧
          ∃ i ∈ s.cfg.eccField.getD s.cursor [], i % s.cfg.bufLen = a
      then 0 else byteAt s.buffer a

/-- A sector match resets the transfer cursor and the idle count (rule R116); in write mode it arms `BYTE` for the present (rule
R117), in read mode it starts a read (rule R118), in which `BYTE` is armed for the read position exactly when the search
succeeds. -/
def Obligations.SectorMatchStartsTheTransfer : Prop :=
  ∀ s : State,
    (s.cmd.readMode = false →
      s.sectorMatch = { s with idleCount := none, pendingBits := 0, pendingCount := 0, byte := some s.now }) ∧
    (s.cmd.readMode = true → ∀ (m u : State) (found : Bool),
      m = { s with
        idleCount := none, pendingBits := 0, pendingCount := 0, readPos := s.now,
        calls := (match s.kind with
          | .fd => [.pllResetForRead s.cmd.selectedDrive s.now, .pllSetClock s.cmd.selectedDrive s.cfg.fdHalfCell]
          | .hd => []) ++ s.calls } →
      m.syncSearch s.kind = (found, u) →
      s.sectorMatch = if found then { u with byte := some u.readPos } else u)

/-- The sync search finds the first place, at least 16 bits in and within the window, where the last 16 bits read are the drive
kind's pattern, `HD_SYNC` or `FD_SYNC`, and the transfer starts at the time at which the last of these bits is complete (rule
R118, rule R119); where there is none, no transfer starts (rule R120). On the hard disk every half-cell gives a bit, until the
whole window has been read; on a floppy every answer that the law of rule R98 admits gives a bit at the answer's time, until
a request is answered with none. The answers are held in State (log entry 4). -/
def Obligations.SyncSearchFindsTheFirstPattern : Prop :=
  (∀ s : State, s.kind = .hd → s.cmd.readMode = true → 0 < s.cfg.hdHalfCell →
    s.cfg.syncWindowBytes * s.cfg.codeBits ≤ s.hdBits.length →
    (∀ n, 16 ≤ n → n ≤ s.cfg.syncWindowBytes * s.cfg.codeBits → codeOfBits (s.hdBits.take n) = s.cfg.hdSync →
      (∀ k, 16 ≤ k → k < n → codeOfBits (s.hdBits.take k) ≠ s.cfg.hdSync) →
      ∃ cs, cs.length = n ∧ s.sectorMatch = { s with
        idleCount := none, pendingBits := 0, pendingCount := 0, byte := some (s.now + n * s.cfg.hdHalfCell),
        readPos := s.now + n * s.cfg.hdHalfCell, hdBits := s.hdBits.drop n, calls := cs ++ s.calls }) ∧
    ((∀ k, 16 ≤ k → k ≤ s.cfg.syncWindowBytes * s.cfg.codeBits → codeOfBits (s.hdBits.take k) ≠ s.cfg.hdSync) →
      ∃ cs, cs.length = s.cfg.syncWindowBytes * s.cfg.codeBits ∧ s.sectorMatch = { s with
        idleCount := none, pendingBits := 0, pendingCount := 0,
        readPos := s.now + s.cfg.syncWindowBytes * s.cfg.codeBits * s.cfg.hdHalfCell,
        hdBits := s.hdBits.drop (s.cfg.syncWindowBytes * s.cfg.codeBits), calls := cs ++ s.calls })) ∧
  (∀ (s : State) (bits : List (Bool × Nat)) (rest : List (Option (Bool × Nat))), s.kind = .fd → s.cmd.readMode = true →
    bits.Pairwise (fun a b => a.2 < b.2) →
    (∀ a ∈ bits, s.now < a.2 ∧ a.2 ≤ s.now + s.cfg.syncWindowBytes * (s.cfg.codeBits * s.cfg.fdHalfCell)) →
    (∀ b t, s.pllAnswers = (bits ++ [(b, t)]).map some ++ rest →
      (∀ a ∈ bits, a.2 < t) → s.now < t → t ≤ s.now + s.cfg.syncWindowBytes * (s.cfg.codeBits * s.cfg.fdHalfCell) →
      16 ≤ bits.length + 1 → codeOfBits (bits.map Prod.fst ++ [b]) = s.cfg.fdSync →
      (∀ k, 16 ≤ k → k ≤ bits.length → codeOfBits ((bits.map Prod.fst).take k) ≠ s.cfg.fdSync) →
      ∃ cs, codeBitsOf cs = bits.map Prod.fst ++ [b] ∧ s.sectorMatch = { s with
        idleCount := none, pendingBits := 0, pendingCount := 0, byte := some t, readPos := t, pllAnswers := rest,
        calls := cs ++ s.calls }) ∧
    (s.pllAnswers = bits.map some ++ none :: rest →
      (∀ k, 16 ≤ k → k ≤ bits.length → codeOfBits ((bits.map Prod.fst).take k) ≠ s.cfg.fdSync) →
      ∃ cs, codeBitsOf cs = bits.map Prod.fst ∧ s.sectorMatch = { s with
        idleCount := none, pendingBits := 0, pendingCount := 0,
        readPos := (bits.map Prod.snd).getLast?.getD s.now, pllAnswers := rest, calls := cs ++ s.calls }))

/-- A sync search asks for no bit beyond its window (rule R103, rule R119), and moves only the read position, never back and never
past the window, besides the answers and the calls. -/
def Obligations.SyncSearchStaysInItsWindow : Prop :=
  ∀ (s t : State) (k : Kind) (found : Bool), s.syncSearch k = (found, t) →
    ∃ cs, t = { s with
        readPos := t.readPos, pllAnswers := t.pllAnswers, hdBits := t.hdBits, drawn := t.drawn, calls := cs ++ s.calls } ∧
      s.readPos ≤ t.readPos ∧
      t.readPos ≤ max s.readPos (s.now + s.cfg.syncWindowBytes * (s.cfg.codeBits *
        match k with | .fd => s.cfg.fdHalfCell | .hd => s.cfg.hdHalfCell)) ∧
      ∀ c ∈ cs,
        (∃ n ref a, c = .pllNextBit n ref (s.now + s.cfg.syncWindowBytes * (s.cfg.codeBits *
          match k with | .fd => s.cfg.fdHalfCell | .hd => s.cfg.hdHalfCell)) a) ∨
        (∃ start b, c = .hdReadBit start b ∧ start + s.cfg.hdHalfCell ≤ s.now + s.cfg.syncWindowBytes *
          (s.cfg.codeBits * match k with | .fd => s.cfg.fdHalfCell | .hd => s.cfg.hdHalfCell))

/-- A failed sync search leaves the operation busy with no transfer and changes nothing else but what the search itself moved: the
silent non-completion (rule R120, rule R176). -/
def Obligations.FailedSyncLeavesTheOperationBusy : Prop :=
  ∀ s u : State, s.busy = true → s.byte = none → s.cmd.readMode = true →
    (match s.kind with | .fd => s.fdCounter | .hd => s.hdCounter) = s.cmd.targetSector.toNat →
    State.syncSearch (State.beginRead { s with idleCount := none, pendingBits := 0, pendingCount := 0 }) s.kind = (false, u) →
    s.afterIncrement = u ∧ u.busy = true ∧ u.byte = none ∧ u.hung = true ∧
    u = { s with
      idleCount := none, pendingBits := 0, pendingCount := 0, readPos := u.readPos, pllAnswers := u.pllAnswers,
      hdBits := u.hdBits, drawn := u.drawn, calls := u.calls }

/-- The idle tick (rule R124): an operation that has had no match counts the increment, and is released at `SECTORS(kind)` of
them; one that has had a match is left as it is. -/
def Obligations.IdleTickReleasesAfterOneRevolution : Prop :=
  ∀ s : State,
    (s.idleCount = none → s.idleTick = s) ∧
    (∀ n, s.idleCount = some n → s.idleTick = { s with
      idleCount := some (n + 1),
      busy := if (match s.kind with | .fd => s.cfg.fdSectors | .hd => s.cfg.hdSectors) ≤ n + 1 then false else s.busy })

/-- Retriggering (rule R108): in a run of pulses each closer than `FD_DEBOUNCE` to the one before, every pulse after the first
leaves the counter at its maximum, and the first pulse that comes at least `FD_DEBOUNCE` after its predecessor leaves
it. -/
def Obligations.ClosePulsesHoldTheCounterAtItsMaximum : Prop :=
  ∀ (n : Fin 4) (gaps : List Nat) (last : Nat) (s : State), s.busy = false → s.kind = .fd → n = s.cmd.selectedDrive →
    s.cfg.attached n = true → 0 < s.cfg.fdSectors → s.fdLastPulse = some s.now → gaps ≠ [] →
    (∀ g ∈ gaps, g < s.cfg.fdDebounce) → s.cfg.fdDebounce ≤ last →
    pulseRun n gaps s = some { s with
      now := s.now + gaps.sum, fdCounter := s.cfg.fdSectors - 1, fdLastPulse := some (s.now + gaps.sum) } ∧
    pulseRun n (gaps ++ [last]) s = some { s with
      now := s.now + gaps.sum + last, fdCounter := 0, fdLastPulse := some (s.now + gaps.sum + last) }

/-- The 32x multiplier (rule R110, rule R112, rule R113): after an index pulse that measures a period `P` greater than 0, with
nothing else pending, the machine's next `HD_SECTORS` - 1 steps are synthetic firings, the k-th at the pulse's time plus
`k * P` with the counter `k`, and then the timer is disarmed and the machine waits. -/
def Obligations.IndexPulseIsMultiplied : Prop :=
  ∀ (s : State) (t0 : Nat), configOk s.cfg = true → s.kind = .hd → s.busy = false → s.agenda = [] → s.motor = none →
    s.byte = none → 1 < s.cfg.hdSectors → s.hdLastPulse = some t0 → 0 < (s.now - t0) / s.cfg.hdSectors →
    ∃ s1, exec .hdIndex s = .next s1 ∧
      (∀ k < s.cfg.hdSectors, stepsFrom k s1 = some { s with
        now := s.now + k * ((s.now - t0) / s.cfg.hdSectors),
        hdPeriod := some ((s.now - t0) / s.cfg.hdSectors),
        hdLastPulse := some s.now,
        hdCounter := k,
        sector := if k = s.cfg.hdSectors - 1 then none else
          some { next := s.now + (k + 1) * ((s.now - t0) / s.cfg.hdSectors),
                 period := (s.now - t0) / s.cfg.hdSectors } }) ∧
      (∀ j, stepsFrom (s.cfg.hdSectors - 1 + j) s1 = stepsFrom (s.cfg.hdSectors - 1) s1)

/-! ### The byte-transfer engine -/

/-- `BYTE_FIRE` takes the read path or the write path of the selected drive kind, as the read mode says (rule R155). -/
def Obligations.ByteFireTakesThePathOfTheMode : Prop :=
  ∀ s : State,
    (s.cmd.readMode = true → ∃ t, exec .byteFire s = .next t ∧ exec (.readByteFire s.kind) s = .next t) ∧
    (s.cmd.readMode = false → ∃ t, exec .byteFire s = .next t ∧ exec (.writeByteFire s.kind) s = .next t)

/-- `writeByteFire(k)` (rule R162): a whole pending code is emitted at the present, in the drive kind's way; then the byte at the
cursor is encoded with the previous data byte, read from the pending bits (rule R164), as context, the cursor advances, 16
bits are pending, and `BYTE` is armed one byte time later. Nothing else changes. -/
def Obligations.WriteFiringEmitsAndEncodes : Prop :=
  ∀ (k : Kind) (s : State), exec (.writeByteFire k) s = .next { s with
    calls := (if s.pendingCount = 16 then
        match k with
        | .fd => [.fdWriteFlux s.cmd.selectedDrive s.now (s.now + 16 * s.cfg.fdHalfCell)
            (fluxTimes s.cfg.fdHalfCell s.now s.pendingBits)]
        | .hd => [.hdWriteCode s.now s.pendingBits s.cmd.writePrecompensation s.cmd.reducedWriteCurrent]
      else []) ++ s.calls,
    cursor := (s.cursor + 1) % s.cfg.bufLen,
    pendingBits := mfmEncode (byteAt s.buffer (s.cursor % s.cfg.bufLen)) (mfmDecode s.pendingBits),
    pendingCount := 16,
    byte := some (s.now + s.cfg.codeBits * match k with | .fd => s.cfg.fdHalfCell | .hd => s.cfg.hdHalfCell) }

/-- `readByteFire(k)` (rule R156): it completes with `BYTE` armed again, for the horizon one byte time away with fewer than 16
bits pending, or for the later time at which the accumulated byte ends. The read position never goes back and never passes
the horizon. The bits that were pending and the bits it was answered with are, in order, 16 for each stored byte and those
still pending (rule R157); all requests but at most one were answered. It stores `m` bytes, the i-th at `i` places after the
cursor: the decoded code of its 16 bits (rule R158), where no later byte of the same firing takes that place. A byte that
has ended is stored, one that has not ended is not. Every byte outside the `m` stored ones reads as before, and nothing else
changes. Where the hard disk's half-cell is 0 there is no run (log entry 8). The calls are the model's record (log entry
10). -/
def Obligations.ReadFiringStoresWholeBytesAndRearms : Prop :=
  ∀ (k : Kind) (s : State), s.pendingCount ≤ 16 → ∃ t m cs, exec (.readByteFire k) s = .next t ∧
    t = { s with
      buffer := t.buffer, cursor := t.cursor, byte := t.byte, pendingBits := t.pendingBits,
      pendingCount := t.pendingCount, readPos := t.readPos, pllAnswers := t.pllAnswers, hdBits := t.hdBits,
      drawn := t.drawn, calls := cs ++ s.calls } ∧
    ((t.byte = some (s.now + byteTime s.cfg k) ∧ (0 < s.cfg.hdHalfCell → t.pendingCount < 16)) ∨
      (t.byte = some t.readPos ∧ s.now < t.readPos ∧ t.pendingCount = 16)) ∧
    s.readPos ≤ t.readPos ∧ t.readPos ≤ max s.readPos (s.now + byteTime s.cfg k) ∧
    t.pendingCount ≤ 16 ∧ t.cursor % s.cfg.bufLen = (s.cursor + m) % s.cfg.bufLen ∧
    (s.pendingCodeBits ++ codeBitsOf cs).length = 16 * m + t.pendingCount ∧ cs.length ≤ (codeBitsOf cs).length + 1 ∧
    (∀ i < m, (∀ j < m, i < j → (s.cursor + j) % s.cfg.bufLen ≠ (s.cursor + i) % s.cfg.bufLen) →
      byteAt t.buffer ((s.cursor + i) % s.cfg.bufLen) =
        mfmDecode (codeOfBits (((s.pendingCodeBits ++ codeBitsOf cs).drop (16 * i)).take 16))) ∧
    t.pendingBits = (if m = 0 then (codeBitsOf cs).foldl shiftInBit s.pendingBits
      else codeOfBits ((s.pendingCodeBits ++ codeBitsOf cs).drop (16 * m))) ∧
    (s.pendingCount = 16 → s.readPos ≤ s.now → 0 < m) ∧ (s.now < s.readPos → m = 0) ∧
    (∀ a, (∀ i < m, a ≠ (s.cursor + i) % s.cfg.bufLen) → byteAt t.buffer a = byteAt s.buffer a)

/-- Suspension (rule R160): when fewer than 16 bits are pending and the next request is answered with none, the engine keeps its
partial bits and arms `BYTE` for the horizon. -/
def Obligations.UnansweredReadSuspends : Prop :=
  ∀ (k : Kind) (s u : State), s.pendingCount < 16 → s.nextCodeBit k (s.now + byteTime s.cfg k) = (none, u) →
    exec (.readByteFire k) s = .next { u with byte := some (s.now + byteTime s.cfg k) } ∧
    u = { s with pllAnswers := u.pllAnswers, hdBits := u.hdBits, drawn := u.drawn, calls := u.calls }

/-- A hard-disk read stores, in order, the decoded bytes of the codes on the disk, one byte time apart, whatever their clock bits
(rule R156 to rule R159, rule R169): with the codes' bits as the drive's answers, bit 15 first, and nothing but `BYTE`
pending at the read position, n + 1 steps store the first n codes. `CODE_BITS` is 16. -/
def Obligations.HardDiskReadStoresTheDecodedCodes : Prop :=
  ∀ (s : State) (t0 : Nat) (codes : List Code) (rest : List Bool), configOk s.cfg = true → s.kind = .hd →
    s.cmd.readMode = true → s.cfg.codeBits = 16 → s.agenda = [] → s.motor = none → s.sector = none →
    s.byte = some t0 → s.now ≤ t0 → s.readPos = t0 → s.pendingBits = 0 → s.pendingCount = 0 → s.cursor < s.cfg.bufLen →
    codes.length ≤ s.cfg.bufLen → s.hdBits = codes.flatMap bitsOfCode ++ rest → 16 ≤ rest.length →
    ∃ t, stepsFrom (codes.length + 1) s = some t ∧
      (∀ i (h : i < codes.length), byteAt t.buffer ((s.cursor + i) % s.cfg.bufLen) = mfmDecode codes[i]) ∧
      (∀ a, (∀ i < codes.length, a ≠ (s.cursor + i) % s.cfg.bufLen) → byteAt t.buffer a = byteAt s.buffer a) ∧
      t.cursor = (s.cursor + codes.length) % s.cfg.bufLen ∧
      t.now = t0 + codes.length * (16 * s.cfg.hdHalfCell) ∧
      t.byte = some (t0 + (codes.length + 1) * (16 * s.cfg.hdHalfCell))

/-- A write transfer (rule R162 to rule R164, rule R167, rule R169, rule R170): with nothing but `BYTE` pending at `t0` and nothing
in flight, the firings come one byte time apart, n + 1 of them encode n + 1 bytes of the buffer in cursor order, and n
codes have been emitted: the code emitted at the (i+1)-th byte time is that of the i-th byte. The buffer is not changed. -/
def Obligations.WriteTransferEmitsTheBufferInOrder : Prop :=
  ∀ (s : State) (t0 n : Nat), configOk s.cfg = true → s.cmd.readMode = false → s.agenda = [] → s.motor = none →
    s.sector = none → s.byte = some t0 → s.now ≤ t0 → s.pendingBits = 0 → s.pendingCount = 0 →
    ∃ t cs, stepsFrom (n + 1) s = some t ∧
      t = { s with
        now := t0 + n * byteTime s.cfg s.kind, byte := some (t0 + (n + 1) * byteTime s.cfg s.kind),
        cursor := (s.cursor + (n + 1)) % s.cfg.bufLen, pendingBits := t.pendingBits, pendingCount := 16,
        calls := cs ++ s.calls } ∧
      mfmDecode t.pendingBits = byteAt s.buffer ((s.cursor + n) % s.cfg.bufLen) ∧
      cs.length = n ∧
      ∀ i < n, ∃ c, cs.reverse[i]? = some (s.emissionCall (t0 + (i + 1) * byteTime s.cfg s.kind) c) ∧
        mfmDecode c = byteAt s.buffer ((s.cursor + i) % s.cfg.bufLen)

/-- `emitFlux(t, c)` makes one call: for each set code bit j one transition at `t + (15 - j) * H + H / 2`, and no other, in the
window of 16 half-cells from t (rule R165). -/
def Obligations.FluxIsWrittenAtCellMidpoints : Prop :=
  ∀ (t : Nat) (c : Code) (s : State), ∃ T, exec (.emitFlux t c) s = .next { s with
      calls := .fdWriteFlux s.cmd.selectedDrive t (t + 16 * s.cfg.fdHalfCell) T :: s.calls } ∧
    ∀ x, x ∈ T ↔ ∃ j < 16, c.getLsbD j = true ∧ x = t + (15 - j) * s.cfg.fdHalfCell + s.cfg.fdHalfCell / 2

/-- `emitCode(t, c)` hands the code to the hard disk with the precompensation and reduced-write-current flags (rule R166). -/
def Obligations.CodeIsHandedToTheHardDisk : Prop :=
  ∀ (t : Nat) (c : Code) (s : State), exec (.emitCode t c) s = .next { s with
    calls := .hdWriteCode t c s.cmd.writePrecompensation s.cmd.reducedWriteCurrent :: s.calls }

/-! ### The adapter and the direct path -/

/-- `pll.nextBit` (rule R98): an answer's time is after the read position and not after the deadline, and becomes the read
position; without an answer the read position stays. Nothing else changes but the answers, the calls and the result, and
every answer that the law admits is possible. -/
def Obligations.AdapterAnswersWithinTheLaw : Prop :=
  ∀ (deadline : Nat) (s : State),
    (∃ t b, exec (.pllNextBit deadline) s = .next t ∧ t.result = .bit b ∧
      t = { s with
        readPos := t.readPos, pllAnswers := t.pllAnswers, drawn := t.drawn, calls := t.calls, result := t.result } ∧
      (b = none → t.readPos = s.readPos) ∧ (b ≠ none → s.readPos < t.readPos ∧ t.readPos ≤ deadline)) ∧
    (∀ (b : Bool) (t' : Nat) (rest : List (Option (Bool × Nat))), s.readPos < t' → t' ≤ deadline →
      s.pllAnswers = some (b, t') :: rest → exec (.pllNextBit deadline) s = .next { s with
        readPos := t', pllAnswers := rest, result := .bit (some b),
        calls := .pllNextBit s.cmd.selectedDrive s.readPos deadline (some (b, t')) :: s.calls })

/-- `pll.setClock(h)` changes no state of the block (rule R99); `pll.resetForRead(t)` sets the read position to t (rule R100). -/
def Obligations.AdapterIsSetUpForARead : Prop :=
  ∀ s : State,
    (∀ h, exec (.pllSetClock h) s = .next { s with calls := .pllSetClock s.cmd.selectedDrive h :: s.calls }) ∧
    (∀ t, exec (.pllResetForRead t) s = .next { s with
      readPos := t, calls := .pllResetForRead s.cmd.selectedDrive t :: s.calls })

/-- `hdNextBit()` takes one bit at the read position and moves it on by one half-cell (rule R101); `nextCodeBit` is the adapter's
request for a floppy, and for the hard disk that bit, or none when the cell would end after the deadline (rule R102). Rule
R102 takes the drive kind of the transfer, fixed at the match; performed as an operation of its own it takes the kind of the
current CommandState, which is the model's choice (log entry 15) and during an operation the same (decision D44). -/
def Obligations.CodeBitsComeFromTheSelectedDrive : Prop :=
  ∀ s : State,
    exec .hdNextBit s = .next { s.drawHdBit.2 with
      readPos := s.readPos + s.cfg.hdHalfCell, calls := .hdReadBit s.readPos s.drawHdBit.1 :: s.calls,
      result := .bit (some s.drawHdBit.1) } ∧
    ∀ deadline,
      (s.kind = .fd → ∃ t, exec (.nextCodeBit deadline) s = .next t ∧ exec (.pllNextBit deadline) s = .next t) ∧
      (s.kind = .hd → s.readPos + s.cfg.hdHalfCell > deadline →
        exec (.nextCodeBit deadline) s = .next { s with result := .bit none }) ∧
      (s.kind = .hd → s.readPos + s.cfg.hdHalfCell ≤ deadline →
        ∃ t, exec (.nextCodeBit deadline) s = .next t ∧ exec .hdNextBit s = .next t)

/-! ### The motor, the reset, and what the whole machine may change -/

/-- `MOTOR_FIRE` turns every attached floppy's motor off, after which the motor timer is not active, and changes nothing else: not
the busy flag, `BYTE`, `SECTOR` or a counter (rule R184). -/
def Obligations.MotorFireTurnsMotorsOff : Prop :=
  ∀ s : State, exec .motorFire s = .next { s with
    motor := none,
    calls := (((List.finRange 4).filter fun n => s.cfg.attached n).map fun n => Call.fdSetMotor n false).reverse ++
      s.calls }

/-- `DEVICE_RESET` (rule R195): every field of the table, the buffer unchanged, every attached floppy's motor off. The document
gives only that the transfer cursor does not persist; the other values are the spec's own decision D32 (log entry 12). -/
def Obligations.DeviceResetSetsEveryField : Prop :=
  ∀ s : State, exec .deviceReset s = .next { s with
    cursor := 0,
    cmd := { selectedDrive := 0, selectedHead := 0, reducedWriteCurrent := false, targetSector := 0, readMode := false,
             eccRequested := false, writePrecompensation := false },
    busy := false, motor := none, sector := none, byte := none, fdCounter := 0, hdCounter := 0, fdLastPulse := none,
    hdLastPulse := none, hdPeriod := none, pendingBits := 0, pendingCount := 0, readPos := 0, idleCount := none,
    calls := (((List.finRange 4).filter fun n => s.cfg.attached n).map fun n => Call.fdSetMotor n false).reverse ++
      s.calls }

/-- After a device reset the hard disk is selected exactly when it is attached, and status port 1 reads
`HD_TYPE_BIT * 8 + (HD_ATTACHED ? 1 : 0)` (rule R197). -/
def Obligations.StatusAfterReset : Prop :=
  ∀ (s : State) (peek : Bool), ∃ t, exec .deviceReset s = .next t ∧
    (t.kind = .hd ↔ s.cfg.hdAttached = true) ∧
    exec (.rdStatus1 peek) t = .next { t with
      result := .byte (BitVec.ofNat 8 (s.cfg.hdTypeBit.toNat * 8 + s.cfg.hdAttached.toNat)) }

/-- The busy flag is set only by `WR_START`, and cleared only by a sector-clock increment or by `DEVICE_RESET` (rule R26). -/
def Obligations.OnlyStartSetsAndIncrementsClearBusy : Prop :=
  ∀ (i : Instr) (s t : State), exec i s = .next t →
    (s.busy = false → t.busy = true → ∃ data, i = .wrStart data) ∧
    (s.busy = true → t.busy = false → (∃ n, i = .fdPulse n) ∨ i = .hdIndex ∨ i = .sectorFire ∨ i = .deviceReset)

/-- CommandState is "Mutated only by control-port writes" (rule R23) and by `DEVICE_RESET`, and while busy no port access changes
the buffer, the cursor or CommandState (rule R64). -/
def Obligations.OnlyControlWritesChangeCommandState : Prop :=
  ∀ (i : Instr) (s t : State), exec i s = .next t →
    (t.cmd ≠ s.cmd → (∃ data, i = .wrControl0 data) ∨ (∃ data, i = .wrControl1 data) ∨ i = .deviceReset) ∧
    (s.busy = true →
      ((∃ d, i = .wrControl0 d ∨ i = .wrControl1 d ∨ i = .wrStart d ∨ i = .wrData d ∨ i = .wrReset d) ∨
       (∃ p, i = .rdStatus0 p ∨ i = .rdStatus1 p ∨ i = .rdData p ∨ i = .rdReset p) ∨
       (∃ dir o d p, i = .invalid dir o d p)) →
      t.buffer = s.buffer ∧ t.cursor = s.cursor ∧ t.cmd = s.cmd)

/-- The kept hang (rule R176): an operation whose sync search has failed stays busy under every operation but `DEVICE_RESET`: no host
access, no timer and no idle release ends it. A later successful search starts a transfer, still busy. -/
def Obligations.OnlyDeviceResetEndsAHungOperation : Prop :=
  ∀ (i : Instr) (s t : State), s.hung = true → exec i s = .next t → t.busy = false → i = .deviceReset
end

