-- ==== Sys2Proof/Laws/State.lean ====
section
/-! SUPPORT. The field lemmas of the named updates of State: one for each field and each update, true by rfl. -/

namespace Sys2Proof.Machine

/-! ### `State.memWrite` -/

@[simp] theorem State.memWrite_cfg (s : State) (i : Nat) (v : Byte) : (s.memWrite i v).cfg = s.cfg := rfl
@[simp] theorem State.memWrite_buffer (s : State) (i : Nat) (v : Byte) : (s.memWrite i v).buffer = putCell s.buffer (i % s.cfg.bufLen) v := rfl
@[simp] theorem State.memWrite_cursor (s : State) (i : Nat) (v : Byte) : (s.memWrite i v).cursor = s.cursor := rfl
@[simp] theorem State.memWrite_cmd (s : State) (i : Nat) (v : Byte) : (s.memWrite i v).cmd = s.cmd := rfl
@[simp] theorem State.memWrite_busy (s : State) (i : Nat) (v : Byte) : (s.memWrite i v).busy = s.busy := rfl
@[simp] theorem State.memWrite_motor (s : State) (i : Nat) (v : Byte) : (s.memWrite i v).motor = s.motor := rfl
@[simp] theorem State.memWrite_sector (s : State) (i : Nat) (v : Byte) : (s.memWrite i v).sector = s.sector := rfl
@[simp] theorem State.memWrite_byte (s : State) (i : Nat) (v : Byte) : (s.memWrite i v).byte = s.byte := rfl
@[simp] theorem State.memWrite_fdCounter (s : State) (i : Nat) (v : Byte) : (s.memWrite i v).fdCounter = s.fdCounter := rfl
@[simp] theorem State.memWrite_fdLastPulse (s : State) (i : Nat) (v : Byte) : (s.memWrite i v).fdLastPulse = s.fdLastPulse := rfl
@[simp] theorem State.memWrite_hdCounter (s : State) (i : Nat) (v : Byte) : (s.memWrite i v).hdCounter = s.hdCounter := rfl
@[simp] theorem State.memWrite_hdLastPulse (s : State) (i : Nat) (v : Byte) : (s.memWrite i v).hdLastPulse = s.hdLastPulse := rfl
@[simp] theorem State.memWrite_hdPeriod (s : State) (i : Nat) (v : Byte) : (s.memWrite i v).hdPeriod = s.hdPeriod := rfl
@[simp] theorem State.memWrite_pendingBits (s : State) (i : Nat) (v : Byte) : (s.memWrite i v).pendingBits = s.pendingBits := rfl
@[simp] theorem State.memWrite_pendingCount (s : State) (i : Nat) (v : Byte) : (s.memWrite i v).pendingCount = s.pendingCount := rfl
@[simp] theorem State.memWrite_readPos (s : State) (i : Nat) (v : Byte) : (s.memWrite i v).readPos = s.readPos := rfl
@[simp] theorem State.memWrite_idleCount (s : State) (i : Nat) (v : Byte) : (s.memWrite i v).idleCount = s.idleCount := rfl
@[simp] theorem State.memWrite_now (s : State) (i : Nat) (v : Byte) : (s.memWrite i v).now = s.now := rfl
@[simp] theorem State.memWrite_agenda (s : State) (i : Nat) (v : Byte) : (s.memWrite i v).agenda = s.agenda := rfl
@[simp] theorem State.memWrite_pllAnswers (s : State) (i : Nat) (v : Byte) : (s.memWrite i v).pllAnswers = s.pllAnswers := rfl
@[simp] theorem State.memWrite_hdBits (s : State) (i : Nat) (v : Byte) : (s.memWrite i v).hdBits = s.hdBits := rfl
@[simp] theorem State.memWrite_signals (s : State) (i : Nat) (v : Byte) : (s.memWrite i v).signals = s.signals := rfl
@[simp] theorem State.memWrite_drawn (s : State) (i : Nat) (v : Byte) : (s.memWrite i v).drawn = s.drawn := rfl
@[simp] theorem State.memWrite_calls (s : State) (i : Nat) (v : Byte) : (s.memWrite i v).calls = s.calls := rfl
@[simp] theorem State.memWrite_result (s : State) (i : Nat) (v : Byte) : (s.memWrite i v).result = s.result := rfl
@[simp] theorem State.memWrite_kind (s : State) (i : Nat) (v : Byte) : (s.memWrite i v).kind = s.kind := rfl

/-! ### `State.advanceCursor` -/

@[simp] theorem State.advanceCursor_cfg (s : State) : (s.advanceCursor).cfg = s.cfg := rfl
@[simp] theorem State.advanceCursor_buffer (s : State) : (s.advanceCursor).buffer = s.buffer := rfl
@[simp] theorem State.advanceCursor_cursor (s : State) : (s.advanceCursor).cursor = (s.cursor + 1) % s.cfg.bufLen := rfl
@[simp] theorem State.advanceCursor_cmd (s : State) : (s.advanceCursor).cmd = s.cmd := rfl
@[simp] theorem State.advanceCursor_busy (s : State) : (s.advanceCursor).busy = s.busy := rfl
@[simp] theorem State.advanceCursor_motor (s : State) : (s.advanceCursor).motor = s.motor := rfl
@[simp] theorem State.advanceCursor_sector (s : State) : (s.advanceCursor).sector = s.sector := rfl
@[simp] theorem State.advanceCursor_byte (s : State) : (s.advanceCursor).byte = s.byte := rfl
@[simp] theorem State.advanceCursor_fdCounter (s : State) : (s.advanceCursor).fdCounter = s.fdCounter := rfl
@[simp] theorem State.advanceCursor_fdLastPulse (s : State) : (s.advanceCursor).fdLastPulse = s.fdLastPulse := rfl
@[simp] theorem State.advanceCursor_hdCounter (s : State) : (s.advanceCursor).hdCounter = s.hdCounter := rfl
@[simp] theorem State.advanceCursor_hdLastPulse (s : State) : (s.advanceCursor).hdLastPulse = s.hdLastPulse := rfl
@[simp] theorem State.advanceCursor_hdPeriod (s : State) : (s.advanceCursor).hdPeriod = s.hdPeriod := rfl
@[simp] theorem State.advanceCursor_pendingBits (s : State) : (s.advanceCursor).pendingBits = s.pendingBits := rfl
@[simp] theorem State.advanceCursor_pendingCount (s : State) : (s.advanceCursor).pendingCount = s.pendingCount := rfl
@[simp] theorem State.advanceCursor_readPos (s : State) : (s.advanceCursor).readPos = s.readPos := rfl
@[simp] theorem State.advanceCursor_idleCount (s : State) : (s.advanceCursor).idleCount = s.idleCount := rfl
@[simp] theorem State.advanceCursor_now (s : State) : (s.advanceCursor).now = s.now := rfl
@[simp] theorem State.advanceCursor_agenda (s : State) : (s.advanceCursor).agenda = s.agenda := rfl
@[simp] theorem State.advanceCursor_pllAnswers (s : State) : (s.advanceCursor).pllAnswers = s.pllAnswers := rfl
@[simp] theorem State.advanceCursor_hdBits (s : State) : (s.advanceCursor).hdBits = s.hdBits := rfl
@[simp] theorem State.advanceCursor_signals (s : State) : (s.advanceCursor).signals = s.signals := rfl
@[simp] theorem State.advanceCursor_drawn (s : State) : (s.advanceCursor).drawn = s.drawn := rfl
@[simp] theorem State.advanceCursor_calls (s : State) : (s.advanceCursor).calls = s.calls := rfl
@[simp] theorem State.advanceCursor_result (s : State) : (s.advanceCursor).result = s.result := rfl
@[simp] theorem State.advanceCursor_kind (s : State) : (s.advanceCursor).kind = s.kind := rfl

/-! ### `State.scheduleMotor` -/

@[simp] theorem State.scheduleMotor_cfg (s : State) (t : Nat) : (s.scheduleMotor t).cfg = s.cfg := rfl
@[simp] theorem State.scheduleMotor_buffer (s : State) (t : Nat) : (s.scheduleMotor t).buffer = s.buffer := rfl
@[simp] theorem State.scheduleMotor_cursor (s : State) (t : Nat) : (s.scheduleMotor t).cursor = s.cursor := rfl
@[simp] theorem State.scheduleMotor_cmd (s : State) (t : Nat) : (s.scheduleMotor t).cmd = s.cmd := rfl
@[simp] theorem State.scheduleMotor_busy (s : State) (t : Nat) : (s.scheduleMotor t).busy = s.busy := rfl
@[simp] theorem State.scheduleMotor_motor (s : State) (t : Nat) : (s.scheduleMotor t).motor = some t := rfl
@[simp] theorem State.scheduleMotor_sector (s : State) (t : Nat) : (s.scheduleMotor t).sector = s.sector := rfl
@[simp] theorem State.scheduleMotor_byte (s : State) (t : Nat) : (s.scheduleMotor t).byte = s.byte := rfl
@[simp] theorem State.scheduleMotor_fdCounter (s : State) (t : Nat) : (s.scheduleMotor t).fdCounter = s.fdCounter := rfl
@[simp] theorem State.scheduleMotor_fdLastPulse (s : State) (t : Nat) : (s.scheduleMotor t).fdLastPulse = s.fdLastPulse := rfl
@[simp] theorem State.scheduleMotor_hdCounter (s : State) (t : Nat) : (s.scheduleMotor t).hdCounter = s.hdCounter := rfl
@[simp] theorem State.scheduleMotor_hdLastPulse (s : State) (t : Nat) : (s.scheduleMotor t).hdLastPulse = s.hdLastPulse := rfl
@[simp] theorem State.scheduleMotor_hdPeriod (s : State) (t : Nat) : (s.scheduleMotor t).hdPeriod = s.hdPeriod := rfl
@[simp] theorem State.scheduleMotor_pendingBits (s : State) (t : Nat) : (s.scheduleMotor t).pendingBits = s.pendingBits := rfl
@[simp] theorem State.scheduleMotor_pendingCount (s : State) (t : Nat) : (s.scheduleMotor t).pendingCount = s.pendingCount := rfl
@[simp] theorem State.scheduleMotor_readPos (s : State) (t : Nat) : (s.scheduleMotor t).readPos = s.readPos := rfl
@[simp] theorem State.scheduleMotor_idleCount (s : State) (t : Nat) : (s.scheduleMotor t).idleCount = s.idleCount := rfl
@[simp] theorem State.scheduleMotor_now (s : State) (t : Nat) : (s.scheduleMotor t).now = s.now := rfl
@[simp] theorem State.scheduleMotor_agenda (s : State) (t : Nat) : (s.scheduleMotor t).agenda = s.agenda := rfl
@[simp] theorem State.scheduleMotor_pllAnswers (s : State) (t : Nat) : (s.scheduleMotor t).pllAnswers = s.pllAnswers := rfl
@[simp] theorem State.scheduleMotor_hdBits (s : State) (t : Nat) : (s.scheduleMotor t).hdBits = s.hdBits := rfl
@[simp] theorem State.scheduleMotor_signals (s : State) (t : Nat) : (s.scheduleMotor t).signals = s.signals := rfl
@[simp] theorem State.scheduleMotor_drawn (s : State) (t : Nat) : (s.scheduleMotor t).drawn = s.drawn := rfl
@[simp] theorem State.scheduleMotor_calls (s : State) (t : Nat) : (s.scheduleMotor t).calls = s.calls := rfl
@[simp] theorem State.scheduleMotor_result (s : State) (t : Nat) : (s.scheduleMotor t).result = s.result := rfl
@[simp] theorem State.scheduleMotor_kind (s : State) (t : Nat) : (s.scheduleMotor t).kind = s.kind := rfl

/-! ### `State.cancelMotor` -/

@[simp] theorem State.cancelMotor_cfg (s : State) : (s.cancelMotor).cfg = s.cfg := rfl
@[simp] theorem State.cancelMotor_buffer (s : State) : (s.cancelMotor).buffer = s.buffer := rfl
@[simp] theorem State.cancelMotor_cursor (s : State) : (s.cancelMotor).cursor = s.cursor := rfl
@[simp] theorem State.cancelMotor_cmd (s : State) : (s.cancelMotor).cmd = s.cmd := rfl
@[simp] theorem State.cancelMotor_busy (s : State) : (s.cancelMotor).busy = s.busy := rfl
@[simp] theorem State.cancelMotor_motor (s : State) : (s.cancelMotor).motor = none := rfl
@[simp] theorem State.cancelMotor_sector (s : State) : (s.cancelMotor).sector = s.sector := rfl
@[simp] theorem State.cancelMotor_byte (s : State) : (s.cancelMotor).byte = s.byte := rfl
@[simp] theorem State.cancelMotor_fdCounter (s : State) : (s.cancelMotor).fdCounter = s.fdCounter := rfl
@[simp] theorem State.cancelMotor_fdLastPulse (s : State) : (s.cancelMotor).fdLastPulse = s.fdLastPulse := rfl
@[simp] theorem State.cancelMotor_hdCounter (s : State) : (s.cancelMotor).hdCounter = s.hdCounter := rfl
@[simp] theorem State.cancelMotor_hdLastPulse (s : State) : (s.cancelMotor).hdLastPulse = s.hdLastPulse := rfl
@[simp] theorem State.cancelMotor_hdPeriod (s : State) : (s.cancelMotor).hdPeriod = s.hdPeriod := rfl
@[simp] theorem State.cancelMotor_pendingBits (s : State) : (s.cancelMotor).pendingBits = s.pendingBits := rfl
@[simp] theorem State.cancelMotor_pendingCount (s : State) : (s.cancelMotor).pendingCount = s.pendingCount := rfl
@[simp] theorem State.cancelMotor_readPos (s : State) : (s.cancelMotor).readPos = s.readPos := rfl
@[simp] theorem State.cancelMotor_idleCount (s : State) : (s.cancelMotor).idleCount = s.idleCount := rfl
@[simp] theorem State.cancelMotor_now (s : State) : (s.cancelMotor).now = s.now := rfl
@[simp] theorem State.cancelMotor_agenda (s : State) : (s.cancelMotor).agenda = s.agenda := rfl
@[simp] theorem State.cancelMotor_pllAnswers (s : State) : (s.cancelMotor).pllAnswers = s.pllAnswers := rfl
@[simp] theorem State.cancelMotor_hdBits (s : State) : (s.cancelMotor).hdBits = s.hdBits := rfl
@[simp] theorem State.cancelMotor_signals (s : State) : (s.cancelMotor).signals = s.signals := rfl
@[simp] theorem State.cancelMotor_drawn (s : State) : (s.cancelMotor).drawn = s.drawn := rfl
@[simp] theorem State.cancelMotor_calls (s : State) : (s.cancelMotor).calls = s.calls := rfl
@[simp] theorem State.cancelMotor_result (s : State) : (s.cancelMotor).result = s.result := rfl
@[simp] theorem State.cancelMotor_kind (s : State) : (s.cancelMotor).kind = s.kind := rfl

/-! ### `State.scheduleByte` -/

@[simp] theorem State.scheduleByte_cfg (s : State) (t : Nat) : (s.scheduleByte t).cfg = s.cfg := rfl
@[simp] theorem State.scheduleByte_buffer (s : State) (t : Nat) : (s.scheduleByte t).buffer = s.buffer := rfl
@[simp] theorem State.scheduleByte_cursor (s : State) (t : Nat) : (s.scheduleByte t).cursor = s.cursor := rfl
@[simp] theorem State.scheduleByte_cmd (s : State) (t : Nat) : (s.scheduleByte t).cmd = s.cmd := rfl
@[simp] theorem State.scheduleByte_busy (s : State) (t : Nat) : (s.scheduleByte t).busy = s.busy := rfl
@[simp] theorem State.scheduleByte_motor (s : State) (t : Nat) : (s.scheduleByte t).motor = s.motor := rfl
@[simp] theorem State.scheduleByte_sector (s : State) (t : Nat) : (s.scheduleByte t).sector = s.sector := rfl
@[simp] theorem State.scheduleByte_byte (s : State) (t : Nat) : (s.scheduleByte t).byte = some t := rfl
@[simp] theorem State.scheduleByte_fdCounter (s : State) (t : Nat) : (s.scheduleByte t).fdCounter = s.fdCounter := rfl
@[simp] theorem State.scheduleByte_fdLastPulse (s : State) (t : Nat) : (s.scheduleByte t).fdLastPulse = s.fdLastPulse := rfl
@[simp] theorem State.scheduleByte_hdCounter (s : State) (t : Nat) : (s.scheduleByte t).hdCounter = s.hdCounter := rfl
@[simp] theorem State.scheduleByte_hdLastPulse (s : State) (t : Nat) : (s.scheduleByte t).hdLastPulse = s.hdLastPulse := rfl
@[simp] theorem State.scheduleByte_hdPeriod (s : State) (t : Nat) : (s.scheduleByte t).hdPeriod = s.hdPeriod := rfl
@[simp] theorem State.scheduleByte_pendingBits (s : State) (t : Nat) : (s.scheduleByte t).pendingBits = s.pendingBits := rfl
@[simp] theorem State.scheduleByte_pendingCount (s : State) (t : Nat) : (s.scheduleByte t).pendingCount = s.pendingCount := rfl
@[simp] theorem State.scheduleByte_readPos (s : State) (t : Nat) : (s.scheduleByte t).readPos = s.readPos := rfl
@[simp] theorem State.scheduleByte_idleCount (s : State) (t : Nat) : (s.scheduleByte t).idleCount = s.idleCount := rfl
@[simp] theorem State.scheduleByte_now (s : State) (t : Nat) : (s.scheduleByte t).now = s.now := rfl
@[simp] theorem State.scheduleByte_agenda (s : State) (t : Nat) : (s.scheduleByte t).agenda = s.agenda := rfl
@[simp] theorem State.scheduleByte_pllAnswers (s : State) (t : Nat) : (s.scheduleByte t).pllAnswers = s.pllAnswers := rfl
@[simp] theorem State.scheduleByte_hdBits (s : State) (t : Nat) : (s.scheduleByte t).hdBits = s.hdBits := rfl
@[simp] theorem State.scheduleByte_signals (s : State) (t : Nat) : (s.scheduleByte t).signals = s.signals := rfl
@[simp] theorem State.scheduleByte_drawn (s : State) (t : Nat) : (s.scheduleByte t).drawn = s.drawn := rfl
@[simp] theorem State.scheduleByte_calls (s : State) (t : Nat) : (s.scheduleByte t).calls = s.calls := rfl
@[simp] theorem State.scheduleByte_result (s : State) (t : Nat) : (s.scheduleByte t).result = s.result := rfl
@[simp] theorem State.scheduleByte_kind (s : State) (t : Nat) : (s.scheduleByte t).kind = s.kind := rfl

/-! ### `State.cancelByte` -/

@[simp] theorem State.cancelByte_cfg (s : State) : (s.cancelByte).cfg = s.cfg := rfl
@[simp] theorem State.cancelByte_buffer (s : State) : (s.cancelByte).buffer = s.buffer := rfl
@[simp] theorem State.cancelByte_cursor (s : State) : (s.cancelByte).cursor = s.cursor := rfl
@[simp] theorem State.cancelByte_cmd (s : State) : (s.cancelByte).cmd = s.cmd := rfl
@[simp] theorem State.cancelByte_busy (s : State) : (s.cancelByte).busy = s.busy := rfl
@[simp] theorem State.cancelByte_motor (s : State) : (s.cancelByte).motor = s.motor := rfl
@[simp] theorem State.cancelByte_sector (s : State) : (s.cancelByte).sector = s.sector := rfl
@[simp] theorem State.cancelByte_byte (s : State) : (s.cancelByte).byte = none := rfl
@[simp] theorem State.cancelByte_fdCounter (s : State) : (s.cancelByte).fdCounter = s.fdCounter := rfl
@[simp] theorem State.cancelByte_fdLastPulse (s : State) : (s.cancelByte).fdLastPulse = s.fdLastPulse := rfl
@[simp] theorem State.cancelByte_hdCounter (s : State) : (s.cancelByte).hdCounter = s.hdCounter := rfl
@[simp] theorem State.cancelByte_hdLastPulse (s : State) : (s.cancelByte).hdLastPulse = s.hdLastPulse := rfl
@[simp] theorem State.cancelByte_hdPeriod (s : State) : (s.cancelByte).hdPeriod = s.hdPeriod := rfl
@[simp] theorem State.cancelByte_pendingBits (s : State) : (s.cancelByte).pendingBits = s.pendingBits := rfl
@[simp] theorem State.cancelByte_pendingCount (s : State) : (s.cancelByte).pendingCount = s.pendingCount := rfl
@[simp] theorem State.cancelByte_readPos (s : State) : (s.cancelByte).readPos = s.readPos := rfl
@[simp] theorem State.cancelByte_idleCount (s : State) : (s.cancelByte).idleCount = s.idleCount := rfl
@[simp] theorem State.cancelByte_now (s : State) : (s.cancelByte).now = s.now := rfl
@[simp] theorem State.cancelByte_agenda (s : State) : (s.cancelByte).agenda = s.agenda := rfl
@[simp] theorem State.cancelByte_pllAnswers (s : State) : (s.cancelByte).pllAnswers = s.pllAnswers := rfl
@[simp] theorem State.cancelByte_hdBits (s : State) : (s.cancelByte).hdBits = s.hdBits := rfl
@[simp] theorem State.cancelByte_signals (s : State) : (s.cancelByte).signals = s.signals := rfl
@[simp] theorem State.cancelByte_drawn (s : State) : (s.cancelByte).drawn = s.drawn := rfl
@[simp] theorem State.cancelByte_calls (s : State) : (s.cancelByte).calls = s.calls := rfl
@[simp] theorem State.cancelByte_result (s : State) : (s.cancelByte).result = s.result := rfl
@[simp] theorem State.cancelByte_kind (s : State) : (s.cancelByte).kind = s.kind := rfl

/-! ### `State.scheduleSector` -/

@[simp] theorem State.scheduleSector_cfg (s : State) (t p : Nat) : (s.scheduleSector t p).cfg = s.cfg := rfl
@[simp] theorem State.scheduleSector_buffer (s : State) (t p : Nat) : (s.scheduleSector t p).buffer = s.buffer := rfl
@[simp] theorem State.scheduleSector_cursor (s : State) (t p : Nat) : (s.scheduleSector t p).cursor = s.cursor := rfl
@[simp] theorem State.scheduleSector_cmd (s : State) (t p : Nat) : (s.scheduleSector t p).cmd = s.cmd := rfl
@[simp] theorem State.scheduleSector_busy (s : State) (t p : Nat) : (s.scheduleSector t p).busy = s.busy := rfl
@[simp] theorem State.scheduleSector_motor (s : State) (t p : Nat) : (s.scheduleSector t p).motor = s.motor := rfl
@[simp] theorem State.scheduleSector_sector (s : State) (t p : Nat) : (s.scheduleSector t p).sector = some { next := t + p, period := p } := rfl
@[simp] theorem State.scheduleSector_byte (s : State) (t p : Nat) : (s.scheduleSector t p).byte = s.byte := rfl
@[simp] theorem State.scheduleSector_fdCounter (s : State) (t p : Nat) : (s.scheduleSector t p).fdCounter = s.fdCounter := rfl
@[simp] theorem State.scheduleSector_fdLastPulse (s : State) (t p : Nat) : (s.scheduleSector t p).fdLastPulse = s.fdLastPulse := rfl
@[simp] theorem State.scheduleSector_hdCounter (s : State) (t p : Nat) : (s.scheduleSector t p).hdCounter = s.hdCounter := rfl
@[simp] theorem State.scheduleSector_hdLastPulse (s : State) (t p : Nat) : (s.scheduleSector t p).hdLastPulse = s.hdLastPulse := rfl
@[simp] theorem State.scheduleSector_hdPeriod (s : State) (t p : Nat) : (s.scheduleSector t p).hdPeriod = s.hdPeriod := rfl
@[simp] theorem State.scheduleSector_pendingBits (s : State) (t p : Nat) : (s.scheduleSector t p).pendingBits = s.pendingBits := rfl
@[simp] theorem State.scheduleSector_pendingCount (s : State) (t p : Nat) : (s.scheduleSector t p).pendingCount = s.pendingCount := rfl
@[simp] theorem State.scheduleSector_readPos (s : State) (t p : Nat) : (s.scheduleSector t p).readPos = s.readPos := rfl
@[simp] theorem State.scheduleSector_idleCount (s : State) (t p : Nat) : (s.scheduleSector t p).idleCount = s.idleCount := rfl
@[simp] theorem State.scheduleSector_now (s : State) (t p : Nat) : (s.scheduleSector t p).now = s.now := rfl
@[simp] theorem State.scheduleSector_agenda (s : State) (t p : Nat) : (s.scheduleSector t p).agenda = s.agenda := rfl
@[simp] theorem State.scheduleSector_pllAnswers (s : State) (t p : Nat) : (s.scheduleSector t p).pllAnswers = s.pllAnswers := rfl
@[simp] theorem State.scheduleSector_hdBits (s : State) (t p : Nat) : (s.scheduleSector t p).hdBits = s.hdBits := rfl
@[simp] theorem State.scheduleSector_signals (s : State) (t p : Nat) : (s.scheduleSector t p).signals = s.signals := rfl
@[simp] theorem State.scheduleSector_drawn (s : State) (t p : Nat) : (s.scheduleSector t p).drawn = s.drawn := rfl
@[simp] theorem State.scheduleSector_calls (s : State) (t p : Nat) : (s.scheduleSector t p).calls = s.calls := rfl
@[simp] theorem State.scheduleSector_result (s : State) (t p : Nat) : (s.scheduleSector t p).result = s.result := rfl
@[simp] theorem State.scheduleSector_kind (s : State) (t p : Nat) : (s.scheduleSector t p).kind = s.kind := rfl

/-! ### `State.cancelSector` -/

@[simp] theorem State.cancelSector_cfg (s : State) : (s.cancelSector).cfg = s.cfg := rfl
@[simp] theorem State.cancelSector_buffer (s : State) : (s.cancelSector).buffer = s.buffer := rfl
@[simp] theorem State.cancelSector_cursor (s : State) : (s.cancelSector).cursor = s.cursor := rfl
@[simp] theorem State.cancelSector_cmd (s : State) : (s.cancelSector).cmd = s.cmd := rfl
@[simp] theorem State.cancelSector_busy (s : State) : (s.cancelSector).busy = s.busy := rfl
@[simp] theorem State.cancelSector_motor (s : State) : (s.cancelSector).motor = s.motor := rfl
@[simp] theorem State.cancelSector_sector (s : State) : (s.cancelSector).sector = none := rfl
@[simp] theorem State.cancelSector_byte (s : State) : (s.cancelSector).byte = s.byte := rfl
@[simp] theorem State.cancelSector_fdCounter (s : State) : (s.cancelSector).fdCounter = s.fdCounter := rfl
@[simp] theorem State.cancelSector_fdLastPulse (s : State) : (s.cancelSector).fdLastPulse = s.fdLastPulse := rfl
@[simp] theorem State.cancelSector_hdCounter (s : State) : (s.cancelSector).hdCounter = s.hdCounter := rfl
@[simp] theorem State.cancelSector_hdLastPulse (s : State) : (s.cancelSector).hdLastPulse = s.hdLastPulse := rfl
@[simp] theorem State.cancelSector_hdPeriod (s : State) : (s.cancelSector).hdPeriod = s.hdPeriod := rfl
@[simp] theorem State.cancelSector_pendingBits (s : State) : (s.cancelSector).pendingBits = s.pendingBits := rfl
@[simp] theorem State.cancelSector_pendingCount (s : State) : (s.cancelSector).pendingCount = s.pendingCount := rfl
@[simp] theorem State.cancelSector_readPos (s : State) : (s.cancelSector).readPos = s.readPos := rfl
@[simp] theorem State.cancelSector_idleCount (s : State) : (s.cancelSector).idleCount = s.idleCount := rfl
@[simp] theorem State.cancelSector_now (s : State) : (s.cancelSector).now = s.now := rfl
@[simp] theorem State.cancelSector_agenda (s : State) : (s.cancelSector).agenda = s.agenda := rfl
@[simp] theorem State.cancelSector_pllAnswers (s : State) : (s.cancelSector).pllAnswers = s.pllAnswers := rfl
@[simp] theorem State.cancelSector_hdBits (s : State) : (s.cancelSector).hdBits = s.hdBits := rfl
@[simp] theorem State.cancelSector_signals (s : State) : (s.cancelSector).signals = s.signals := rfl
@[simp] theorem State.cancelSector_drawn (s : State) : (s.cancelSector).drawn = s.drawn := rfl
@[simp] theorem State.cancelSector_calls (s : State) : (s.cancelSector).calls = s.calls := rfl
@[simp] theorem State.cancelSector_result (s : State) : (s.cancelSector).result = s.result := rfl
@[simp] theorem State.cancelSector_kind (s : State) : (s.cancelSector).kind = s.kind := rfl

/-! ### `State.repeatSector` -/

@[simp] theorem State.repeatSector_cfg (s : State) : (s.repeatSector).cfg = s.cfg := rfl
@[simp] theorem State.repeatSector_buffer (s : State) : (s.repeatSector).buffer = s.buffer := rfl
@[simp] theorem State.repeatSector_cursor (s : State) : (s.repeatSector).cursor = s.cursor := rfl
@[simp] theorem State.repeatSector_cmd (s : State) : (s.repeatSector).cmd = s.cmd := rfl
@[simp] theorem State.repeatSector_busy (s : State) : (s.repeatSector).busy = s.busy := rfl
@[simp] theorem State.repeatSector_motor (s : State) : (s.repeatSector).motor = s.motor := rfl
@[simp] theorem State.repeatSector_sector (s : State) : (s.repeatSector).sector = s.sector.map fun p => { p with next := p.next + p.period } := rfl
@[simp] theorem State.repeatSector_byte (s : State) : (s.repeatSector).byte = s.byte := rfl
@[simp] theorem State.repeatSector_fdCounter (s : State) : (s.repeatSector).fdCounter = s.fdCounter := rfl
@[simp] theorem State.repeatSector_fdLastPulse (s : State) : (s.repeatSector).fdLastPulse = s.fdLastPulse := rfl
@[simp] theorem State.repeatSector_hdCounter (s : State) : (s.repeatSector).hdCounter = s.hdCounter := rfl
@[simp] theorem State.repeatSector_hdLastPulse (s : State) : (s.repeatSector).hdLastPulse = s.hdLastPulse := rfl
@[simp] theorem State.repeatSector_hdPeriod (s : State) : (s.repeatSector).hdPeriod = s.hdPeriod := rfl
@[simp] theorem State.repeatSector_pendingBits (s : State) : (s.repeatSector).pendingBits = s.pendingBits := rfl
@[simp] theorem State.repeatSector_pendingCount (s : State) : (s.repeatSector).pendingCount = s.pendingCount := rfl
@[simp] theorem State.repeatSector_readPos (s : State) : (s.repeatSector).readPos = s.readPos := rfl
@[simp] theorem State.repeatSector_idleCount (s : State) : (s.repeatSector).idleCount = s.idleCount := rfl
@[simp] theorem State.repeatSector_now (s : State) : (s.repeatSector).now = s.now := rfl
@[simp] theorem State.repeatSector_agenda (s : State) : (s.repeatSector).agenda = s.agenda := rfl
@[simp] theorem State.repeatSector_pllAnswers (s : State) : (s.repeatSector).pllAnswers = s.pllAnswers := rfl
@[simp] theorem State.repeatSector_hdBits (s : State) : (s.repeatSector).hdBits = s.hdBits := rfl
@[simp] theorem State.repeatSector_signals (s : State) : (s.repeatSector).signals = s.signals := rfl
@[simp] theorem State.repeatSector_drawn (s : State) : (s.repeatSector).drawn = s.drawn := rfl
@[simp] theorem State.repeatSector_calls (s : State) : (s.repeatSector).calls = s.calls := rfl
@[simp] theorem State.repeatSector_result (s : State) : (s.repeatSector).result = s.result := rfl
@[simp] theorem State.repeatSector_kind (s : State) : (s.repeatSector).kind = s.kind := rfl

/-! ### `State.call` -/

@[simp] theorem State.call_cfg (s : State) (c : Call) : (s.call c).cfg = s.cfg := rfl
@[simp] theorem State.call_buffer (s : State) (c : Call) : (s.call c).buffer = s.buffer := rfl
@[simp] theorem State.call_cursor (s : State) (c : Call) : (s.call c).cursor = s.cursor := rfl
@[simp] theorem State.call_cmd (s : State) (c : Call) : (s.call c).cmd = s.cmd := rfl
@[simp] theorem State.call_busy (s : State) (c : Call) : (s.call c).busy = s.busy := rfl
@[simp] theorem State.call_motor (s : State) (c : Call) : (s.call c).motor = s.motor := rfl
@[simp] theorem State.call_sector (s : State) (c : Call) : (s.call c).sector = s.sector := rfl
@[simp] theorem State.call_byte (s : State) (c : Call) : (s.call c).byte = s.byte := rfl
@[simp] theorem State.call_fdCounter (s : State) (c : Call) : (s.call c).fdCounter = s.fdCounter := rfl
@[simp] theorem State.call_fdLastPulse (s : State) (c : Call) : (s.call c).fdLastPulse = s.fdLastPulse := rfl
@[simp] theorem State.call_hdCounter (s : State) (c : Call) : (s.call c).hdCounter = s.hdCounter := rfl
@[simp] theorem State.call_hdLastPulse (s : State) (c : Call) : (s.call c).hdLastPulse = s.hdLastPulse := rfl
@[simp] theorem State.call_hdPeriod (s : State) (c : Call) : (s.call c).hdPeriod = s.hdPeriod := rfl
@[simp] theorem State.call_pendingBits (s : State) (c : Call) : (s.call c).pendingBits = s.pendingBits := rfl
@[simp] theorem State.call_pendingCount (s : State) (c : Call) : (s.call c).pendingCount = s.pendingCount := rfl
@[simp] theorem State.call_readPos (s : State) (c : Call) : (s.call c).readPos = s.readPos := rfl
@[simp] theorem State.call_idleCount (s : State) (c : Call) : (s.call c).idleCount = s.idleCount := rfl
@[simp] theorem State.call_now (s : State) (c : Call) : (s.call c).now = s.now := rfl
@[simp] theorem State.call_agenda (s : State) (c : Call) : (s.call c).agenda = s.agenda := rfl
@[simp] theorem State.call_pllAnswers (s : State) (c : Call) : (s.call c).pllAnswers = s.pllAnswers := rfl
@[simp] theorem State.call_hdBits (s : State) (c : Call) : (s.call c).hdBits = s.hdBits := rfl
@[simp] theorem State.call_signals (s : State) (c : Call) : (s.call c).signals = s.signals := rfl
@[simp] theorem State.call_drawn (s : State) (c : Call) : (s.call c).drawn = s.drawn := rfl
@[simp] theorem State.call_calls (s : State) (c : Call) : (s.call c).calls = c :: s.calls := rfl
@[simp] theorem State.call_result (s : State) (c : Call) : (s.call c).result = s.result := rfl
@[simp] theorem State.call_kind (s : State) (c : Call) : (s.call c).kind = s.kind := rfl

/-! ### `State.returns` -/

@[simp] theorem State.returns_cfg (s : State) (r : Result) : (s.returns r).cfg = s.cfg := rfl
@[simp] theorem State.returns_buffer (s : State) (r : Result) : (s.returns r).buffer = s.buffer := rfl
@[simp] theorem State.returns_cursor (s : State) (r : Result) : (s.returns r).cursor = s.cursor := rfl
@[simp] theorem State.returns_cmd (s : State) (r : Result) : (s.returns r).cmd = s.cmd := rfl
@[simp] theorem State.returns_busy (s : State) (r : Result) : (s.returns r).busy = s.busy := rfl
@[simp] theorem State.returns_motor (s : State) (r : Result) : (s.returns r).motor = s.motor := rfl
@[simp] theorem State.returns_sector (s : State) (r : Result) : (s.returns r).sector = s.sector := rfl
@[simp] theorem State.returns_byte (s : State) (r : Result) : (s.returns r).byte = s.byte := rfl
@[simp] theorem State.returns_fdCounter (s : State) (r : Result) : (s.returns r).fdCounter = s.fdCounter := rfl
@[simp] theorem State.returns_fdLastPulse (s : State) (r : Result) : (s.returns r).fdLastPulse = s.fdLastPulse := rfl
@[simp] theorem State.returns_hdCounter (s : State) (r : Result) : (s.returns r).hdCounter = s.hdCounter := rfl
@[simp] theorem State.returns_hdLastPulse (s : State) (r : Result) : (s.returns r).hdLastPulse = s.hdLastPulse := rfl
@[simp] theorem State.returns_hdPeriod (s : State) (r : Result) : (s.returns r).hdPeriod = s.hdPeriod := rfl
@[simp] theorem State.returns_pendingBits (s : State) (r : Result) : (s.returns r).pendingBits = s.pendingBits := rfl
@[simp] theorem State.returns_pendingCount (s : State) (r : Result) : (s.returns r).pendingCount = s.pendingCount := rfl
@[simp] theorem State.returns_readPos (s : State) (r : Result) : (s.returns r).readPos = s.readPos := rfl
@[simp] theorem State.returns_idleCount (s : State) (r : Result) : (s.returns r).idleCount = s.idleCount := rfl
@[simp] theorem State.returns_now (s : State) (r : Result) : (s.returns r).now = s.now := rfl
@[simp] theorem State.returns_agenda (s : State) (r : Result) : (s.returns r).agenda = s.agenda := rfl
@[simp] theorem State.returns_pllAnswers (s : State) (r : Result) : (s.returns r).pllAnswers = s.pllAnswers := rfl
@[simp] theorem State.returns_hdBits (s : State) (r : Result) : (s.returns r).hdBits = s.hdBits := rfl
@[simp] theorem State.returns_signals (s : State) (r : Result) : (s.returns r).signals = s.signals := rfl
@[simp] theorem State.returns_drawn (s : State) (r : Result) : (s.returns r).drawn = s.drawn := rfl
@[simp] theorem State.returns_calls (s : State) (r : Result) : (s.returns r).calls = s.calls := rfl
@[simp] theorem State.returns_result (s : State) (r : Result) : (s.returns r).result = r := rfl
@[simp] theorem State.returns_kind (s : State) (r : Result) : (s.returns r).kind = s.kind := rfl

/-! ### `State.accumulate` -/

@[simp] theorem State.accumulate_cfg (s : State) (b : Bool) : (s.accumulate b).cfg = s.cfg := rfl
@[simp] theorem State.accumulate_buffer (s : State) (b : Bool) : (s.accumulate b).buffer = s.buffer := rfl
@[simp] theorem State.accumulate_cursor (s : State) (b : Bool) : (s.accumulate b).cursor = s.cursor := rfl
@[simp] theorem State.accumulate_cmd (s : State) (b : Bool) : (s.accumulate b).cmd = s.cmd := rfl
@[simp] theorem State.accumulate_busy (s : State) (b : Bool) : (s.accumulate b).busy = s.busy := rfl
@[simp] theorem State.accumulate_motor (s : State) (b : Bool) : (s.accumulate b).motor = s.motor := rfl
@[simp] theorem State.accumulate_sector (s : State) (b : Bool) : (s.accumulate b).sector = s.sector := rfl
@[simp] theorem State.accumulate_byte (s : State) (b : Bool) : (s.accumulate b).byte = s.byte := rfl
@[simp] theorem State.accumulate_fdCounter (s : State) (b : Bool) : (s.accumulate b).fdCounter = s.fdCounter := rfl
@[simp] theorem State.accumulate_fdLastPulse (s : State) (b : Bool) : (s.accumulate b).fdLastPulse = s.fdLastPulse := rfl
@[simp] theorem State.accumulate_hdCounter (s : State) (b : Bool) : (s.accumulate b).hdCounter = s.hdCounter := rfl
@[simp] theorem State.accumulate_hdLastPulse (s : State) (b : Bool) : (s.accumulate b).hdLastPulse = s.hdLastPulse := rfl
@[simp] theorem State.accumulate_hdPeriod (s : State) (b : Bool) : (s.accumulate b).hdPeriod = s.hdPeriod := rfl
@[simp] theorem State.accumulate_pendingBits (s : State) (b : Bool) : (s.accumulate b).pendingBits = shiftInBit s.pendingBits b := rfl
@[simp] theorem State.accumulate_pendingCount (s : State) (b : Bool) : (s.accumulate b).pendingCount = s.pendingCount + 1 := rfl
@[simp] theorem State.accumulate_readPos (s : State) (b : Bool) : (s.accumulate b).readPos = s.readPos := rfl
@[simp] theorem State.accumulate_idleCount (s : State) (b : Bool) : (s.accumulate b).idleCount = s.idleCount := rfl
@[simp] theorem State.accumulate_now (s : State) (b : Bool) : (s.accumulate b).now = s.now := rfl
@[simp] theorem State.accumulate_agenda (s : State) (b : Bool) : (s.accumulate b).agenda = s.agenda := rfl
@[simp] theorem State.accumulate_pllAnswers (s : State) (b : Bool) : (s.accumulate b).pllAnswers = s.pllAnswers := rfl
@[simp] theorem State.accumulate_hdBits (s : State) (b : Bool) : (s.accumulate b).hdBits = s.hdBits := rfl
@[simp] theorem State.accumulate_signals (s : State) (b : Bool) : (s.accumulate b).signals = s.signals := rfl
@[simp] theorem State.accumulate_drawn (s : State) (b : Bool) : (s.accumulate b).drawn = s.drawn := rfl
@[simp] theorem State.accumulate_calls (s : State) (b : Bool) : (s.accumulate b).calls = s.calls := rfl
@[simp] theorem State.accumulate_result (s : State) (b : Bool) : (s.accumulate b).result = s.result := rfl
@[simp] theorem State.accumulate_kind (s : State) (b : Bool) : (s.accumulate b).kind = s.kind := rfl

/-! ### `State.advanceTo` -/

@[simp] theorem State.advanceTo_cfg (s : State) (t : Nat) : (s.advanceTo t).cfg = s.cfg := rfl
@[simp] theorem State.advanceTo_buffer (s : State) (t : Nat) : (s.advanceTo t).buffer = s.buffer := rfl
@[simp] theorem State.advanceTo_cursor (s : State) (t : Nat) : (s.advanceTo t).cursor = s.cursor := rfl
@[simp] theorem State.advanceTo_cmd (s : State) (t : Nat) : (s.advanceTo t).cmd = s.cmd := rfl
@[simp] theorem State.advanceTo_busy (s : State) (t : Nat) : (s.advanceTo t).busy = s.busy := rfl
@[simp] theorem State.advanceTo_motor (s : State) (t : Nat) : (s.advanceTo t).motor = s.motor := rfl
@[simp] theorem State.advanceTo_sector (s : State) (t : Nat) : (s.advanceTo t).sector = s.sector := rfl
@[simp] theorem State.advanceTo_byte (s : State) (t : Nat) : (s.advanceTo t).byte = s.byte := rfl
@[simp] theorem State.advanceTo_fdCounter (s : State) (t : Nat) : (s.advanceTo t).fdCounter = s.fdCounter := rfl
@[simp] theorem State.advanceTo_fdLastPulse (s : State) (t : Nat) : (s.advanceTo t).fdLastPulse = s.fdLastPulse := rfl
@[simp] theorem State.advanceTo_hdCounter (s : State) (t : Nat) : (s.advanceTo t).hdCounter = s.hdCounter := rfl
@[simp] theorem State.advanceTo_hdLastPulse (s : State) (t : Nat) : (s.advanceTo t).hdLastPulse = s.hdLastPulse := rfl
@[simp] theorem State.advanceTo_hdPeriod (s : State) (t : Nat) : (s.advanceTo t).hdPeriod = s.hdPeriod := rfl
@[simp] theorem State.advanceTo_pendingBits (s : State) (t : Nat) : (s.advanceTo t).pendingBits = s.pendingBits := rfl
@[simp] theorem State.advanceTo_pendingCount (s : State) (t : Nat) : (s.advanceTo t).pendingCount = s.pendingCount := rfl
@[simp] theorem State.advanceTo_readPos (s : State) (t : Nat) : (s.advanceTo t).readPos = s.readPos := rfl
@[simp] theorem State.advanceTo_idleCount (s : State) (t : Nat) : (s.advanceTo t).idleCount = s.idleCount := rfl
@[simp] theorem State.advanceTo_now (s : State) (t : Nat) : (s.advanceTo t).now = max s.now t := rfl
@[simp] theorem State.advanceTo_agenda (s : State) (t : Nat) : (s.advanceTo t).agenda = s.agenda := rfl
@[simp] theorem State.advanceTo_pllAnswers (s : State) (t : Nat) : (s.advanceTo t).pllAnswers = s.pllAnswers := rfl
@[simp] theorem State.advanceTo_hdBits (s : State) (t : Nat) : (s.advanceTo t).hdBits = s.hdBits := rfl
@[simp] theorem State.advanceTo_signals (s : State) (t : Nat) : (s.advanceTo t).signals = s.signals := rfl
@[simp] theorem State.advanceTo_drawn (s : State) (t : Nat) : (s.advanceTo t).drawn = s.drawn := rfl
@[simp] theorem State.advanceTo_calls (s : State) (t : Nat) : (s.advanceTo t).calls = s.calls := rfl
@[simp] theorem State.advanceTo_result (s : State) (t : Nat) : (s.advanceTo t).result = s.result := rfl
@[simp] theorem State.advanceTo_kind (s : State) (t : Nat) : (s.advanceTo t).kind = s.kind := rfl

/-! ### `State.dropStimulus` -/

@[simp] theorem State.dropStimulus_cfg (s : State) (i : Nat) : (s.dropStimulus i).cfg = s.cfg := rfl
@[simp] theorem State.dropStimulus_buffer (s : State) (i : Nat) : (s.dropStimulus i).buffer = s.buffer := rfl
@[simp] theorem State.dropStimulus_cursor (s : State) (i : Nat) : (s.dropStimulus i).cursor = s.cursor := rfl
@[simp] theorem State.dropStimulus_cmd (s : State) (i : Nat) : (s.dropStimulus i).cmd = s.cmd := rfl
@[simp] theorem State.dropStimulus_busy (s : State) (i : Nat) : (s.dropStimulus i).busy = s.busy := rfl
@[simp] theorem State.dropStimulus_motor (s : State) (i : Nat) : (s.dropStimulus i).motor = s.motor := rfl
@[simp] theorem State.dropStimulus_sector (s : State) (i : Nat) : (s.dropStimulus i).sector = s.sector := rfl
@[simp] theorem State.dropStimulus_byte (s : State) (i : Nat) : (s.dropStimulus i).byte = s.byte := rfl
@[simp] theorem State.dropStimulus_fdCounter (s : State) (i : Nat) : (s.dropStimulus i).fdCounter = s.fdCounter := rfl
@[simp] theorem State.dropStimulus_fdLastPulse (s : State) (i : Nat) : (s.dropStimulus i).fdLastPulse = s.fdLastPulse := rfl
@[simp] theorem State.dropStimulus_hdCounter (s : State) (i : Nat) : (s.dropStimulus i).hdCounter = s.hdCounter := rfl
@[simp] theorem State.dropStimulus_hdLastPulse (s : State) (i : Nat) : (s.dropStimulus i).hdLastPulse = s.hdLastPulse := rfl
@[simp] theorem State.dropStimulus_hdPeriod (s : State) (i : Nat) : (s.dropStimulus i).hdPeriod = s.hdPeriod := rfl
@[simp] theorem State.dropStimulus_pendingBits (s : State) (i : Nat) : (s.dropStimulus i).pendingBits = s.pendingBits := rfl
@[simp] theorem State.dropStimulus_pendingCount (s : State) (i : Nat) : (s.dropStimulus i).pendingCount = s.pendingCount := rfl
@[simp] theorem State.dropStimulus_readPos (s : State) (i : Nat) : (s.dropStimulus i).readPos = s.readPos := rfl
@[simp] theorem State.dropStimulus_idleCount (s : State) (i : Nat) : (s.dropStimulus i).idleCount = s.idleCount := rfl
@[simp] theorem State.dropStimulus_now (s : State) (i : Nat) : (s.dropStimulus i).now = s.now := rfl
@[simp] theorem State.dropStimulus_agenda (s : State) (i : Nat) : (s.dropStimulus i).agenda = s.agenda.eraseIdx i := rfl
@[simp] theorem State.dropStimulus_pllAnswers (s : State) (i : Nat) : (s.dropStimulus i).pllAnswers = s.pllAnswers := rfl
@[simp] theorem State.dropStimulus_hdBits (s : State) (i : Nat) : (s.dropStimulus i).hdBits = s.hdBits := rfl
@[simp] theorem State.dropStimulus_signals (s : State) (i : Nat) : (s.dropStimulus i).signals = s.signals := rfl
@[simp] theorem State.dropStimulus_drawn (s : State) (i : Nat) : (s.dropStimulus i).drawn = s.drawn := rfl
@[simp] theorem State.dropStimulus_calls (s : State) (i : Nat) : (s.dropStimulus i).calls = s.calls := rfl
@[simp] theorem State.dropStimulus_result (s : State) (i : Nat) : (s.dropStimulus i).result = s.result := rfl
@[simp] theorem State.dropStimulus_kind (s : State) (i : Nat) : (s.dropStimulus i).kind = s.kind := rfl

/-! ### The drive kind -/

/-- The drive kind is read from the configuration and CommandState alone (rule R13). -/
theorem State.kind_congr (s t : State) (hcfg : t.cfg = s.cfg) (hcmd : t.cmd = s.cmd) : t.kind = s.kind := by
  simp [State.kind, hcfg, hcmd]

/-- The hard disk is selected exactly when it is attached and drive 0 is selected (rule R12). -/
theorem State.kind_eq_hd (s : State) :
    s.kind = .hd ↔ s.cfg.hdAttached = true ∧ s.cmd.selectedDrive = 0 := by
  simp only [State.kind]
  split <;> simp_all

/-- A floppy is selected exactly when the hard disk is not. -/
theorem State.kind_eq_fd (s : State) : s.kind = .fd ↔ ¬ s.kind = .hd := by
  cases s.kind <;> simp

end Sys2Proof.Machine
end

