-- ==== Sys2Proof/Laws/Memory.lean ====
section
/-! SUPPORT. The laws of the staging buffer: what a write changes, and that every buffer operation keeps the canonical
form. -/

namespace Sys2Proof.Machine

/-- A read after a write to the same index gives the byte written. -/
theorem cellAt_putCell_same (cells : List Host.Cell) (i : Nat) (v : Byte) :
    cellAt (putCell cells i v) i = some v := by
  induction cells with
  | nil => simp [putCell, cellAt]
  | cons c rest ih =>
    obtain ⟨a, w⟩ := c
    simp only [putCell]
    split
    · simp [cellAt]
    · split
      · simp [cellAt]
      · have : ¬ a = i := fun h => by simp_all
        simp [cellAt, this, ih]

/-- A write leaves every other index alone. -/
theorem cellAt_putCell_other (cells : List Host.Cell) (i j : Nat) (v : Byte) (h : j ≠ i) :
    cellAt (putCell cells i v) j = cellAt cells j := by
  induction cells with
  | nil => simp [putCell, cellAt, Ne.symm h]
  | cons c rest ih =>
    obtain ⟨a, w⟩ := c
    simp only [putCell]
    split
    · simp [cellAt, Ne.symm h]
    · split
      · subst_vars; simp [cellAt, Ne.symm h]
      · simp only [cellAt, ih]

/-- What a read gives after a write, at every index. -/
theorem byteAt_putCell (cells : List Host.Cell) (i j : Nat) (v : Byte) :
    byteAt (putCell cells i v) j = if j = i then v else byteAt cells j := by
  by_cases h : j = i
  · subst h; simp [byteAt, cellAt_putCell_same]
  · simp [byteAt, cellAt_putCell_other _ _ _ _ h, h]

/-- A write at a listed index of a rising list changes no index. -/
theorem putCell_keys (cells : List Host.Cell) (i : Nat) (v : Byte)
    (hs : (cells.map Prod.fst).Pairwise (· < ·)) (hi : i ∈ cells.map Prod.fst) :
    (putCell cells i v).map Prod.fst = cells.map Prod.fst := by
  induction cells with
  | nil => simp at hi
  | cons c rest ih =>
    obtain ⟨a, w⟩ := c
    simp only [List.map_cons, List.pairwise_cons, List.mem_cons] at hs hi
    simp only [putCell]
    split
    · rename_i hlt
      rcases hi with rfl | hi
      · exact absurd hlt (lt_irrefl _)
      · exact absurd (hs.1 _ hi) (by omega)
    · split
      · simp_all
      · rename_i h1 h2
        rcases hi with rfl | hi
        · exact absurd rfl h2
        · simp [ih hs.2 hi]

/-- A write inside the buffer keeps the canonical form. -/
theorem bufferWf_putCell (len : Nat) (cells : List Host.Cell) (i : Nat) (v : Byte)
    (h : Memory.wf len cells = true) (hi : i < len) : Memory.wf len (putCell cells i v) = true := by
  simp only [Memory.wf, decide_eq_true_eq] at h ⊢
  rw [putCell_keys _ _ _ (by rw [h]; exact List.pairwise_lt_range) (by rw [h]; simpa using hi), h]

/-- `MemWrite` keeps the canonical form of a buffer that has any byte. -/
theorem State.memWrite_bufferOk (s : State) (i : Nat) (v : Byte) (h : s.bufferOk = true)
    (hlen : 0 < s.cfg.bufLen) : (s.memWrite i v).bufferOk = true := by
  simp only [State.bufferOk, State.memWrite_buffer, State.memWrite_cfg] at h ⊢
  exact bufferWf_putCell _ _ _ _ h (Nat.mod_lt _ hlen)

/-- The power-on buffer has the canonical form (rule R196). -/
theorem powerOnBuffer_wf (len : Nat) : Memory.wf len (powerOnBuffer len) = true := by
  simp [Memory.wf, powerOnBuffer, Function.comp_def]

/-- The machine right after power-on has a buffer in the canonical form. -/
theorem State.reset_bufferOk : State.reset.bufferOk = true := by
  simp only [State.bufferOk, State.reset, powerOnBuffer_wf]

/-- What a read gives after bytes were cleared, at every index (rule R122). -/
theorem byteAt_zeroCells (cells : List Host.Cell) (l : List Nat) (a : Nat) :
    byteAt (zeroCells cells l) a = if a ∈ l then 0 else byteAt cells a := by
  induction l generalizing cells with
  | nil => simp [zeroCells]
  | cons i rest ih =>
    simp only [zeroCells, ih, byteAt_putCell, List.mem_cons]
    by_cases h1 : a ∈ rest <;> by_cases h2 : a = i <;> simp_all

/-- Clearing bytes inside the buffer keeps the canonical form. -/
theorem bufferWf_zeroCells (len : Nat) (cells : List Host.Cell) (l : List Nat) (h : Memory.wf len cells = true)
    (hl : ∀ i ∈ l, i < len) : Memory.wf len (zeroCells cells l) = true := by
  induction l generalizing cells with
  | nil => exact h
  | cons i rest ih =>
    exact ih _ (bufferWf_putCell _ _ _ _ h (hl i (by simp))) fun j hj => hl j (by simp [hj])

/-- The forced completion keeps the canonical form. -/
theorem State.complete_bufferOk (s : State) (h : s.bufferOk = true) (hlen : 0 < s.cfg.bufLen) :
    s.complete.bufferOk = true := by
  simp only [State.bufferOk, State.complete]
  split
  · refine bufferWf_zeroCells _ _ _ h ?_
    simp only [List.mem_map]
    rintro i ⟨j, -, rfl⟩
    exact Nat.mod_lt _ hlen
  · exact h

end Sys2Proof.Machine
end

