-- ==== Sys2Proof/Laws/Ops.lean ====
section
/-! SUPPORT. What each shared operation can do, said once. -/

namespace Sys2Proof.Machine

/-! ### Draws -/

/-- A status answer changes only the inputs and the draw counter. -/
theorem State.drawSignal_frame (s : State) :
    ∃ l n, s.drawSignal.2 = { s with signals := l, drawn := n } := by
  unfold State.drawSignal
  split
  · exact ⟨_, s.drawn, rfl⟩
  · exact ⟨s.signals, _, rfl⟩

/-- A hard-disk bit changes only the inputs and the draw counter. -/
theorem State.drawHdBit_frame (s : State) :
    ∃ l n, s.drawHdBit.2 = { s with hdBits := l, drawn := n } := by
  unfold State.drawHdBit
  split
  · exact ⟨_, s.drawn, rfl⟩
  · exact ⟨s.hdBits, _, rfl⟩

/-- An adapter answer changes only the inputs and the draw counter. -/
theorem State.drawPll_frame (s : State) :
    ∃ l n, s.drawPll.2 = { s with pllAnswers := l, drawn := n } := by
  unfold State.drawPll
  split
  · exact ⟨_, s.drawn, rfl⟩
  · exact ⟨s.pllAnswers, _, rfl⟩

/-- An admitted bit lies after the reference and not after the deadline (rule R98). -/
theorem lawfulAnswer_some {ref deadline : Nat} {a : Option (Bool × Nat)} {b : Bool} {t : Nat}
    (h : lawfulAnswer ref deadline a = some (b, t)) : ref < t ∧ t ≤ deadline := by
  unfold lawfulAnswer at h
  split at h
  · split at h
    · simp only [Option.some.injEq, Prod.mk.injEq] at h
      obtain ⟨rfl, rfl⟩ := h
      assumption
    · simp at h
  · simp at h

/-! ### The read primitive -/

/-- Everything a request for a code bit can do (rule R98, rule R101, rule R102): it changes only the read position, the
inputs, the draw counter and the calls; without a bit it leaves the read position; a bit's time is at most the deadline,
and after the read position unless the hard disk's half-cell is 0. Every call made is one whose deadline or start is within
the deadline. -/
theorem State.nextCodeBit_cases (s : State) (k : Kind) (d : Nat) :
    (∃ p h n cs, s.nextCodeBit k d = (none, { s with pllAnswers := p, hdBits := h, drawn := n, calls := cs ++ s.calls }) ∧
      ∀ c ∈ cs, ∃ slot ref a, c = .pllNextBit slot ref d a) ∨
    (∃ b r p h n cs, s.nextCodeBit k d =
        (some b, { s with readPos := r, pllAnswers := p, hdBits := h, drawn := n, calls := cs ++ s.calls }) ∧
      s.readPos ≤ r ∧ r ≤ d ∧ (k = .fd ∨ 0 < s.cfg.hdHalfCell → s.readPos < r) ∧
      ∀ c ∈ cs, (∃ slot ref a, c = .pllNextBit slot ref d a) ∨ (∃ t a, c = .hdReadBit t a ∧ t + s.cfg.hdHalfCell ≤ d)) := by
  cases k with
  | fd =>
    obtain ⟨l, n, hl⟩ := s.drawPll_frame
    simp only [State.nextCodeBit, State.pllNextBit]
    cases ha : lawfulAnswer s.readPos d s.drawPll.1 with
    | none =>
      refine .inl ⟨l, s.hdBits, n, [.pllNextBit s.cmd.selectedDrive s.readPos d none], ?_, by simp⟩
      simp only [hl]; rfl
    | some bt =>
      obtain ⟨b, t⟩ := bt
      have := lawfulAnswer_some ha
      refine .inr ⟨b, t, l, s.hdBits, n, [.pllNextBit s.cmd.selectedDrive s.readPos d (some (b, t))], ?_,
        by omega, by omega, fun _ => by omega, by simp⟩
      simp only [hl]; rfl
  | hd =>
    simp only [State.nextCodeBit]
    split
    · exact .inl ⟨s.pllAnswers, s.hdBits, s.drawn, [], rfl, by simp⟩
    · obtain ⟨l, n, hl⟩ := s.drawHdBit_frame
      refine .inr ⟨s.hdNextBit.1, s.readPos + s.cfg.hdHalfCell, s.pllAnswers, l, n,
        [.hdReadBit s.readPos s.drawHdBit.1], ?_, by omega, by omega, ?_, ?_⟩
      · simp only [State.hdNextBit, hl]; rfl
      · rintro (h | h)
        · cases h
        · omega
      · simp only [List.mem_singleton]
        rintro c rfl
        exact .inr ⟨_, _, rfl, by omega⟩

/-! ### The sync search -/

/-- Everything a sync search can do (rule R119): it changes only the read position, the inputs, the draw counter and the
calls; the read position never goes back and never passes the deadline; no call asks beyond the deadline (rule R103). -/
theorem syncLoop_frame (k : Kind) (d : Nat) (pat : Code) (fuel : Nat) (reg : Code) (n : Nat) (s : State) :
    ∃ r p h m cs, (syncLoop k d pat fuel reg n s).2 =
        { s with readPos := r, pllAnswers := p, hdBits := h, drawn := m, calls := cs ++ s.calls } ∧
      s.readPos ≤ r ∧ r ≤ max s.readPos d ∧
      ∀ c ∈ cs, (∃ slot ref a, c = .pllNextBit slot ref d a) ∨ (∃ t a, c = .hdReadBit t a ∧ t + s.cfg.hdHalfCell ≤ d) := by
  induction fuel generalizing reg n s with
  | zero => exact ⟨s.readPos, s.pllAnswers, s.hdBits, s.drawn, [], rfl, le_rfl, le_max_left _ _, by simp⟩
  | succ fuel ih =>
    simp only [syncLoop]
    rcases s.nextCodeBit_cases k d with ⟨p, h, m, cs, he, hc⟩ | ⟨b, r, p, h, m, cs, he, h1, h2, -, hc⟩
    · rw [he]
      exact ⟨s.readPos, p, h, m, cs, rfl, le_rfl, le_max_left _ _, fun c hmem => .inl (hc c hmem)⟩
    · rw [he]
      simp only
      split
      · exact ⟨r, p, h, m, cs, rfl, h1, le_trans h2 (le_max_right _ _), hc⟩
      · obtain ⟨r', p', h', m', cs', he', h1', h2', hc'⟩ := ih (shiftInBit reg b) (n + 1)
          { s with readPos := r, pllAnswers := p, hdBits := h, drawn := m, calls := cs ++ s.calls }
        refine ⟨r', p', h', m', cs' ++ cs, by rw [he']; simp, ?_, ?_, ?_⟩
        · exact le_trans h1 h1'
        · exact le_trans h2' (by simp only; omega)
        intro c hmem
        rcases List.mem_append.mp hmem with hm | hm
        · exact hc' c hm
        · exact hc c hm

/-- A bit makes the search's distance to the deadline smaller, so the fuel of `State.syncSearch` is never used up: any two
fuels above the distance give the same search (log entry 13). -/
theorem syncLoop_fuel (k : Kind) (d : Nat) (pat : Code) (f g : Nat) (reg : Code) (n : Nat) (s : State)
    (hk : k = .fd ∨ 0 < s.cfg.hdHalfCell) (hf : d - s.readPos < f) (hg : d - s.readPos < g) :
    syncLoop k d pat f reg n s = syncLoop k d pat g reg n s := by
  induction f generalizing g reg n s with
  | zero => omega
  | succ f ih =>
    cases g with
    | zero => omega
    | succ g =>
      simp only [syncLoop]
      rcases s.nextCodeBit_cases k d with ⟨p, h, m, cs, he, hc⟩ | ⟨b, r, p, h, m, cs, he, h1, h2, h3, hc⟩
      · rw [he]
      · rw [he]
        simp only
        split
        · rfl
        · have := h3 hk
          exact ih g _ _ _ hk (by simp; omega) (by simp; omega)

/-! ### The read path of the byte-transfer engine -/

/-- The induction of the read loop (rule R156), once: what every bit and every stored byte keeps, and what then holds of a
suspension and of a wait for the byte's end, holds of the state the loop ends in. With a fuel above twice the distance to the
horizon the fuel runs out only where a hard-disk bit takes no time (log entry 13). -/
theorem readLoop_induction (k : Kind) (horizon : Nat) (P Q : State → Prop)
    (hbit : ∀ s b s', P s → s.pendingCount < 16 → s.nextCodeBit k horizon = (some b, s') → P (s'.accumulate b))
    (hstore : ∀ s, P s → 16 ≤ s.pendingCount → s.readPos ≤ s.now → P s.storeByte)
    (hnone : ∀ s s', P s → s.pendingCount < 16 → s.nextCodeBit k horizon = (none, s') → Q (s'.scheduleByte horizon))
    (hwait : ∀ s, P s → 16 ≤ s.pendingCount → s.now < s.readPos → Q (s.scheduleByte s.readPos))
    (hfuel : ∀ s, P s → ¬ (k = .fd ∨ 0 < s.cfg.hdHalfCell) → Q (s.scheduleByte horizon)) (fuel : Nat) (s : State)
    (hf : 2 * (horizon - s.readPos) + (if 16 ≤ s.pendingCount then 1 else 0) < fuel ∨
      ¬ (k = .fd ∨ 0 < s.cfg.hdHalfCell)) (h : P s) :
    Q (readLoop k horizon fuel s) := by
  induction fuel generalizing s with
  | zero => exact hfuel s h (by tauto)
  | succ fuel ih =>
    simp only [readLoop]
    split
    · rename_i hc
      rcases s.nextCodeBit_cases k horizon with ⟨p, b, m, cs, he, -⟩ | ⟨b, r, p, bs, m, cs, he, h1, h2, h3, -⟩
      · rw [he]
        exact hnone s _ h hc he
      · rw [he]
        refine ih _ ?_ (hbit s b _ h hc he)
        rcases hf with hf | hf
        · refine or_iff_not_imp_right.mpr fun hk => ?_
          have := h3 (not_not.mp hk)
          rw [if_neg (by omega)] at hf
          change 2 * (horizon - r) + (if 16 ≤ s.pendingCount + 1 then 1 else 0) < fuel
          split <;> omega
        · exact .inr hf
    · split
      · exact hwait s h (by omega) (by assumption)
      · refine ih _ (hf.imp_left fun hf => ?_) (hstore s h (by omega) (by omega))
        rw [if_pos (by omega)] at hf
        have hr : s.storeByte.readPos = s.readPos := rfl
        have hc : s.storeByte.pendingCount = 0 := rfl
        rw [hr, hc, if_neg (by omega)]
        omega

/-- The fuel of `State.readByteFire` is above twice the distance to the horizon. -/
theorem readByteFire_fuel (d : Nat) (s : State) :
    2 * (d - s.readPos) + (if 16 ≤ s.pendingCount then 1 else 0) < 2 * (d - s.readPos) + 2 := by
  split <;> omega

/-- A bit moves the read position on and a store is followed by bits, so the fuel of `State.readByteFire` is never used up: any
two fuels above twice the distance to the horizon give the same state (log entry 13). -/
theorem readLoop_fuel (k : Kind) (d : Nat) (f g : Nat) (s : State) (hk : k = .fd ∨ 0 < s.cfg.hdHalfCell)
    (hf : 2 * (d - s.readPos) + (if 16 ≤ s.pendingCount then 1 else 0) < f)
    (hg : 2 * (d - s.readPos) + (if 16 ≤ s.pendingCount then 1 else 0) < g) :
    readLoop k d f s = readLoop k d g s := by
  induction f generalizing g s with
  | zero => omega
  | succ f ih =>
    cases g with
    | zero => omega
    | succ g =>
      simp only [readLoop]
      split
      · rcases s.nextCodeBit_cases k d with ⟨p, h, m, cs, he, hc⟩ | ⟨b, r, p, h, m, cs, he, h1, h2, h3, hc⟩
        · rw [he]
        · rw [he]
          have := h3 hk
          refine ih g _ hk ?_ ?_ <;> simp <;> split at hf <;> split <;> omega
      · split
        · rfl
        · have : 16 ≤ s.pendingCount := by omega
          rw [if_pos this] at hf hg
          refine ih g _ hk ?_ ?_ <;> simp [State.storeByte] <;> omega

/-! ### Completion and the calls on the drives -/

/-- The forced completion changes only the busy flag, the byte timer and the buffer (rule R121). -/
theorem State.complete_frame (s : State) :
    ∃ b, s.complete = { s with buffer := b, byte := none, busy := false } := ⟨_, rfl⟩

/-- What a read gives after the forced completion: 0 in the ECC field of a hard-disk read with ECC requested, else what it
gave before (rule R121, rule R122). -/
theorem State.complete_byteAt (s : State) (a : Nat) :
    byteAt s.complete.buffer a =
      if s.clearsEcc = true ∧ a ∈ (eccFieldAt s.cfg s.cursor).map (· % s.cfg.bufLen) then 0 else byteAt s.buffer a := by
  simp only [State.complete]
  by_cases h : s.clearsEcc = true
  · simp only [h, if_true, State.clearEcc, byteAt_zeroCells, true_and]
  · simp [h]

/-- Turning motors on or off only makes calls (rule R133, rule R184). -/
theorem State.setMotors_frame (s : State) (on : Bool) : ∃ cs, s.setMotors on = { s with calls := cs } := ⟨_, rfl⟩

/-- Forwarding the head and step lines only makes calls (rule R134). -/
theorem State.forwardHeadStep_frame (s : State) (data : Byte) :
    ∃ cs, s.forwardHeadStep data = { s with calls := cs } := ⟨_, rfl⟩

/-- Emitting the pending code only makes calls (rule R162). -/
theorem State.emitPending_frame (s : State) (k : Kind) : ∃ cs, s.emitPending k = { s with calls := cs } := ⟨_, rfl⟩

/-! ### Starting a read, and acting on an increment -/

/-- Making ready for a read only makes calls and sets the read position to the present (rule R118). -/
theorem State.beginRead_frame (s : State) :
    ∃ cs, s.beginRead = { s with readPos := s.now, calls := cs ++ s.calls } := by
  unfold State.beginRead
  split
  · exact ⟨[_, _], rfl⟩
  · exact ⟨[], rfl⟩

/-- Everything a read start can do (rule R118, rule R120): it changes only the byte timer, the read position, the inputs, the
draw counter and the calls; the byte timer is armed at the read position or left alone. -/
theorem State.readStart_cases (s : State) :
    ∃ r p h m cs, s.now ≤ r ∧
      (s.readStart = { s with byte := some r, readPos := r, pllAnswers := p, hdBits := h, drawn := m, calls := cs ++ s.calls } ∨
       s.readStart = { s with readPos := r, pllAnswers := p, hdBits := h, drawn := m, calls := cs ++ s.calls }) := by
  obtain ⟨cs0, h0⟩ := s.beginRead_frame
  unfold State.readStart State.syncSearch
  rw [h0]
  obtain ⟨r, p, h, m, cs, he, h1, -, -⟩ := syncLoop_frame s.kind
    ({ s with readPos := s.now, calls := cs0 ++ s.calls }.syncDeadline s.kind) (syncPattern s.cfg s.kind)
    ({ s with readPos := s.now, calls := cs0 ++ s.calls }.syncDeadline s.kind - s.now + 1) 0 0
    { s with readPos := s.now, calls := cs0 ++ s.calls }
  refine ⟨r, p, h, m, cs ++ cs0, h1, ?_⟩
  split
  · rename_i s' hs
    simp only [hs] at he
    subst he
    exact .inl (by simp [State.scheduleByte])
  · rename_i s' hs
    simp only [hs] at he
    subst he
    exact .inr (by simp [State.syncFail])

/-- Everything a sector match can do (rule R116). -/
theorem State.sectorMatch_cases (s : State) :
    ∃ r p h m cs byte, s.sectorMatch =
        { s with idleCount := none, pendingBits := 0, pendingCount := 0, byte := byte, readPos := r, pllAnswers := p,
                 hdBits := h, drawn := m, calls := cs ++ s.calls } ∧
      (byte = s.byte ∨ ∃ t, byte = some t ∧ s.now ≤ t) := by
  unfold State.sectorMatch
  split
  · obtain ⟨r, p, h, m, cs, hr, he | he⟩ :=
      State.readStart_cases { s with idleCount := none, pendingBits := 0, pendingCount := 0 }
    · exact ⟨r, p, h, m, cs, some r, by simp only [he], .inr ⟨r, rfl, hr⟩⟩
    · exact ⟨r, p, h, m, cs, s.byte, by simp only [he], .inl rfl⟩
  · exact ⟨s.readPos, s.pllAnswers, s.hdBits, s.drawn, [], some s.now, rfl, .inr ⟨_, rfl, le_rfl⟩⟩

/-- The idle release changes only the idle count and the busy flag, which it never sets (rule R124). -/
theorem State.idleTick_cases (s : State) :
    ∃ n b, s.idleTick = { s with idleCount := n, busy := b } ∧ (b = true → s.busy = true) := by
  unfold State.idleTick
  split
  · exact ⟨s.idleCount, s.busy, rfl, id⟩
  · exact ⟨_, _, rfl, by simp_all⟩

/-- Everything an increment can lead to (rule R115): the forced completion, the sector match, the idle tick, or nothing. -/
theorem State.afterIncrement_cases (s : State) :
    (s.busy = true ∧ s.transferActive = true ∧ s.afterIncrement = s.complete) ∨
    (s.busy = true ∧ s.byte = none ∧ s.counter = s.cmd.targetSector.toNat ∧ s.afterIncrement = s.sectorMatch) ∨
    (s.busy = true ∧ s.byte = none ∧ s.afterIncrement = s.idleTick) ∨
    s.afterIncrement = s := by
  unfold State.afterIncrement
  by_cases hb : s.busy = true <;> by_cases ht : s.transferActive = true <;>
    by_cases hc : s.counter = s.cmd.targetSector.toNat <;> by_cases hr : s.cfg.idleRelease = .oneRevolution <;>
    simp_all [State.transferActive]

end Sys2Proof.Machine
end

