-- ==== Sys2Proof/Laws/Exec.lean ====
section
/-! SUPPORT. What a meaning can do, said once: every operation completes, and none changes the configuration, the time or the
agenda. -/

namespace Sys2Proof.Machine

/-- Every operation completes (rule R175). -/
theorem exec_next (i : Instr) (s : State) : ∃ t, exec i s = .next t := by
  cases i <;> exact ⟨_, rfl⟩

/-- Everything an increment can change (rule R115). It never sets the busy flag, keeps the buffer's form, and leaves `BYTE` and
the busy flag alone, or `BYTE` disarmed, or `BYTE` armed with the operation still busy. -/
theorem State.afterIncrement_frame (s : State) :
    ∃ buffer byte busy idle bits count pos p h m cs,
      s.afterIncrement = { s with
        buffer := buffer, byte := byte, busy := busy, idleCount := idle, pendingBits := bits, pendingCount := count,
        readPos := pos, pllAnswers := p, hdBits := h, drawn := m, calls := cs } ∧
      (busy = true → s.busy = true) ∧
      (s.bufferOk = true → 0 < s.cfg.bufLen → Memory.wf s.cfg.bufLen buffer = true) ∧
      (count = s.pendingCount ∨ count = 0) ∧
      ((byte = s.byte ∧ busy = s.busy) ∨ byte = none ∨ (busy = true ∧ ∃ t, byte = some t ∧ s.now ≤ t)) := by
  rcases s.afterIncrement_cases with ⟨-, -, h⟩ | ⟨h1, -, -, h⟩ | ⟨-, h2, h⟩ | h
  · rw [h]
    exact ⟨s.complete.buffer, none, false, s.idleCount, s.pendingBits, s.pendingCount, s.readPos, s.pllAnswers, s.hdBits,
      s.drawn, s.calls, rfl, by simp, fun h3 h4 => s.complete_bufferOk h3 h4, .inl rfl, .inr (.inl rfl)⟩
  · rw [h]
    obtain ⟨r, p, hb, m, cs, bt, he, hbt⟩ := s.sectorMatch_cases
    rw [he]
    refine ⟨s.buffer, bt, s.busy, none, 0, 0, r, p, hb, m, cs ++ s.calls, rfl, id, fun h _ => h, .inr rfl, ?_⟩
    rcases hbt with rfl | ⟨t, ht, hn⟩
    · exact .inl ⟨rfl, rfl⟩
    · exact .inr (.inr ⟨h1, t, ht, hn⟩)
  · rw [h]
    obtain ⟨n, b, he, hb⟩ := s.idleTick_cases
    rw [he]
    exact ⟨s.buffer, s.byte, b, n, s.pendingBits, s.pendingCount, s.readPos, s.pllAnswers, s.hdBits, s.drawn, s.calls, rfl, hb,
      fun h _ => h, .inl rfl, .inr (.inl h2)⟩
  · rw [h]
    exact ⟨s.buffer, s.byte, s.busy, s.idleCount, s.pendingBits, s.pendingCount, s.readPos, s.pllAnswers, s.hdBits, s.drawn,
      s.calls, rfl, id, fun h _ => h, .inl rfl, .inl ⟨rfl, rfl⟩⟩

/-- Everything a read firing can change (rule R156). -/
theorem State.readByteFire_frame (s : State) (k : Kind) :
    ∃ buffer cursor bits count pos p h m cs byte,
      s.readByteFire k = { s with
        buffer := buffer, cursor := cursor, byte := byte, pendingBits := bits, pendingCount := count, readPos := pos,
        pllAnswers := p, hdBits := h, drawn := m, calls := cs } := by
  unfold State.readByteFire
  refine readLoop_induction k (s.now + byteTime s.cfg k)
    (P := fun u => ∃ buffer cursor bits count pos p h m cs, u = { s with
      buffer := buffer, cursor := cursor, pendingBits := bits, pendingCount := count, readPos := pos,
      pllAnswers := p, hdBits := h, drawn := m, calls := cs })
    (Q := fun u => ∃ buffer cursor bits count pos p h m cs byte, u = { s with
      buffer := buffer, cursor := cursor, byte := byte, pendingBits := bits, pendingCount := count, readPos := pos,
      pllAnswers := p, hdBits := h, drawn := m, calls := cs })
    ?_ ?_ ?_ ?_ ?_ _ s (.inl (readByteFire_fuel _ s))
    ⟨s.buffer, s.cursor, s.pendingBits, s.pendingCount, s.readPos, s.pllAnswers, s.hdBits, s.drawn, s.calls, rfl⟩
  · rintro u b u' ⟨buffer, cur, pb, pc, r, p, h, m, cs, rfl⟩ - hn
    rcases State.nextCodeBit_cases _ k (s.now + byteTime s.cfg k) with
      ⟨p', h', m', cs', he, -⟩ | ⟨b', r', p', h', m', cs', he, -⟩
    · rw [he] at hn
      simp at hn
    · rw [he] at hn
      simp only [Prod.mk.injEq, Option.some.injEq] at hn
      obtain ⟨-, rfl⟩ := hn
      exact ⟨buffer, cur, _, _, r', p', h', m', _, rfl⟩
  · rintro u ⟨buffer, cur, pb, pc, r, p, h, m, cs, rfl⟩ - -
    exact ⟨_, _, 0, 0, r, p, h, m, cs, rfl⟩
  · rintro u u' ⟨buffer, cur, pb, pc, r, p, h, m, cs, rfl⟩ - hn
    rcases State.nextCodeBit_cases _ k (s.now + byteTime s.cfg k) with
      ⟨p', h', m', cs', he, -⟩ | ⟨b', r', p', h', m', cs', he, -⟩
    · rw [he] at hn
      simp only [Prod.mk.injEq, true_and] at hn
      subst hn
      exact ⟨buffer, cur, pb, pc, r, p', h', m', _, _, rfl⟩
    · rw [he] at hn
      simp at hn
  · rintro u ⟨buffer, cur, pb, pc, r, p, h, m, cs, rfl⟩ - -
    exact ⟨buffer, cur, pb, pc, r, p, h, m, cs, _, rfl⟩
  · rintro u ⟨buffer, cur, pb, pc, r, p, h, m, cs, rfl⟩ -
    exact ⟨buffer, cur, pb, pc, r, p, h, m, cs, _, rfl⟩

/-- A status-port-0 read changes only the drives' answers, the calls and the result (rule R139). -/
theorem execRdStatus0_frame (p : Bool) (s t : State) (h : execRdStatus0 p s = .next t) :
    t = { s with signals := t.signals, drawn := t.drawn, calls := t.calls, result := t.result } := by
  simp only [execRdStatus0] at h
  cases hk : s.kind with
  | hd =>
    rw [hk] at h
    simp only [Host.Outcome.next.injEq] at h
    subst h
    cases s with | mk =>
    rename_i signals _ _ _
    rcases signals with _ | ⟨_, _ | ⟨_, _ | ⟨_, _⟩⟩⟩ <;> rfl
  | fd =>
    rw [hk] at h
    simp only [Host.Outcome.next.injEq] at h
    subst h
    unfold State.readFloppyStatus
    cases ha : s.cfg.attached s.cmd.selectedDrive with
    | true =>
      simp only [ha, if_true]
      cases s with | mk =>
      rename_i signals _ _ _
      rcases signals with _ | ⟨_, _ | ⟨_, _⟩⟩ <;> rfl
    | false =>
      simp only [ha]
      rfl

/-- An index pulse's measurement changes only the period and the sector timer (rule R110). -/
theorem State.measurePeriod_frame (s : State) : ∃ a b, s.measurePeriod = { s with sector := a, hdPeriod := b } := by
  unfold State.measurePeriod
  split
  · exact ⟨_, _, rfl⟩
  · simp only
    split <;> exact ⟨_, _, rfl⟩

/-- What a synthetic firing does to the counter and the timer (rule R113). -/
theorem State.countSector_eq (s : State) :
    s.countSector = { s with
      hdCounter := (s.hdCounter + 1) % s.cfg.hdSectors,
      sector := if (s.hdCounter + 1) % s.cfg.hdSectors = s.cfg.hdSectors - 1 then none else s.sector } := by
  simp only [State.countSector]
  split <;> rfl

end Sys2Proof.Machine
end

