-- ==== Sys2Proof/Laws/PerInstr.lean ====
section
/-! SUPPORT. The laws stated for each operation: the family `RoundTrip` says that the word of a well-formed operation decodes
to that operation, under every port map that rule R67 admits. -/

namespace Sys2Proof.Laws

/-- A word's head and operand come apart again. -/
theorem decode_wordOf (m : PortMap) (head operand : Nat) (h : head < 256) :
    decode m (wordOf head operand) = decodeOperation m head operand := by
  have h1 : wordOf head operand % 256 = head := by simp only [wordOf]; omega
  have h2 : wordOf head operand / 256 = operand := by simp only [wordOf]; omega
  simp only [decode, h1, h2]

/-- A read carries no data byte and a write no peek flag (rule R65, rule R130). -/
def AccessOk (data : Byte) (peek : Bool) : Dir → Prop
  | .read => data = 0
  | .write => peek = false

/-- Decoding the word of an access: the operation in its slot, for a read with no data byte and for a write with no peek
flag. -/
theorem decode_accessWord (m : PortMap) (dir : Dir) (offset : Nat) (data : Byte) (peek : Bool)
    (h : AccessOk data peek dir) :
    decode m (accessWord dir offset data peek) = portInstr (m.slot dir offset) dir offset data peek := by
  have hd : data.toNat < 256 := data.isLt
  have h1 : (data.toNat + 256 * offset) / 256 = offset := by omega
  cases dir with
  | read =>
    have h : data = 0 := h
    subst h
    cases peek <;> simp [accessWord, accessHead, decode_wordOf, decodeOperation, decodeRead]
  | write =>
    have h : peek = false := h
    subst h
    have h2 : BitVec.ofNat 8 (data.toNat + 256 * offset) = data := by
      apply BitVec.eq_of_toNat_eq
      simp only [BitVec.toNat_ofNat]
      omega
    simp [accessWord, accessHead, decode_wordOf, decodeOperation, decodeWrite, h1, h2]

/-- The slot that the encoder finds for an operation holds that operation. -/
theorem slot_of_idxOf (m : PortMap) (op : PortOp) (dir : Dir) (h : op ∈ m.slots dir) :
    ∃ offset, (m.slots dir).idxOf? op = some offset ∧ m.slot dir offset = op := by
  cases hi : (m.slots dir).idxOf? op with
  | none => exact absurd h (by simpa [List.idxOf?_eq_none_iff] using hi)
  | some k =>
    refine ⟨k, rfl, ?_⟩
    have hk := hi
    rw [List.idxOf?, List.findIdx?_eq_some_iff_getElem] at hk
    obtain ⟨hlt, he, -⟩ := hk
    simp only [PortMap.slot, List.getElem?_eq_getElem hlt, Option.getD_some]
    simpa using he

/-- The word of a port operation that the map reaches decodes to the operation of its slot. -/
theorem encodePort_decode (m : PortMap) (op : PortOp) (dir : Dir) (data : Byte) (peek : Bool)
    (hr : m.reaches op = true) (hdir : op.dir? = some dir)
    (h : AccessOk data peek dir) :
    ∃ w offset, encodePort m op dir data peek = some w ∧ decode m w = portInstr op dir offset data peek := by
  simp only [PortMap.reaches, hdir, decide_eq_true_eq] at hr
  obtain ⟨offset, hi, hs⟩ := slot_of_idxOf m op dir hr
  exact ⟨accessWord dir offset data peek, offset, by simp [encodePort, hi],
    by rw [decode_accessWord m dir offset data peek h, hs]⟩

/-- The word of a well-formed operation decodes to it. -/
def RoundTrip.Statement (i : Instr) : Prop :=
  ∀ m : PortMap, i.wellFormed m = true → ∃ w, encode m i = some w ∧ decode m w = .ok i

theorem RoundTrip.wrControl0 (data : Byte) : RoundTrip.Statement (.wrControl0 data) := by
  intro m h
  obtain ⟨w, o, he, hd⟩ := encodePort_decode m .wrControl0 .write data false h rfl rfl
  exact ⟨w, he, hd⟩

theorem RoundTrip.wrControl1 (data : Byte) : RoundTrip.Statement (.wrControl1 data) := by
  intro m h
  obtain ⟨w, o, he, hd⟩ := encodePort_decode m .wrControl1 .write data false h rfl rfl
  exact ⟨w, he, hd⟩

theorem RoundTrip.rdStatus0 (peek : Bool) : RoundTrip.Statement (.rdStatus0 peek) := by
  intro m h
  obtain ⟨w, o, he, hd⟩ := encodePort_decode m .rdStatus0 .read 0 peek h rfl rfl
  exact ⟨w, he, hd⟩

theorem RoundTrip.rdStatus1 (peek : Bool) : RoundTrip.Statement (.rdStatus1 peek) := by
  intro m h
  obtain ⟨w, o, he, hd⟩ := encodePort_decode m .rdStatus1 .read 0 peek h rfl rfl
  exact ⟨w, he, hd⟩

theorem RoundTrip.wrStart (data : Byte) : RoundTrip.Statement (.wrStart data) := by
  intro m h
  obtain ⟨w, o, he, hd⟩ := encodePort_decode m .wrStart .write data false h rfl rfl
  exact ⟨w, he, hd⟩

theorem RoundTrip.wrData (data : Byte) : RoundTrip.Statement (.wrData data) := by
  intro m h
  obtain ⟨w, o, he, hd⟩ := encodePort_decode m .wrData .write data false h rfl rfl
  exact ⟨w, he, hd⟩

theorem RoundTrip.wrReset (data : Byte) : RoundTrip.Statement (.wrReset data) := by
  intro m h
  obtain ⟨w, o, he, hd⟩ := encodePort_decode m .wrReset .write data false h rfl rfl
  exact ⟨w, he, hd⟩

theorem RoundTrip.rdData (peek : Bool) : RoundTrip.Statement (.rdData peek) := by
  intro m h
  obtain ⟨w, o, he, hd⟩ := encodePort_decode m .rdData .read 0 peek h rfl rfl
  exact ⟨w, he, hd⟩

theorem RoundTrip.rdReset (peek : Bool) : RoundTrip.Statement (.rdReset peek) := by
  intro m h
  obtain ⟨w, o, he, hd⟩ := encodePort_decode m .rdReset .read 0 peek h rfl rfl
  exact ⟨w, he, hd⟩

theorem RoundTrip.invalid (dir : Dir) (offset : Nat) (data : Byte) (peek : Bool) :
    RoundTrip.Statement (.invalid dir offset data peek) := by
  intro m h
  simp only [Instr.wellFormed, invalidAccessOk, Bool.and_eq_true, decide_eq_true_eq] at h
  refine ⟨_, rfl, ?_⟩
  rw [decode_accessWord m dir offset data peek (by cases dir <;> simp_all [AccessOk]), h.1]
  cases dir <;> rfl

theorem RoundTrip.fdPulse (n : Fin 4) : RoundTrip.Statement (.fdPulse n) :=
  fun _ _ => ⟨_, rfl, by simp [decode_wordOf, decodeOperation, decodeBelow, n.isLt]⟩

theorem RoundTrip.hdIndex : RoundTrip.Statement .hdIndex := fun _ _ => ⟨_, rfl, rfl⟩

theorem RoundTrip.sectorFire : RoundTrip.Statement .sectorFire := fun _ _ => ⟨_, rfl, rfl⟩

theorem RoundTrip.byteFire : RoundTrip.Statement .byteFire := fun _ _ => ⟨_, rfl, rfl⟩

theorem RoundTrip.motorFire : RoundTrip.Statement .motorFire := fun _ _ => ⟨_, rfl, rfl⟩

theorem RoundTrip.deviceReset : RoundTrip.Statement .deviceReset := fun _ _ => ⟨_, rfl, rfl⟩

theorem RoundTrip.mfmEncode (d p : Byte) : RoundTrip.Statement (.mfmEncode d p) := by
  intro m _
  have hd : d.toNat < 256 := d.isLt
  have hp : p.toNat < 256 := p.isLt
  refine ⟨_, rfl, ?_⟩
  have h1 : d.toNat + 256 * p.toNat < 65536 := by omega
  have h2 : BitVec.ofNat 8 (d.toNat + 256 * p.toNat) = d := BitVec.eq_of_toNat_eq (by simp; omega)
  have h3 : (d.toNat + 256 * p.toNat) / 256 = p.toNat := by omega
  simp [decode_wordOf, decodeOperation, decodeBelow, h1, h2, h3]

theorem RoundTrip.mfmDecode (c : Code) : RoundTrip.Statement (.mfmDecode c) := by
  intro m _
  have hc : c.toNat < 65536 := c.isLt
  exact ⟨_, rfl, by simp [decode_wordOf, decodeOperation, decodeBelow, hc]⟩

theorem RoundTrip.pllNextBit (deadline : Nat) : RoundTrip.Statement (.pllNextBit deadline) :=
  fun _ _ => ⟨_, rfl, by simp [decode_wordOf, decodeOperation]⟩

theorem RoundTrip.pllSetClock (h : Nat) : RoundTrip.Statement (.pllSetClock h) :=
  fun _ _ => ⟨_, rfl, by simp [decode_wordOf, decodeOperation]⟩

theorem RoundTrip.pllResetForRead (t : Nat) : RoundTrip.Statement (.pllResetForRead t) :=
  fun _ _ => ⟨_, rfl, by simp [decode_wordOf, decodeOperation]⟩

theorem RoundTrip.hdNextBit : RoundTrip.Statement .hdNextBit := fun _ _ => ⟨_, rfl, rfl⟩

theorem RoundTrip.nextCodeBit (deadline : Nat) : RoundTrip.Statement (.nextCodeBit deadline) :=
  fun _ _ => ⟨_, rfl, by simp [decode_wordOf, decodeOperation]⟩

theorem RoundTrip.readByteFire (k : Kind) : RoundTrip.Statement (.readByteFire k) := by
  cases k <;> exact fun _ _ => ⟨_, rfl, rfl⟩

theorem RoundTrip.writeByteFire (k : Kind) : RoundTrip.Statement (.writeByteFire k) := by
  cases k <;> exact fun _ _ => ⟨_, rfl, rfl⟩

/-- A code and a time packed above it come apart again. -/
theorem code_time_unpack (c : Code) (t : Nat) :
    (c.toNat + 0x10000 * t) / 0x10000 = t ∧ BitVec.ofNat 16 (c.toNat + 0x10000 * t) = c := by
  have hc : c.toNat < 65536 := c.isLt
  exact ⟨by omega, BitVec.eq_of_toNat_eq (by simp; omega)⟩

theorem RoundTrip.emitFlux (t : Nat) (c : Code) : RoundTrip.Statement (.emitFlux t c) := by
  intro m _
  obtain ⟨h1, h2⟩ := code_time_unpack c t
  exact ⟨_, rfl, by simp [decode_wordOf, decodeOperation, h1, h2]⟩

theorem RoundTrip.emitCode (t : Nat) (c : Code) : RoundTrip.Statement (.emitCode t c) := by
  intro m _
  obtain ⟨h1, h2⟩ := code_time_unpack c t
  exact ⟨_, rfl, by simp [decode_wordOf, decodeOperation, h1, h2]⟩

end Sys2Proof.Laws
end

