-- ==== Sys2Proof/Laws/Run.lean ====
section
/-! SUPPORT. The laws of the terms that statements use: code bits enter a register and are read off the calls, and steps add
up. -/

namespace Sys2Proof.Machine

/-! ### Code bits -/

/-- A bit more enters the register at bit 0. -/
@[simp] theorem codeOfBits_append (l : List Bool) (b : Bool) : codeOfBits (l ++ [b]) = shiftInBit (codeOfBits l) b := by
  simp [codeOfBits]

@[simp] theorem codeBitsOf_nil : codeBitsOf [] = [] := rfl

@[simp] theorem Call.codeBit?_pllNextBit (n : Fin 4) (ref d : Nat) (a : Option (Bool × Nat)) :
    (Call.pllNextBit n ref d a).codeBit? = a.map Prod.fst := rfl

@[simp] theorem Call.codeBit?_hdReadBit (t : Nat) (b : Bool) : (Call.hdReadBit t b).codeBit? = some b := rfl

@[simp] theorem Call.codeBit?_pllSetClock (n : Fin 4) (h : Nat) : (Call.pllSetClock n h).codeBit? = none := rfl

@[simp] theorem Call.codeBit?_pllResetForRead (n : Fin 4) (t : Nat) : (Call.pllResetForRead n t).codeBit? = none := rfl

/-- The newest call's code bit comes last. -/
theorem codeBitsOf_cons (c : Call) (cs : List Call) : codeBitsOf (c :: cs) = codeBitsOf cs ++ c.codeBit?.toList := by
  cases h : c.codeBit? <;> simp [codeBitsOf, h]

/-- The code bits of later calls come after those of earlier calls. -/
@[simp] theorem codeBitsOf_append (cs ds : List Call) : codeBitsOf (cs ++ ds) = codeBitsOf ds ++ codeBitsOf cs := by
  simp [codeBitsOf]

/-- As many bits are pending as the pending count says. -/
theorem State.length_pendingCodeBits (s : State) (h : s.pendingCount ≤ 16) : s.pendingCodeBits.length = s.pendingCount := by
  simp [State.pendingCodeBits, bitsOfCode]
  omega

/-- The calls of a request for a code bit: at most one, and it holds the bit that the request answers with (rule R98, rule
R101, rule R102). -/
theorem State.nextCodeBit_calls (s : State) (k : Kind) (d : Nat) :
    ∃ cs, (s.nextCodeBit k d).2.calls = cs ++ s.calls ∧ cs.length ≤ 1 ∧ codeBitsOf cs = (s.nextCodeBit k d).1.toList := by
  cases k with
  | fd =>
    obtain ⟨l, n, hl⟩ := s.drawPll_frame
    simp only [State.nextCodeBit, State.pllNextBit, hl]
    refine ⟨[.pllNextBit s.cmd.selectedDrive s.readPos d (lawfulAnswer s.readPos d s.drawPll.1)], ?_, by simp, ?_⟩ <;>
      rcases lawfulAnswer s.readPos d s.drawPll.1 with _ | ⟨b, t⟩ <;> rfl
  | hd =>
    simp only [State.nextCodeBit]
    split
    · exact ⟨[], rfl, by simp, rfl⟩
    · obtain ⟨l, n, hl⟩ := s.drawHdBit_frame
      refine ⟨[.hdReadBit s.readPos s.drawHdBit.1], ?_, by simp, rfl⟩
      simp only [State.hdNextBit, hl]
      rfl

/-! ### Runs -/

/-- One step is a run of one step. -/
theorem stepsFrom_one (s t : State) (h : step s = .next t) : stepsFrom 1 s = some t := by
  simp only [stepsFrom, h]

/-- A run of `m + n` steps is a run of `n` steps from where `m` steps lead. -/
theorem stepsFrom_add (m n : Nat) (s t : State) (h : stepsFrom m s = some t) :
    stepsFrom (m + n) s = stepsFrom n t := by
  induction m generalizing s with
  | zero =>
    simp only [stepsFrom, Option.some.injEq] at h
    subst h
    rw [Nat.zero_add]
  | succ m ih =>
    rw [Nat.add_right_comm]
    simp only [stepsFrom] at h ⊢
    split at h
    · exact ih _ h
    · simp at h
    · simp at h

/-- One more step after a run. -/
theorem stepsFrom_succ (n : Nat) (s t u : State) (h : stepsFrom n s = some t) (hu : step t = .next u) :
    stepsFrom (n + 1) s = some u := by
  rw [stepsFrom_add n 1 s t h, stepsFrom_one t u hu]

end Sys2Proof.Machine
end

