-- ==== Sys2Proof/Laws/Scheduler.lean ====
section
/-! SUPPORT. What the choice of the next event can do, said once (rule R60, rule R61, rule R62). -/

namespace Sys2Proof.Machine

/-- The port map right after power-on is one that rule R67 admits, of four offsets (rule R69). -/
theorem Config.portMap_ok : Config.portMap.ok = true ∧ Config.portMap.fourOffsets = true := by
  unfold Config.portMap
  split
  · rename_i h
    simpa using h
  · decide

/-- The size that rule R69 allows: four offsets, or the named configuration. -/
theorem PortMap.sizeOk_iff (m : PortMap) :
    m.sizeOk = true ↔ (m.reads.length ≤ 4 ∧ m.writes.length ≤ 4) ∨ m = PortMap.pmTest := by
  simp [PortMap.sizeOk, PortMap.fourOffsets, PortMap.namedWider]

/-- One event is strictly before another: earlier, or at the same time with a lower rank. -/
theorem Pending.before_iff (a b : Pending) :
    a.before b = true ↔ a.time < b.time ∨ (a.time = b.time ∧ a.rank < b.rank) := by
  simp [Pending.before]

/-- One event is not after another. -/
def Pending.NotAfter (a b : Pending) : Prop := a.time < b.time ∨ (a.time = b.time ∧ a.rank ≤ b.rank)

/-- The least of some events is one of them, and is after none of them. -/
theorem leastPending_spec (p : Pending) (l : List Pending) :
    leastPending p l ∈ p :: l ∧ ∀ q ∈ p :: l, (leastPending p l).NotAfter q := by
  induction l generalizing p with
  | nil => simp [leastPending, Pending.NotAfter]
  | cons q rest ih =>
    simp only [leastPending]
    by_cases h : q.before p = true
    · rw [if_pos h]
      obtain ⟨h1, h2⟩ := ih q
      rw [Pending.before_iff] at h
      refine ⟨List.mem_cons_of_mem _ h1, fun r hr => ?_⟩
      rcases List.mem_cons.1 hr with rfl | hr
      · have := h2 q (by simp)
        unfold Pending.NotAfter at *
        omega
      · exact h2 r hr
    · rw [if_neg h]
      obtain ⟨h1, h2⟩ := ih p
      rw [Pending.before_iff] at h
      refine ⟨by simp only [List.mem_cons] at h1 ⊢; tauto, fun r hr => ?_⟩
      rcases List.mem_cons.1 hr with rfl | hr
      · exact h2 r (by simp)
      rcases List.mem_cons.1 hr with rfl | hr
      · have := h2 p (by simp)
        unfold Pending.NotAfter at *
        omega
      · exact h2 r (by simp [hr])

/-- An event strictly before every other one is the least. -/
theorem leastPending_eq (p : Pending) (l : List Pending) (q : Pending) (hq : q ∈ p :: l)
    (h : ∀ r ∈ p :: l, r ≠ q → q.before r = true) : leastPending p l = q := by
  obtain ⟨h1, h2⟩ := leastPending_spec p l
  by_contra hne
  have h3 := h _ h1 hne
  have h4 := h2 q hq
  rw [Pending.before_iff] at h3
  unfold Pending.NotAfter at h4
  omega

/-- Of events of the same time and rank, the first comes first. -/
theorem leastPending_eq_first (p : Pending) (l : List Pending) (h : ∀ r ∈ l, p.NotAfter r) : leastPending p l = p := by
  induction l with
  | nil => rfl
  | cons q rest ih =>
    simp only [leastPending]
    rw [if_neg, ih fun r hr => h r (by simp [hr])]
    have := h q (by simp)
    rw [Pending.before_iff]
    unfold Pending.NotAfter at this
    omega

/-- The agenda's pending events, one for each entry. -/
theorem mem_pendingStimuli (m : PortMap) (k : Nat) (l : List Stimulus) (p : Pending) :
    p ∈ pendingStimuli m k l ↔
      ∃ j e, l[j]? = some e ∧ p = { time := e.time, rank := stimulusRank m e, source := .stimulus (k + j) e.word } := by
  induction l generalizing k with
  | nil => simp [pendingStimuli]
  | cons e rest ih =>
    simp only [pendingStimuli, List.mem_cons, ih]
    constructor
    · rintro (rfl | ⟨j, e', h1, rfl⟩)
      · exact ⟨0, e, by simp, by simp⟩
      · exact ⟨j + 1, e', by simpa using h1, by simp; omega⟩
    · rintro ⟨j, e', h1, rfl⟩
      cases j with
      | zero =>
        left
        simp only [List.getElem?_cons_zero, Option.some.injEq] at h1
        subst h1
        rfl
      | succ j => exact .inr ⟨j, e', by simpa using h1, by simp; omega⟩

/-- The pending events: the timers' firings and the agenda's entries (rule R182). -/
theorem State.mem_pending (s : State) (p : Pending) :
    p ∈ s.pending ↔
      (∃ t, s.motor = some t ∧ p = { time := t, rank := 1, source := .motor }) ∨
      (∃ q, s.sector = some q ∧ p = { time := q.next, rank := 5, source := .sector }) ∨
      (∃ t, s.byte = some t ∧ p = { time := t, rank := 7, source := .byte }) ∨
      (∃ j e, s.agenda[j]? = some e ∧
        p = { time := e.time, rank := stimulusRank s.cfg.portMap e, source := .stimulus j e.word }) := by
  unfold State.pending
  simp only [List.mem_append, mem_pendingStimuli]
  cases s.motor <;> cases s.sector <;> cases s.byte <;> simp [pendingTimer, or_assoc]

/-- The next event: none when nothing is pending, else a pending event that is after none. -/
theorem State.fetch_cases (s : State) :
    (s.pending = [] ∧ s.fetch = .waits) ∨
    (∃ q ∈ s.pending, (∀ r ∈ s.pending, q.NotAfter r) ∧ s.fetch = s.take q) := by
  unfold State.fetch
  cases hp : s.pending with
  | nil => left; simp
  | cons p rest =>
    obtain ⟨h1, h2⟩ := leastPending_spec p rest
    exact .inr ⟨_, h1, h2, rfl⟩

/-- Everything that handing an event to the block can do: which operation runs, and in which state. -/
theorem State.take_cases (s s' : State) (q : Pending) (i : Instr) (h : s.take q = .runs i s') :
    (i = .motorFire ∧ q.source = .motor ∧ s' = { s with now := max s.now q.time, motor := none }) ∨
    (i = .sectorFire ∧ q.source = .sector ∧
      s' = { s with now := max s.now q.time, sector := s.sector.map fun p => { p with next := p.next + p.period } }) ∨
    (i = .byteFire ∧ q.source = .byte ∧ s' = { s with now := max s.now q.time, byte := none }) ∨
    (∃ j w, q.source = .stimulus j w ∧ decode s.cfg.portMap w = .ok i ∧
      s' = { s with now := max s.now q.time, agenda := s.agenda.eraseIdx j }) := by
  unfold State.take at h
  split at h
  · rename_i hs
    simp only [Fetched.runs.injEq] at h
    exact .inl ⟨h.1.symm, hs, h.2.symm⟩
  · rename_i hs
    simp only [Fetched.runs.injEq] at h
    exact .inr (.inl ⟨h.1.symm, hs, h.2.symm⟩)
  · rename_i hs
    simp only [Fetched.runs.injEq] at h
    exact .inr (.inr (.inl ⟨h.1.symm, hs, h.2.symm⟩))
  · rename_i j w hs
    split at h
    · rename_i hd
      simp only [Fetched.runs.injEq] at h
      obtain ⟨rfl, rfl⟩ := h
      exact .inr (.inr (.inr ⟨j, w, hs, hd, rfl⟩))
    · simp at h

/-- Everything a step that answers a next state can do: wait, or run the operation of a pending event that is after none. -/
theorem step_cases (s t : State) (h : step s = .next t) :
    configOk s.cfg = true ∧ ((s.pending = [] ∧ t = s) ∨
      ∃ q i s', q ∈ s.pending ∧ (∀ r ∈ s.pending, q.NotAfter r) ∧ s.take q = .runs i s' ∧ exec i s' = .next t) := by
  unfold step at h
  split at h
  · rename_i hc
    refine ⟨hc, ?_⟩
    rcases s.fetch_cases with ⟨h1, h2⟩ | ⟨q, hq, hl, hf⟩
    · rw [h2] at h
      simp only [Host.Outcome.next.injEq] at h
      exact .inl ⟨h1, h.symm⟩
    · rw [hf] at h
      cases ht : s.take q with
      | waits =>
        unfold State.take at ht
        split at ht <;> try simp at ht
        split at ht <;> simp at ht
      | runs i s' =>
        rw [ht] at h
        exact .inr ⟨q, i, s', hq, hl, ht, h⟩
      | unreadable e =>
        rw [ht] at h
        simp at h
  · simp at h

end Sys2Proof.Machine
end

