-- ==== Sys2Proof/Tests/Slice0.lean ====
section
/-! SUPPORT. Tests. The expected values are the vectors of 95_test_vectors.md (named in each docstring), with a buffer of 4
bytes where the document's has 512, and the witnesses that the statements' hypotheses can be met. -/

namespace Sys2Proof.Tests

open Sys2Proof.Machine

/-- The configuration of the vectors, with a buffer of 4 bytes and an ECC field at index 1 when the cursor is 2. -/
def config (hd : Bool) : Params :=
  { bufLen := 4, floppyAttached := #v[true, true, false, false], hdAttached := hd, hdHeads := .four, hdTypeBit := false,
    portMap := .pmTest, eccField := [[], [], [1, 5]], idleRelease := .never }

/-- The state after reset, with the buffer A5 5A 00 3C and no call made. -/
def start (hd : Bool) : State :=
  { State.reset with cfg := config hd, buffer := [(0, 0xA5), (1, 0x5A), (2, 0x00), (3, 0x3C)], calls := [] }

/-- A millisecond, in `TIME_UNIT`. -/
def ms : Nat := 1000000000

/-- A nanosecond, in `TIME_UNIT`. -/
def ns : Nat := 1000

/-- What one operation makes of a state. -/
def one (i : Instr) (s : State) : Option State := performAll s [i]

/-! ### Refusals of ill-formed terms -/

/-- A head count that is no power of two between 1 and 8 is refused (rule R11). -/
theorem test_headCount_refused :
    HeadCount.ofNat? 0 = none ∧ HeadCount.ofNat? 3 = none ∧ HeadCount.ofNat? 16 = none ∧
    HeadCount.ofNat? 8 = some .eight := by decide

/-- A map with a write in a read slot, a read in a write slot, or an operation twice is refused; `PM_TEST` is not (rule R67). -/
theorem test_portMap_refused :
    ({ reads := [.wrData], writes := [] } : PortMap).ok = false ∧
    ({ reads := [], writes := [.rdData] } : PortMap).ok = false ∧
    ({ reads := [.rdData, .rdData], writes := [] } : PortMap).ok = false ∧
    ({ reads := [], writes := [.wrData, .invalid, .wrData] } : PortMap).ok = false ∧
    ({ reads := [.invalid, .invalid], writes := [] } : PortMap).ok = true ∧ PortMap.pmTest.ok = true := by decide

/-- The size of a map: four offsets, or more in the named configuration only (rule R69). -/
theorem test_port_map_size :
    PortMap.pmFour.sizeOk = true ∧ PortMap.pmTest.fourOffsets = false ∧ PortMap.pmTest.sizeOk = true ∧
    ({ PortMap.pmTest with reads := [] } : PortMap).ok = true ∧
    ({ PortMap.pmTest with reads := [] } : PortMap).sizeOk = false ∧
    ({ PortMap.pmFour with reads := PortMap.pmTest.reads } : PortMap).sizeOk = false := by decide

/-- A port operation without a slot is ill-formed (rule R67, rule R68). -/
theorem test_unreachable_ill_formed :
    (Instr.wrReset 0).wellFormed PortMap.pmFour = false ∧ (Instr.wrStart 0).wellFormed PortMap.pmFour = true ∧
    PortMap.pmFour.unreachable = [.wrReset] ∧
    (Instr.wrControl0 0).wellFormed ⟨[], []⟩ = false ∧ (Instr.wrControl1 0).wellFormed ⟨[], []⟩ = false ∧
    (Instr.wrStart 0).wellFormed ⟨[], []⟩ = false ∧ (Instr.wrData 0).wellFormed ⟨[], []⟩ = false ∧
    (Instr.rdStatus0 true).wellFormed ⟨[], []⟩ = false ∧ (Instr.rdStatus1 true).wellFormed ⟨[], []⟩ = false ∧
    (Instr.rdData true).wellFormed ⟨[], []⟩ = false ∧ (Instr.rdReset true).wellFormed ⟨[], []⟩ = false := by decide

/-- An access to an `INVALID` slot is ill-formed where the slot holds an operation, where a read carries a data byte, and where
a write peeks (rule R65, rule R130). -/
theorem test_invalid_access_ill_formed :
    (Instr.invalid .read 1 0 false).wellFormed .pmTest = false ∧
    (Instr.invalid .read 4 7 false).wellFormed .pmTest = false ∧
    (Instr.invalid .write 5 7 true).wellFormed .pmTest = false ∧
    (Instr.invalid .read 4 0 true).wellFormed .pmTest = true ∧
    (Instr.invalid .write 5 7 false).wellFormed .pmTest = true := by decide

/-- A configuration without a run is refused by `step` (rule R180, log entry 8). -/
theorem test_bad_configuration_refused :
    configOk (config true) = true ∧ configOk { config true with portMap := ⟨[.wrData], []⟩ } = false ∧
    configOk { config true with portMap := { PortMap.pmTest with reads := [] } } = false ∧
    configOk { config true with bufLen := 0 } = false ∧ configOk { config true with fdSectors := 0 } = false ∧
    configOk { config true with hdSectors := 0 } = false ∧ configOk { config true with hdHalfCell := 0 } = false := by
  decide

/-! ### Decoding: one word of every operation, written out from the table of Decode.lean under `PM_TEST` -/

/-- Port writes: head 02, the data byte, the offset. `W 0 09`, `W 1 23`, `W 3 00`, `W 2 A5`, `W 4 77`. -/
theorem test_decode_port_writes :
    decode .pmTest 0x000902 = .ok (.wrControl0 0x09) ∧ decode .pmTest 0x012302 = .ok (.wrControl1 0x23) ∧
    decode .pmTest 0x030002 = .ok (.wrStart 0x00) ∧ decode .pmTest 0x02A502 = .ok (.wrData 0xA5) ∧
    decode .pmTest 0x047702 = .ok (.wrReset 0x77) ∧ decode .pmTest 0x051202 = .ok (.invalid .write 5 0x12 false) := by
  decide

/-- Port reads: head 00, or 01 for a peek, zero, the offset. `R 0`, `R 1`, `R 2` (peek), `R 3`, `R 4`. -/
theorem test_decode_port_reads :
    decode .pmTest 0x000000 = .ok (.rdStatus0 false) ∧ decode .pmTest 0x010000 = .ok (.rdStatus1 false) ∧
    decode .pmTest 0x020001 = .ok (.rdData true) ∧ decode .pmTest 0x030000 = .ok (.rdReset false) ∧
    decode .pmTest 0x040000 = .ok (.invalid .read 4 0 false) ∧
    decode .pmTest 0x020100 = .error (.operandBits 0) := by decide

/-- Events, and refused heads and operands. -/
theorem test_decode_events :
    decode .pmTest 0x0310 = .ok (.fdPulse 3) ∧ decode .pmTest 0x0410 = .error (.operandBits 0x10) ∧
    decode .pmTest 0x11 = .ok .hdIndex ∧ decode .pmTest 0x12 = .ok .sectorFire ∧ decode .pmTest 0x13 = .ok .byteFire ∧
    decode .pmTest 0x14 = .ok .motorFire ∧ decode .pmTest 0x15 = .ok .deviceReset ∧
    decode .pmTest 0x0115 = .error (.operandBits 0x15) ∧ decode .pmTest 0x16 = .error (.unknownOperation 0x16) := by
  decide

/-- Functions: the operand bytes in the table's order. -/
theorem test_decode_functions :
    decode .pmTest 0x804E20 = .ok (.mfmEncode 0x4E 0x80) ∧ decode .pmTest 0x555421 = .ok (.mfmDecode 0x5554) ∧
    decode .pmTest 0x1F4022 = .ok (.pllNextBit 8000) ∧ decode .pmTest 0x07D023 = .ok (.pllSetClock 2000) ∧
    decode .pmTest 0x0124 = .ok (.pllResetForRead 1) ∧ decode .pmTest 0x25 = .ok .hdNextBit ∧
    decode .pmTest 0x0226 = .ok (.nextCodeBit 2) ∧ decode .pmTest 0x27 = .ok (.readByteFire .fd) ∧
    decode .pmTest 0x0128 = .ok (.writeByteFire .hd) ∧ decode .pmTest 0x07AAAA29 = .ok (.emitFlux 7 0xAAAA) ∧
    decode .pmTest 0x0955542A = .ok (.emitCode 9 0x5554) := by decide

/-- The table's reading of a word: the bits above the given number are dropped. -/
theorem test_decodeTableWord :
    decodeTableWord 24 0x012302 = some (.wrControl1 0x23) ∧ decodeTableWord 8 0x5512 = some .sectorFire ∧
    decodeTableWord 16 0x5512 = none := by decide

/-! ### The codec (T1) -/

/-- The T1 table of `MFM_ENCODE`. -/
theorem test_encode_vectors :
    mfmEncode 0x00 0x00 = 0xAAAA ∧ mfmEncode 0x00 0x80 = 0x2AAA ∧ mfmEncode 0x00 0x7F = 0xAAAA ∧
    mfmEncode 0xFF 0x00 = 0x5555 ∧ mfmEncode 0xFE 0x00 = 0x5554 ∧ mfmEncode 0x01 0x00 = 0xAAA9 ∧
    mfmEncode 0x80 0x00 = 0x4AAA ∧ mfmEncode 0xA1 0x00 = 0x44A9 ∧ mfmEncode 0x7F 0x80 = 0x1555 ∧
    mfmEncode 0x12 0x34 = 0xA924 ∧ mfmEncode 0x86 0x85 = 0x4A94 ∧ mfmEncode 0x84 0x7D = 0x4A92 := by decide

/-- The T1 line of `MFM_DECODE`, with two values that are no code. -/
theorem test_decode_vectors :
    mfmDecode 0x5554 = 0xFE ∧ mfmDecode 0xAAAA = 0x00 ∧ mfmDecode 0x2AA5 = 0x03 ∧ mfmDecode 0x9254 = 0x4E ∧
    mfmDecode 0x0000 = 0x00 ∧ mfmDecode 0xFFFF = 0xFF := by decide

/-- The two codec operations return their value. -/
theorem test_codec_results :
    (one (.mfmEncode 0x4E 0x00) (start false)).map (·.result) = some (.code 0x9254) ∧
    (one (.mfmDecode 0x9254) (start false)).map (·.result) = some (.byte 0x4E) := by decide

/-! ### The host ports (T4) -/

/-- T4.1. -/
theorem test_wrControl0_floppy :
    (one (.wrControl0 0x09) { start false with now := 5 }).map
      (fun t => (t.cmd.selectedDrive, t.cmd.selectedHead, t.cmd.reducedWriteCurrent, t.motor, t.calls)) =
    some (1, 2, false, some (5 + 2820 * ms),
      [.fdSetDir 1 false, .fdSetStep 1 false, .fdSetHead 1 2, .fdSetMotor 1 true, .fdSetMotor 0 true]) := by decide

/-- T4.24, with T3.14: the hard disk's head is masked, and `SECTOR` keeps running. -/
theorem test_wrControl0_hardDisk :
    (one (.wrControl0 0x1C) { start true with sector := some ⟨9, 5⟩ }).map
      (fun t => (t.cmd.selectedHead, t.sector, t.calls.take 3)) =
    some (7, some ⟨9, 5⟩, [.hdSetDir false, .hdSetStep false, .hdSetHead 3]) := by decide

/-- T4.4. -/
theorem test_wrControl1 :
    (one (.wrControl1 0xD1) (start false)).map
      (fun t => (t.cmd.targetSector, t.cmd.readMode, t.cmd.eccRequested, t.cmd.writePrecompensation)) =
    some (17, false, true, true) := by decide

/-- T4.5: write-protected, not on track 0. -/
theorem test_rdStatus0_floppy :
    (one (.rdStatus0 false) { start false with signals := [true, false] }).map (·.result) = some (.byte 0x01) := by
  decide

/-- T4.6: ready, track 0, seek complete. -/
theorem test_rdStatus0_hardDisk :
    (one (.rdStatus0 false) { start true with signals := [true, true, true] }).map (·.result) = some (.byte 0x36) := by
  decide

/-- T4.12 and T4.23. -/
theorem test_rdStatus1 :
    (one (.rdStatus1 false) { start false with busy := true, motor := some 1 }).map (·.result) = some (.byte 0x06) ∧
    (one (.rdStatus1 false) { start true with motor := some 1 }).map (·.result) = some (.byte 0x05) := by decide

/-- T4.13 and T4.14. -/
theorem test_wrStart :
    (one (.wrStart 0) { start false with motor := some 1 }).map (fun t => (t.busy, t.idleCount)) = some (true, some 0) ∧
    (one (.wrStart 0) (start false)).map (fun t => (t.busy, t.idleCount)) = some (false, none) := by decide

/-- T4.16 with a buffer of 4. -/
theorem test_wrData_wraps :
    (one (.wrData 0x77) { start false with cursor := 3 }).map (fun t => (t.buffer, t.cursor)) =
    some ([(0, 0xA5), (1, 0x5A), (2, 0x00), (3, 0x77)], 0) := by decide

/-- T4.17. -/
theorem test_wrReset :
    (one (.wrReset 0x77) { start false with cursor := 3 }).map (fun t => (t.buffer, t.cursor)) =
    some ((start false).buffer, 0) := by decide

/-- T4.18 and T4.19. -/
theorem test_rdData_peek :
    (one (.rdData true) (start false)).map (fun t => (t.result, t.cursor)) = some (.byte 0xA5, 0) ∧
    (one (.rdData false) (start false)).map (fun t => (t.result, t.cursor)) = some (.byte 0xA5, 1) := by decide

/-- T4.20 with a buffer of 4, and T4.10. -/
theorem test_rdData_wraps_and_busy :
    (one (.rdData false) { start false with cursor := 3 }).map (fun t => (t.result, t.cursor)) = some (.byte 0x3C, 0) ∧
    (one (.rdData false) { start false with cursor := 3, busy := true }).map (fun t => (t.result, t.cursor)) =
      some (.byte 0xFF, 3) := by decide

/-- T4.21 and T4.11, with the two sentinels told apart. -/
theorem test_rdReset :
    (one (.rdReset false) { start false with cfg := { config false with busyValue := 0xBB } }).map (·.result) =
      some (.byte 0xFF) ∧
    (one (.rdReset false) { start false with cfg := { config false with busyValue := 0xBB }, busy := true }).map (·.result) =
      some (.byte 0xBB) := by decide

/-- T4.22. -/
theorem test_invalid :
    (one (.invalid .read 4 0 false) { start false with busy := true }).map (·.result) = some (.byte 0xFF) ∧
    one (.invalid .write 5 9 false) (start false) = some (start false) := by decide

/-! ### The sector clock (T3) -/

/-- T3.3 and T3.4: exactly `FD_DEBOUNCE` after the last pulse the counter increments, 1 ps earlier it is forced. -/
theorem test_fdPulse_debounce :
    (one (.fdPulse 0) { start false with now := 10200000000, fdLastPulse := some 0, fdCounter := 1 }).map
      (fun t => (t.fdCounter, t.fdLastPulse)) = some (2, some 10200000000) ∧
    (one (.fdPulse 0) { start false with now := 10199999999, fdLastPulse := some 0, fdCounter := 1 }).map (·.fdCounter) =
      some 15 := by decide

/-- T6.4: a read whose sync search is not answered stays busy with no transfer. -/
theorem test_fdPulse_failed_sync :
    (one (.fdPulse 0) { start false with
      now := 7, busy := true, idleCount := some 3, fdCounter := 2, pllAnswers := [none],
      cmd := { CommandState.reset with targetSector := 3, readMode := true } }).map
      (fun t => (t.busy, t.byte, t.idleCount, t.fdCounter, t.readPos)) = some (true, none, none, 3, 7) := by decide

/-- T3.9 and T3.8. -/
theorem test_hdIndex :
    (one .hdIndex { start true with now := 16 * ms + 31, hdLastPulse := some 0, hdCounter := 9 }).map
      (fun t => (t.hdCounter, t.hdPeriod, t.sector)) =
      some (0, some 500000000, some ⟨16 * ms + 31 + 500000000, 500000000⟩) ∧
    (one .hdIndex { start true with now := 31, hdLastPulse := some 0, sector := some ⟨40, 3⟩ }).map
      (fun t => (t.hdPeriod, t.sector)) = some (some 0, none) := by decide

/-- T3.10: the firing that yields 31 disarms `SECTOR`. -/
theorem test_sectorFire_disarms :
    (one .sectorFire { start true with hdCounter := 30, sector := some ⟨9, 5⟩ }).map (fun t => (t.hdCounter, t.sector)) =
      some (31, none) ∧
    (one .sectorFire { start true with hdCounter := 29, sector := some ⟨9, 5⟩ }).map (fun t => (t.hdCounter, t.sector)) =
      some (30, some ⟨9, 5⟩) := by decide

/-- T3.16 in write mode, and T3.17 with T3.19: a forced completion of a hard-disk read clears the ECC field. -/
theorem test_sectorFire_match_and_completion :
    (one .sectorFire { start true with
      now := 8, busy := true, hdCounter := 4, cmd := { CommandState.reset with targetSector := 5 } }).map
      (fun t => (t.byte, t.idleCount, t.busy)) = some (some 8, none, true) ∧
    (one .sectorFire { start true with
      busy := true, byte := some 9, cursor := 2,
      cmd := { CommandState.reset with targetSector := 1, readMode := true, eccRequested := true } }).map
      (fun t => (t.busy, t.byte, t.buffer)) =
      some (false, none, [(0, 0xA5), (1, 0x00), (2, 0x00), (3, 0x3C)]) := by decide

/-! ### The byte-transfer engine (T5) -/

/-- T5.1 and T5.2, the first through `BYTE_FIRE`. -/
theorem test_write_firings :
    (one .byteFire { start false with cursor := 2, busy := true, now := 9 }).map
      (fun t => (t.pendingBits, t.pendingCount, t.cursor, t.byte, t.calls)) =
      some (0xAAAA, 16, 3, some (9 + 32000 * ns), []) ∧
    (one (.writeByteFire .fd) { start false with
      buffer := [(0, 0x00), (1, 0x01), (2, 0), (3, 0)], cursor := 1, pendingBits := 0xAAAA, pendingCount := 16 }).map
      (fun t => (t.pendingBits, t.cursor, t.calls.length)) = some (0xAAA9, 2, 1) := by decide

/-- T5.5. -/
theorem test_write_hardDisk :
    (one (.writeByteFire .hd) { start true with now := 25501600 * ns, pendingBits := 0x5555, pendingCount := 16 }).map
      (fun t => (t.byte, t.calls)) =
    some (some (25503200 * ns), [.hdWriteCode (25501600 * ns) 0x5555 false false]) := by decide

/-- T5.6: 16 bits are read, and `BYTE` is set for the byte's end. -/
theorem test_read_hardDisk :
    (one (.readByteFire .hd) { start true with
      now := 100, readPos := 100, hdBits := bitsOfCode 0x2AA5 ++ [true] }).map
      (fun t => (t.pendingBits, t.pendingCount, t.readPos, t.byte, t.hdBits)) =
    some (0x2AA5, 16, 100 + 1600 * ns, some (100 + 1600 * ns), [true]) := by decide +kernel

/-- T5.8, through `BYTE_FIRE`: 16 bits pending and complete are stored. -/
theorem test_read_store :
    (one .byteFire { start true with
      busy := true, now := 50, readPos := 50, cursor := 3, pendingBits := 0x2AA5, pendingCount := 16,
      cmd := { CommandState.reset with readMode := true }, hdBits := bitsOfCode 0xAA44 }).map
      (fun t => (t.buffer, t.cursor, t.pendingBits, t.byte)) =
    some ([(0, 0xA5), (1, 0x5A), (2, 0x00), (3, 0x03)], 0, 0xAA44, some (50 + 1600 * ns)) := by decide +kernel

/-- T5.7: 9 bits pending and no answer. -/
theorem test_read_suspends :
    (one (.readByteFire .fd) { start false with
      now := 50, readPos := 40, pendingBits := 0x0155, pendingCount := 9, pllAnswers := [none] }).map
      (fun t => (t.pendingBits, t.pendingCount, t.readPos, t.byte)) =
    some (0x0155, 9, 40, some (50 + 32000 * ns)) := by decide

/-- T5.3. -/
theorem test_emitFlux :
    (one (.emitFlux 0 0xAAAA) (start false)).map (·.calls) =
    some [.fdWriteFlux 0 0 32000000 [1000000, 5000000, 9000000, 13000000, 17000000, 21000000, 25000000, 29000000]] := by
  decide

/-- Rule R166: the flags go with the code. -/
theorem test_emitCode :
    (one (.emitCode 7 0x5555) { start true with
      cmd := { CommandState.reset with reducedWriteCurrent := true } }).map (·.calls) =
    some [.hdWriteCode 7 0x5555 false true] := by decide

/-! ### Bit recovery (T2) -/

/-- T2.1 and T2.2: an answer that breaks the law counts as none. -/
theorem test_pllNextBit :
    (one (.pllNextBit (33000 * ns)) { start false with readPos := 1000 * ns, pllAnswers := [some (true, 3000 * ns)] }).map
      (fun t => (t.result, t.readPos)) = some (.bit (some true), 3000 * ns) ∧
    (one (.pllNextBit (5000 * ns)) { start false with readPos := 5000 * ns, pllAnswers := [some (true, 6000 * ns)] }).map
      (fun t => (t.result, t.readPos)) = some (.bit none, 5000 * ns) := by decide

/-- T2.5. -/
theorem test_pll_setup :
    (one (.pllSetClock 2000000) (start false)).map (fun t => (t.readPos, t.calls)) = some (0, [.pllSetClock 0 2000000]) ∧
    (one (.pllResetForRead 77) (start false)).map (fun t => (t.readPos, t.calls)) = some (77, [.pllResetForRead 0 77]) := by
  decide

/-- T2.3. -/
theorem test_hdNextBit :
    (one .hdNextBit { start true with readPos := 41500000 * ns, hdBits := [true] }).map
      (fun t => (t.result, t.readPos, t.calls)) =
    some (.bit (some true), 41500100 * ns, [.hdReadBit (41500000 * ns) true]) := by decide

/-- T2.4, and T2.3 as `nextCodeBit`. -/
theorem test_nextCodeBit :
    (one (.nextCodeBit (41500099 * ns)) { start true with readPos := 41500000 * ns, hdBits := [true] }).map
      (fun t => (t.result, t.readPos, t.calls)) = some (.bit none, 41500000 * ns, []) ∧
    (one (.nextCodeBit (41500100 * ns)) { start true with readPos := 41500000 * ns, hdBits := [true] }).map
      (fun t => (t.result, t.readPos)) = some (.bit (some true), 41500100 * ns) := by decide

/-! ### The motor and the reset (T6, T7) -/

/-- T6.1 and T6.3. -/
theorem test_motorFire :
    one .motorFire { start false with motor := some 9, busy := true, byte := some 12, fdCounter := 5 } =
    some { start false with
      busy := true, byte := some 12, fdCounter := 5, calls := [.fdSetMotor 1 false, .fdSetMotor 0 false] } := by decide

/-- T7.1. -/
theorem test_deviceReset :
    one .deviceReset { start false with
      cursor := 2, busy := true, motor := some 9, byte := some 12, fdCounter := 5, fdLastPulse := some 1, pendingBits := 7,
      pendingCount := 3, readPos := 4, idleCount := some 2, cmd := CommandState.reset.control1 0xFF } =
    some { start false with calls := [.fdSetMotor 1 false, .fdSetMotor 0 false] } := by decide

/-! ### The next event (rule R61, rule R62) -/

/-- A state in which `MOTOR`, `SECTOR`, `BYTE` and an index pulse are due at 7, and a host access of the given rank. -/
def due (rank : Nat) : State :=
  { start true with
    now := 3, busy := true, motor := some 7, sector := some ⟨7, 2⟩, hdPeriod := some 2, byte := some 7, hdLastPulse := some 1,
    fdLastPulse := some 2, agenda := [⟨7, 0, 0x11⟩, ⟨7, rank, 0x010000⟩] }

/-- At one time `MOTOR` comes first, and a host access where its rank says. -/
theorem test_same_time_order :
    (due 8).fetch = .runs .motorFire { due 8 with now := 7, motor := none } ∧
    (due 0).fetch = .runs (.rdStatus1 false) { due 0 with now := 7, agenda := [⟨7, 0, 0x11⟩] } ∧
    ({ due 8 with motor := none } : State).fetch =
      .runs .hdIndex { due 8 with now := 7, motor := none, agenda := [⟨7, 8, 0x010000⟩] } := by decide

/-- A placed word runs next. -/
theorem test_withFetchWord :
    ((start false).withFetchWord 40 0x012302).fetch = .runs (.wrControl1 0x23) (start false) := by decide

/-! ### Witnesses: for every statement with hypotheses, a state and operands that meet them, clause by clause -/

/-- Witness for `EveryStepKeepsInvariant`, `NoStepStopsInInvariant` and `NoPendingEventIsPassedOver`: every timer armed, every
pulse in the past, a host access on the agenda. -/
theorem witness_invariant_step :
    (due 8).Inv ∧ (∃ t, step (due 8) = .next t) ∧ (∃ i s', (due 8).fetch = .runs i s') ∧
    { time := 7, rank := 7, source := .byte } ∈ (due 8).pending := by
  refine ⟨⟨⟨by decide, by decide, by decide, by decide, by decide, by decide⟩, ⟨?_, ?_, ?_⟩, ⟨?_, ?_, ?_, ?_, ?_⟩, ?_⟩,
    ⟨_, rfl⟩, ⟨_, _, rfl⟩, by decide⟩
  · exact fun _ => rfl
  · exact fun _ => by decide
  · simp [due]
  · simp [due]
  · simp [due]
  · simp [due]
  · simp [due]
  · simp [due]
  · intro e he
    simp only [due, List.mem_cons, List.not_mem_nil, or_false] at he
    rcases he with rfl | rfl
    · exact ⟨.hdIndex, by decide, rfl⟩
    · exact ⟨.rdStatus1 false, by decide, rfl⟩

/-- Witness for `StepKeepsConfigurationAndTimeOrder`. -/
theorem witness_step : ∃ t, step (due 0) = .next t := ⟨_, rfl⟩

/-- The states of `witness_same_time`, each of an admitted configuration. -/
def dueWith (motor : Option Nat) (sector : Option Periodic) (agenda : List Stimulus) : State :=
  { due 8 with motor := motor, sector := sector, agenda := agenda }

/-- Every state of `witness_same_time` has an admitted configuration, and `BYTE` due at 7. -/
theorem witness_same_time_config (motor : Option Nat) (sector : Option Periodic) (agenda : List Stimulus) :
    configOk (dueWith motor sector agenda).cfg = true ∧ (dueWith motor sector agenda).byte = some 7 :=
  ⟨by change configOk (config true) = true; decide, rfl⟩

/-- Witness for the clauses of `SameTimeEventsRunInOrder`, in order: `MOTOR`, an index pulse and a floppy pulse, `SECTOR`,
`BYTE`, a host access before every event and one after. -/
theorem witness_same_time :
    ((dueWith (some 7) (some ⟨7, 2⟩) [⟨7, 1, 0x010000⟩]).motor = some 7 ∧
      ∀ e ∈ (dueWith (some 7) (some ⟨7, 2⟩) [⟨7, 1, 0x010000⟩]).agenda,
        7 < e.time ∨ (7 = e.time ∧ 1 ≤ stimulusRank PortMap.pmTest e)) ∧
    ((dueWith (some 8) (some ⟨7, 2⟩) [⟨7, 0, 0x11⟩]).agenda = [⟨7, 0, 0x11⟩] ∧
      decode PortMap.pmTest 0x11 = .ok .hdIndex ∧ decode PortMap.pmTest 0x0110 = .ok (.fdPulse 1)) ∧
    ((dueWith (some 8) (some ⟨7, 2⟩) [⟨8, 0, 0x11⟩]).sector = some ⟨7, 2⟩ ∧
      ∀ e ∈ (dueWith (some 8) (some ⟨7, 2⟩) [⟨8, 0, 0x11⟩]).agenda, 7 < e.time) ∧
    ((dueWith (some 8) (some ⟨8, 2⟩) [⟨8, 0, 0x11⟩]).motor = some 8 ∧
      (dueWith (some 8) (some ⟨8, 2⟩) [⟨8, 0, 0x11⟩]).sector = some ⟨8, 2⟩) ∧
    ((dueWith (some 7) (some ⟨7, 2⟩) [⟨7, 0, 0x010000⟩]).agenda = [⟨7, 0, 0x010000⟩] ∧
      (dueWith none none [⟨7, 8, 0x010000⟩]).agenda = [⟨7, 8, 0x010000⟩] ∧
      decode PortMap.pmTest 0x010000 = .ok (.rdStatus1 false) ∧ eventRank (.rdStatus1 false) = none) := by decide

/-- Witness for `StepRunsTheDecodedOperation`: an entry at 6, every timer at 7, another entry at the same time. -/
theorem witness_decoded_step :
    ∃ s : State, configOk s.cfg = true ∧ s.agenda = [⟨6, 0, 0x012302⟩, ⟨6, 1, 0x15⟩] ∧ s.motor = some 7 ∧
      s.sector = some ⟨7, 2⟩ ∧ s.byte = some 7 ∧ decode s.cfg.portMap 0x012302 = .ok (.wrControl1 0x23) ∧
      stimulusRank s.cfg.portMap ⟨6, 0, 0x012302⟩ ≤ stimulusRank s.cfg.portMap ⟨6, 1, 0x15⟩ :=
  ⟨{ due 8 with agenda := [⟨6, 0, 0x012302⟩, ⟨6, 1, 0x15⟩] }, by decide, rfl, rfl, rfl, rfl, by decide, by decide⟩

/-- Witness for `PlacedWordRunsNext`. -/
theorem witness_placed_word :
    decodeTableWord 24 0x012302 = some (.wrControl1 0x23) ∧
    configOk { (due 8).cfg with portMap := PortMap.pmTest } = true ∧ (due 8).motor = some 7 ∧
    (∀ e ∈ (due 8).agenda, 0 < e.time) := by decide

/-- Witness for the first clause of `StepWaitsOrRefuses`, and both sides of the others. -/
theorem witness_waits :
    configOk (start true).cfg = true ∧ (start true).motor = none ∧ (start true).sector = none ∧ (start true).byte = none ∧
    (start true).agenda = [] ∧ ¬ 0 < ({ config true with bufLen := 0 } : Params).bufLen ∧
    HeadCount.ofNat? 8 = some .eight ∧ HeadCount.ofNat? 6 = none := by decide

/-- Witness for `EncodedOperationDecodesToItself` and `DecodedWordIsTheOperationsWord`. -/
theorem witness_words :
    (Instr.wrReset 0x77).wellFormed .pmTest = true ∧ PortMap.pmTest.ok = true ∧
    decode .pmTest 0x047702 = .ok (.wrReset 0x77) := by decide

/-- Witness for `FourOffsetMapLeavesAnOperationOut`: a map of four offsets, and one that leaves every operation out. -/
theorem witness_four_offsets :
    PortMap.pmFour.ok = true ∧ PortMap.pmFour.reads.length ≤ 4 ∧ PortMap.pmFour.writes.length ≤ 4 ∧ .wrReset ∈ PortMap.pmFour.unreachable ∧
    (⟨[], []⟩ : PortMap).ok = true ∧ (⟨[], []⟩ : PortMap).unreachable = PortOp.named := by decide

/-- Witness for the second clause of `ReencodingRecoversExactlyTheCodes`. -/
theorem witness_reencoding :
    mfmDecode (mfmEncode 0x12 0x34) = mfmDecode (mfmEncode 0x12 0x7F) ∧
    (0x34 : Byte).getLsbD 7 = (0x7F : Byte).getLsbD 7 := by decide

/-- Witness for `BusyGatesThePorts`, and for the statements about a port while not busy. -/
theorem witness_busy_and_not_busy : ({ start true with busy := true } : State).busy = true ∧ (start false).busy = false :=
  ⟨rfl, rfl⟩

/-- Floppy 2, which is absent, selected. -/
def absent : State := { start false with cmd := { CommandState.reset with selectedDrive := 2 } }

/-- Witness for the clauses of `ReadStatus0ShowsDriveSignals`. -/
theorem witness_status0 :
    ((start false).kind = .fd ∧ (start false).cfg.attached (start false).cmd.selectedDrive = true) ∧
    (absent.kind = .fd ∧ absent.cfg.attached absent.cmd.selectedDrive = false) ∧ (start true).kind = .hd := by decide

/-- Witness for the clauses of `WriteStartNeedsTheMotor`. -/
theorem witness_start :
    (({ start false with motor := some 0 } : State).busy = false ∧ ({ start false with motor := some 0 } : State).motor ≠ none) ∧
    (start false).motor = none := by decide

/-- Witness for the last clause of `WriteDataStoresAtCursor`. -/
theorem witness_write_data : (start false).busy = false ∧ 0 < (start false).cfg.bufLen ∧ (start false).bufferOk = true := by
  decide

/-- Witness for `LoadedBytesReadBackInOrder`: as many bytes as the buffer holds. -/
theorem witness_load :
    (start false).busy = false ∧ ([1, 2, 3, 4] : List Byte).length = (start false).cfg.bufLen := by decide

/-- A floppy whose last pulse was at 0, at a given time. -/
def pulsedAt (now : Nat) : State := { start false with now := now, fdLastPulse := some 0 }

/-- Witness for the clauses of `FloppyPulseCountsOrDebounces`, on both sides of the boundary. -/
theorem witness_pulse :
    ((pulsedAt 10199999999).kind = .fd ∧ 0 = (pulsedAt 10199999999).cmd.selectedDrive ∧
      (pulsedAt 10199999999).cfg.attached 0 = true ∧ (pulsedAt 10199999999).fdLastPulse = some 0 ∧
      (pulsedAt 10199999999).now - 0 < (pulsedAt 10199999999).cfg.fdDebounce) ∧
    ((pulsedAt 10200000000).kind = .fd ∧ 0 = (pulsedAt 10200000000).cmd.selectedDrive ∧
      (pulsedAt 10200000000).cfg.attached 0 = true ∧ (pulsedAt 10200000000).fdLastPulse = some 0 ∧
      (pulsedAt 10200000000).cfg.fdDebounce ≤ (pulsedAt 10200000000).now - 0) := by decide

/-- A hard disk whose last index pulse was at 0, at a given time. -/
def indexedAt (now : Nat) : State := { start true with now := now, hdLastPulse := some 0 }

/-- Witness for the clauses of `HardDiskIndexMeasuresThePeriod`: no pulse before, a period of 0, a period of 1. -/
theorem witness_index :
    ((start true).kind = .hd ∧ (start true).hdLastPulse = none) ∧
    ((indexedAt 31).kind = .hd ∧ (indexedAt 31).hdLastPulse = some 0 ∧
      ¬ 0 < ((indexedAt 31).now - 0) / (indexedAt 31).cfg.hdSectors) ∧
    ((indexedAt 32).kind = .hd ∧ (indexedAt 32).hdLastPulse = some 0 ∧
      0 < ((indexedAt 32).now - 0) / (indexedAt 32).cfg.hdSectors) := by decide

/-- Witness for `SectorFireCountsAndDisarms` and for both clauses of `UnselectedDriveEventsHaveNoEffect`. -/
theorem witness_selection :
    (start true).kind = .hd ∧ (start false).kind = .fd ∧
    ¬ ((start false).kind = .fd ∧ 1 = (start false).cmd.selectedDrive ∧ (start false).cfg.attached 1 = true) := by decide

/-- Witness for the clauses of `IncrementCompletesBeforeItMatches`. -/
theorem witness_increment :
    (∃ s : State, s.busy = true ∧ s.byte ≠ none) ∧
    (∃ s : State, s.busy = true ∧ s.byte = none ∧ s.counter = s.cmd.targetSector.toNat) ∧
    (∃ s : State, s.busy = true ∧ s.byte = none ∧ s.counter ≠ s.cmd.targetSector.toNat ∧
      s.cfg.idleRelease = .oneRevolution) ∧
    (∃ s : State, s.busy = true ∧ s.byte = none ∧ s.counter ≠ s.cmd.targetSector.toNat ∧ s.cfg.idleRelease = .never) ∧
    (∃ s : State, s.busy = false) := by
  refine ⟨⟨{ start true with busy := true, byte := some 1 }, rfl, by decide⟩, ⟨{ start true with busy := true }, ?_⟩,
    ⟨{ start true with busy := true, hdCounter := 1, cfg := { config true with idleRelease := .oneRevolution } }, ?_⟩,
    ⟨{ start true with busy := true, hdCounter := 1 }, ?_⟩, ⟨start true, rfl⟩⟩ <;> decide

/-- A hard disk read, two bytes of search, before the sector match; its bits are given. -/
def searching (bits : List Bool) : State :=
  { start true with
    cfg := { config true with syncWindowBytes := 2 }, busy := true, hdBits := bits,
    cmd := { CommandState.reset with readMode := true } }

/-- Witness for the clauses of `SectorMatchStartsTheTransfer`: a write, a search that fails, a search that succeeds. -/
theorem witness_match :
    (start true).cmd.readMode = false ∧ (searching []).cmd.readMode = true ∧
    ((searching (bitsOfCode 0x0000 ++ bitsOfCode 0x0000)).syncSearch .hd).1 = false ∧
    ((searching (bitsOfCode 0x0000 ++ bitsOfCode 0x5555)).syncSearch .hd).1 = true := by decide +kernel

/-- The bits of two codes. -/
def twoCodes (a b : Code) : List Bool := bitsOfCode a ++ bitsOfCode b

/-- Witness for the hard-disk clauses of `SyncSearchFindsTheFirstPattern`: the conditions on the state, for any two codes. -/
theorem witness_sync (a b : Code) :
    (searching (twoCodes a b)).kind = .hd ∧ (searching (twoCodes a b)).cmd.readMode = true ∧
    0 < (searching (twoCodes a b)).cfg.hdHalfCell ∧
    (searching (twoCodes a b)).cfg.syncWindowBytes * (searching (twoCodes a b)).cfg.codeBits = 32 ∧
    (searching (twoCodes a b)).hdBits.length = 32 ∧ (searching (twoCodes a b)).cfg.hdSync = 0x5555 := by
  refine ⟨by rfl, rfl, ?_, by rfl, ?_, by rfl⟩
  · change 0 < (config true).hdHalfCell
    decide
  · simp [searching, twoCodes, bitsOfCode]

/-- Witness for the first clause: the pattern after 16 bits, and at the window's end, after 32. -/
theorem witness_sync_found :
    codeOfBits ((searching (twoCodes 0x5555 0x0000)).hdBits.take 16) = 0x5555 ∧
    codeOfBits ((searching (twoCodes 0x0000 0x5555)).hdBits.take 32) = 0x5555 ∧
    (∀ k, k < 32 → 16 ≤ k → codeOfBits ((searching (twoCodes 0x0000 0x5555)).hdBits.take k) ≠ 0x5555) := by
  decide +kernel

/-- Witness for the second clause: no pattern in the window. -/
theorem witness_sync_lost :
    ∀ k, k ≤ 32 → 16 ≤ k → codeOfBits ((searching (twoCodes 0x0000 0x0000)).hdBits.take k) ≠ 0x5555 := by decide +kernel

/-- Code bits with the times 1, 2, … at which an adapter answers them. -/
def timed (bits : List Bool) : List (Bool × Nat) := bits.zipIdx 1

/-- A floppy read, two bytes of search, before the sector match; the adapter's answers are given. -/
def listening (answers : List (Option (Bool × Nat))) : State :=
  { start false with
    cfg := { config false with syncWindowBytes := 2 }, busy := true, pllAnswers := answers,
    cmd := { CommandState.reset with readMode := true } }

/-- Witness for the first floppy clause of `SyncSearchFindsTheFirstPattern`: the pattern after 17 bits, the last of them, a 0 at
time 17, apart. -/
theorem witness_floppy_sync_found (rest : List (Option (Bool × Nat))) :
    let bits := timed (true :: (bitsOfCode 0x5554).take 15)
    let s := listening ((bits ++ [(false, 17)]).map some ++ rest)
    s.kind = .fd ∧ s.cmd.readMode = true ∧ s.pllAnswers = (bits ++ [(false, 17)]).map some ++ rest ∧
    bits.Pairwise (fun a b => a.2 < b.2) ∧ (∀ a ∈ bits, s.now < a.2 ∧ a.2 < 17) ∧ 16 ≤ bits.length + 1 ∧
    17 ≤ s.now + s.cfg.syncWindowBytes * (s.cfg.codeBits * s.cfg.fdHalfCell) ∧
    codeOfBits (bits.map Prod.fst ++ [false]) = s.cfg.fdSync ∧
    (∀ k, k ≤ bits.length → 16 ≤ k → codeOfBits ((bits.map Prod.fst).take k) ≠ s.cfg.fdSync) := by
  refine ⟨by rfl, by rfl, by rfl, by decide, ?_, by decide, ?_, by rfl, ?_⟩
  · change ∀ a ∈ timed (true :: (bitsOfCode 0x5554).take 15), 0 < a.2 ∧ a.2 < 17
    decide
  · change 17 ≤ 0 + 2 * (16 * (config false).fdHalfCell)
    decide
  · change ∀ k, k ≤ (timed (true :: (bitsOfCode 0x5554).take 15)).length → 16 ≤ k →
      codeOfBits (((timed (true :: (bitsOfCode 0x5554).take 15)).map Prod.fst).take k) ≠ 0x5554
    decide +kernel

/-- Witness for the second floppy clause: 16 bits that are not the pattern, and then no answer. -/
theorem witness_floppy_sync_lost (rest : List (Option (Bool × Nat))) :
    (listening ((timed (bitsOfCode 0x5555)).map some ++ none :: rest)).pllAnswers =
      (timed (bitsOfCode 0x5555)).map some ++ none :: rest ∧
    ∀ k, k ≤ 16 → 16 ≤ k → codeOfBits (((timed (bitsOfCode 0x5555)).map Prod.fst).take k) ≠ 0x5554 :=
  ⟨rfl, by decide +kernel⟩

/-- Witness for `SyncSearchStaysInItsWindow`. -/
theorem witness_search : ∃ found t, (searching []).syncSearch .hd = (found, t) := ⟨_, _, rfl⟩

/-- A floppy read at its sector match, whose search is not answered. -/
def unanswered : State :=
  { start false with
    busy := true, pllAnswers := [none], cmd := { CommandState.reset with readMode := true } }

/-- Witness for `FailedSyncLeavesTheOperationBusy`. -/
theorem witness_failed_sync :
    unanswered.busy = true ∧ unanswered.byte = none ∧ unanswered.cmd.readMode = true ∧
    unanswered.counter = unanswered.cmd.targetSector.toNat ∧
    (State.syncSearch
      (State.beginRead { unanswered with idleCount := none, pendingBits := 0, pendingCount := 0 }) unanswered.kind).1 =
      false := by decide +kernel

/-- Witness for the clauses of `IdleTickReleasesAfterOneRevolution`: no count, the last count kept, the first released. -/
theorem witness_idle :
    (start false).idleCount = none ∧ ({ start false with idleCount := some 14 } : State).idleCount = some 14 ∧
    ¬ (start false).cfg.fdSectors ≤ 14 + 1 ∧ (start false).cfg.fdSectors ≤ 15 + 1 := by decide

/-- Witness for `ClosePulsesHoldTheCounterAtItsMaximum`: gaps one `TIME_UNIT` under and at the window. -/
theorem witness_close_pulses :
    ∃ s : State, s.busy = false ∧ s.kind = .fd ∧ 0 = s.cmd.selectedDrive ∧ s.cfg.attached 0 = true ∧ 0 < s.cfg.fdSectors ∧
      s.fdLastPulse = some s.now ∧ (∀ g ∈ [10199999999, 0], g < s.cfg.fdDebounce) ∧ s.cfg.fdDebounce ≤ 10200000000 := by
  refine ⟨{ start false with now := 5, fdLastPulse := some 5 }, ?_⟩
  decide

/-- Witness for `IndexPulseIsMultiplied`. -/
theorem witness_multiplier :
    ∃ s : State, configOk s.cfg = true ∧ s.kind = .hd ∧ s.busy = false ∧ s.agenda = [] ∧ s.motor = none ∧ s.byte = none ∧
      1 < s.cfg.hdSectors ∧ s.hdLastPulse = some 0 ∧ 0 < (s.now - 0) / s.cfg.hdSectors := by
  exact ⟨indexedAt 32, by decide⟩

/-- Witness for the clauses of `ByteFireTakesThePathOfTheMode`. -/
theorem witness_byte_fire : (searching []).cmd.readMode = true ∧ (start true).cmd.readMode = false := by decide

/-- Witness for the clauses of `ReadFiringStoresWholeBytesAndRearms`: the least and the greatest pending count, a byte that has
ended at the present, and one that ends one `TIME_UNIT` later. -/
theorem witness_read_firing :
    (start true).pendingCount = 0 ∧ 0 < (start true).cfg.hdHalfCell ∧
    (({ start true with pendingCount := 16, now := 9, readPos := 9 } : State).pendingCount = 16 ∧
      ({ start true with pendingCount := 16, now := 9, readPos := 9 } : State).readPos ≤ 9) ∧
    ({ start true with pendingCount := 16, now := 9, readPos := 10 } : State).now < 10 := by decide

/-- Witness for `UnansweredReadSuspends`: with 15 bits pending, for a floppy. -/
theorem witness_unanswered :
    ∃ s u : State, s.pendingCount < 16 ∧ s.nextCodeBit .fd (s.now + byteTime s.cfg .fd) = (none, u) :=
  ⟨{ start false with pendingCount := 15, pllAnswers := [none] }, _, by decide, rfl⟩

/-- Witness for `HardDiskReadStoresTheDecodedCodes`: two codes, and what follows them. -/
theorem witness_hardDisk_read :
    ∃ s : State, configOk s.cfg = true ∧ s.kind = .hd ∧ s.cmd.readMode = true ∧ s.cfg.codeBits = 16 ∧ s.agenda = [] ∧
      s.motor = none ∧ s.sector = none ∧ s.byte = some 9 ∧ s.now ≤ 9 ∧ s.readPos = 9 ∧ s.pendingBits = 0 ∧
      s.pendingCount = 0 ∧ s.cursor < s.cfg.bufLen ∧ ([0x2AA5, 0xFFFF] : List Code).length ≤ s.cfg.bufLen ∧
      s.hdBits = ([0x2AA5, 0xFFFF] : List Code).flatMap bitsOfCode ++ bitsOfCode 0xAA44 ∧
      16 ≤ (bitsOfCode 0xAA44).length := by
  refine ⟨{ searching (([0x2AA5, 0xFFFF] : List Code).flatMap bitsOfCode ++ bitsOfCode 0xAA44) with
    byte := some 9, now := 3, readPos := 9, cursor := 3 }, ?_⟩
  decide +kernel

/-- Witness for `WriteTransferEmitsTheBufferInOrder`, with the kinds' other conditions. -/
theorem witness_write_transfer :
    ∃ s : State, configOk s.cfg = true ∧ s.cmd.readMode = false ∧ s.agenda = [] ∧ s.motor = none ∧ s.sector = none ∧
      s.byte = some 9 ∧ s.now ≤ 9 ∧ s.pendingBits = 0 ∧ s.pendingCount = 0 := by
  refine ⟨{ start true with busy := true, byte := some 9 }, ?_⟩
  decide

/-- Witness for the second clause of `AdapterAnswersWithinTheLaw`: the first and the last time the law admits. -/
theorem witness_adapter : ({ start false with readPos := 4 } : State).readPos < 5 ∧ 5 ≤ 9 ∧ 9 ≤ 9 := by decide

/-- Witness for the clauses of `CodeBitsComeFromTheSelectedDrive`, on both sides of the deadline. -/
theorem witness_code_bits :
    (start false).kind = .fd ∧ (start true).kind = .hd ∧
    (start true).readPos + (start true).cfg.hdHalfCell > 99999 ∧
    (start true).readPos + (start true).cfg.hdHalfCell ≤ 100000 := by decide

/-- Witness for the clauses of `OnlyStartSetsAndIncrementsClearBusy`, and for the first of
`OnlyControlWritesChangeCommandState`. -/
theorem witness_busy_changes :
    (one (.wrStart 0) { start false with motor := some 1 }).map (·.busy) = some true ∧
    (one .deviceReset { start false with busy := true }).map (·.busy) = some false ∧
    (one (.wrControl1 1) (start false)).map (fun t => decide (t.cmd ≠ (start false).cmd)) = some true := by decide

/-- Witness for `OnlyDeviceResetEndsAHungOperation`. -/
theorem witness_hung :
    ({ start false with busy := true } : State).hung = true ∧
    (one .deviceReset { start false with busy := true }).map (·.busy) = some false := by decide

end Sys2Proof.Tests
end

section
/-! The rules of the invariant: one for each state operation, saying under which condition it keeps `State.Inv`. -/

namespace Sys2Proof.Machine

variable {s t : State}

/-- An admitted configuration has a buffer, floppy sectors and hard-disk sectors (log entry 8). -/
theorem State.Inv.cfg_pos (h : s.Inv) : 0 < s.cfg.bufLen ∧ 0 < s.cfg.fdSectors ∧ 0 < s.cfg.hdSectors := by
  have hc := h.inRange.config
  simp only [configOk, Bool.and_eq_true, decide_eq_true_eq] at hc
  obtain ⟨⟨⟨⟨-, hbuf⟩, hfd⟩, hhd⟩, -⟩ := hc
  exact ⟨hbuf, hfd, hhd⟩

/-! ### Fields that the invariant does not read -/

/-- The pending bits, the read position, the idle count, the answers still to come, the calls and the result may change freely. -/
theorem State.Inv.freeFields (h : s.Inv) (bits : Code) (pos : Nat) (idle : Option Nat)
    (p : List (Option (Bool × Nat))) (hb sg : List Bool) (n : Nat) (cs : List Call) (r : Result) :
    ({ s with pendingBits := bits, readPos := pos, idleCount := idle, pllAnswers := p, hdBits := hb, signals := sg,
              drawn := n, calls := cs, result := r } : State).Inv :=
  ⟨{ h.inRange with }, { h.timersArmed with }, { h.onTime with }, h.agendaExternal⟩

/-- Returning a value keeps the invariant. -/
theorem State.Inv.returns (h : s.Inv) (r : Result) : (s.returns r).Inv :=
  h.freeFields s.pendingBits s.readPos s.idleCount s.pllAnswers s.hdBits s.signals s.drawn s.calls r

/-- Making calls keeps the invariant. -/
theorem State.Inv.withCalls (h : s.Inv) (cs : List Call) : ({ s with calls := cs } : State).Inv :=
  h.freeFields s.pendingBits s.readPos s.idleCount s.pllAnswers s.hdBits s.signals s.drawn cs s.result

/-! ### The buffer, the cursor, the counters and the pending count -/

theorem State.Inv.memWrite (h : s.Inv) (i : Nat) (v : Byte) : (s.memWrite i v).Inv :=
  ⟨{ h.inRange with buffer := s.memWrite_bufferOk i v h.inRange.buffer h.cfg_pos.1 },
    { h.timersArmed with }, { h.onTime with }, h.agendaExternal⟩

theorem State.Inv.withCursor (h : s.Inv) {c : Nat} (hc : c < s.cfg.bufLen) : ({ s with cursor := c } : State).Inv :=
  ⟨{ h.inRange with cursor := hc }, { h.timersArmed with }, { h.onTime with }, h.agendaExternal⟩

theorem State.Inv.advanceCursor (h : s.Inv) : s.advanceCursor.Inv :=
  h.withCursor (Nat.mod_lt _ h.cfg_pos.1)

theorem State.Inv.withPending (h : s.Inv) (bits : Code) {n : Nat} (hn : n ≤ 16) :
    ({ s with pendingBits := bits, pendingCount := n } : State).Inv :=
  ⟨{ h.inRange with pendingCount := hn }, { h.timersArmed with }, { h.onTime with }, h.agendaExternal⟩

/-- An accepted pulse counts a floppy sector and retriggers the window at the present (rule R107, rule R108). -/
theorem State.Inv.countPulse (h : s.Inv) : s.countPulse.Inv := by
  have hpos := h.cfg_pos.2.1
  refine ⟨{ h.inRange with fdCounter := ?_ }, { h.timersArmed with }, { h.onTime with fdLastPulse := ?_ }, h.agendaExternal⟩
  · simp only [State.countPulse]
    split
    · omega
    · exact Nat.mod_lt _ hpos
  · rintro t ⟨⟩
    exact le_rfl

/-- An index pulse sets the hard-disk counter to 0 and its own time, which is not after the present (rule R110). -/
theorem State.Inv.indexPulse (h : s.Inv) {t : Nat} (ht : t ≤ s.now) :
    ({ s with hdLastPulse := some t, hdCounter := 0 } : State).Inv := by
  refine ⟨{ h.inRange with hdCounter := h.cfg_pos.2.2 }, { h.timersArmed with }, { h.onTime with hdLastPulse := ?_ },
    h.agendaExternal⟩
  rintro u ⟨⟩
  exact ht

theorem State.Inv.withHdCounter (h : s.Inv) {c : Nat} (hc : c < s.cfg.hdSectors) :
    ({ s with hdCounter := c } : State).Inv :=
  ⟨{ h.inRange with hdCounter := hc }, { h.timersArmed with }, { h.onTime with }, h.agendaExternal⟩

/-! ### The timers -/

theorem State.Inv.scheduleMotor (h : s.Inv) {t : Nat} (ht : s.now ≤ t) : (s.scheduleMotor t).Inv := by
  refine ⟨{ h.inRange with }, { h.timersArmed with }, { h.onTime with motor := ?_ }, h.agendaExternal⟩
  rintro m ⟨⟩
  exact ht

theorem State.Inv.cancelMotor (h : s.Inv) : s.cancelMotor.Inv :=
  ⟨{ h.inRange with }, { h.timersArmed with }, { h.onTime with motor := nofun }, h.agendaExternal⟩

/-- `BYTE` may be armed while busy, at a time that has not passed (rule R155). -/
theorem State.Inv.scheduleByte (h : s.Inv) (hbusy : s.busy = true) {t : Nat} (ht : s.now ≤ t) : (s.scheduleByte t).Inv := by
  refine ⟨{ h.inRange with }, { h.timersArmed with byte := fun _ => hbusy }, { h.onTime with byte := ?_ }, h.agendaExternal⟩
  rintro b ⟨⟩
  exact ht

theorem State.Inv.cancelByte (h : s.Inv) : s.cancelByte.Inv :=
  ⟨{ h.inRange with }, { h.timersArmed with byte := fun hb => absurd rfl hb }, { h.onTime with byte := nofun },
    h.agendaExternal⟩

theorem State.Inv.cancelSector (h : s.Inv) : s.cancelSector.Inv :=
  ⟨{ h.inRange with }, { h.timersArmed with sectorKind := fun hs => absurd rfl hs, sectorPeriod := nofun },
    { h.onTime with sector := nofun }, h.agendaExternal⟩

/-- The periodic timer stays armed, one period later (rule R16). -/
theorem State.Inv.repeatSector (h : s.Inv) : s.repeatSector.Inv := by
  refine ⟨{ h.inRange with }, { h.timersArmed with sectorKind := ?_, sectorPeriod := ?_ }, { h.onTime with sector := ?_ },
    h.agendaExternal⟩
  · intro hs
    refine h.timersArmed.sectorKind fun hnone => hs ?_
    simp [State.repeatSector, hnone]
  · intro p hp
    obtain ⟨p', hp', rfl⟩ := Option.map_eq_some_iff.mp hp
    exact h.timersArmed.sectorPeriod p' hp'
  · intro p hp
    obtain ⟨p', hp', rfl⟩ := Option.map_eq_some_iff.mp hp
    exact (h.onTime.sector p' hp').trans (Nat.le_add_right _ _)

/-- An index pulse arms `SECTOR` with the period it measures, if that is not 0, and only for the hard disk (rule R110). -/
theorem State.Inv.measurePeriod (h : s.Inv) (hk : s.kind = .hd) : s.measurePeriod.Inv := by
  have hoff := h.cancelSector
  simp only [State.measurePeriod]
  split
  · exact hoff
  · next last _ =>
    split
    · next hp =>
      refine ⟨{ h.inRange with }, { h.timersArmed with sectorKind := fun _ => hk, sectorPeriod := ?_ },
        { h.onTime with sector := ?_ }, h.agendaExternal⟩
      · rintro p ⟨⟩
        exact ⟨rfl, hp⟩
      · rintro p ⟨⟩
        exact Nat.le_add_right _ _
    · exact ⟨{ hoff.inRange with }, { hoff.timersArmed with sectorPeriod := nofun }, { hoff.onTime with }, hoff.agendaExternal⟩

/-- The index pulse's measurement leaves the present alone. -/
theorem State.measurePeriod_now (s : State) : s.measurePeriod.now = s.now := by
  obtain ⟨_, _, h⟩ := s.measurePeriod_frame
  rw [h]

/-- A synthetic firing counts a hard-disk sector, and disarms `SECTOR` at the last one (rule R113). -/
theorem State.Inv.countSector (h : s.Inv) : s.countSector.Inv := by
  have hcount := h.withHdCounter (Nat.mod_lt (s.hdCounter + 1) h.cfg_pos.2.2)
  simp only [State.countSector]
  split
  · exact hcount.cancelSector
  · exact hcount

/-! ### The selected drive, the busy flag -/

/-- Any CommandState may be stored when `SECTOR` is cancelled for a floppy (rule R135). -/
theorem State.Inv.storeCommand (h : s.Inv) (c : CommandState) :
    ({ s with cmd := c } : State).cancelSectorForFloppy.Inv := by
  cases hk : ({ s with cmd := c } : State).kind with
  | fd =>
    have heq : ({ s with cmd := c } : State).cancelSectorForFloppy = { s with cmd := c, sector := none } := by
      simp only [State.cancelSectorForFloppy, hk]
    rw [heq]
    exact ⟨{ h.inRange with }, { h.timersArmed with sectorKind := fun hs => absurd rfl hs, sectorPeriod := nofun },
      { h.onTime with sector := nofun }, h.agendaExternal⟩
  | hd =>
    have heq : ({ s with cmd := c } : State).cancelSectorForFloppy = { s with cmd := c } := by
      simp only [State.cancelSectorForFloppy, hk]
    rw [heq]
    exact ⟨{ h.inRange with }, { h.timersArmed with sectorKind := fun _ => hk }, { h.onTime with }, h.agendaExternal⟩

/-- A write of control port 1 selects no other drive (rule R137). -/
theorem State.Inv.storeControl1 (h : s.Inv) (data : Byte) : ({ s with cmd := s.cmd.control1 data } : State).Inv :=
  ⟨{ h.inRange with }, { h.timersArmed with }, { h.onTime with }, h.agendaExternal⟩

theorem State.Inv.setBusy (h : s.Inv) : ({ s with busy := true } : State).Inv :=
  ⟨{ h.inRange with }, { h.timersArmed with byte := fun _ => rfl }, { h.onTime with }, h.agendaExternal⟩

theorem State.Inv.deviceReset (h : s.Inv) : s.deviceReset.Inv := by
  obtain ⟨hbuf, hfd, hhd⟩ := h.cfg_pos
  exact ⟨⟨h.inRange.config, h.inRange.buffer, hbuf, hfd, hhd, Nat.zero_le _⟩,
    ⟨fun hb => absurd rfl hb, fun hs => absurd rfl hs, nofun⟩, ⟨nofun, nofun, nofun, nofun, nofun⟩, h.agendaExternal⟩

/-! ### Time and the agenda -/

/-- The time may move on up to the first timer (rule R60). -/
theorem State.Inv.advanceTo (h : s.Inv) {t : Nat} (hmotor : ∀ m, s.motor = some m → t ≤ m)
    (hsector : ∀ p, s.sector = some p → t ≤ p.next) (hbyte : ∀ b, s.byte = some b → t ≤ b) : (s.advanceTo t).Inv :=
  ⟨{ h.inRange with }, { h.timersArmed with },
    ⟨fun m hm => max_le (h.onTime.motor m hm) (hmotor m hm), fun p hp => max_le (h.onTime.sector p hp) (hsector p hp),
      fun b hb => max_le (h.onTime.byte b hb) (hbyte b hb), fun p hp => le_max_of_le_left (h.onTime.fdLastPulse p hp),
      fun p hp => le_max_of_le_left (h.onTime.hdLastPulse p hp)⟩,
    h.agendaExternal⟩

theorem State.Inv.dropStimulus (h : s.Inv) (j : Nat) : (s.dropStimulus j).Inv :=
  ⟨{ h.inRange with }, { h.timersArmed with }, { h.onTime with },
    fun e he => h.agendaExternal e (List.mem_of_mem_eraseIdx he)⟩

end Sys2Proof.Machine
end

section
/-! The invariant under the meanings of the operations, and under a step. -/

namespace Sys2Proof.Machine

variable {s t : State}

/-- Whatever an increment leads to keeps the invariant (rule R115). -/
theorem State.Inv.afterIncrement (h : s.Inv) : s.afterIncrement.Inv := by
  obtain ⟨buffer, byte, busy, idle, bits, count, pos, p, hb, m, cs, heq, -, hbuffer, hcount, hbyte⟩ :=
    s.afterIncrement_frame
  rw [heq]
  refine ⟨{ h.inRange with buffer := hbuffer h.inRange.buffer h.cfg_pos.1, pendingCount := ?_ },
    { h.timersArmed with byte := ?_ }, { h.onTime with byte := ?_ }, h.agendaExternal⟩
  · rcases hcount with rfl | rfl
    · exact h.inRange.pendingCount
    · exact Nat.zero_le _
  · rcases hbyte with ⟨rfl, rfl⟩ | rfl | ⟨hbusy, -⟩
    · exact h.timersArmed.byte
    · exact fun hne => absurd rfl hne
    · exact fun _ => hbusy
  · rcases hbyte with ⟨rfl, -⟩ | rfl | ⟨-, u, rfl, hu⟩
    · exact h.onTime.byte
    · nofun
    · rintro b ⟨⟩
      exact hu

/-- A request for a code bit keeps the invariant, the time and the busy flag. -/
theorem State.nextCodeBit_keeps_inv (k : Kind) (d : Nat) (h : s.Inv) :
    (s.nextCodeBit k d).2.Inv ∧ (s.nextCodeBit k d).2.now = s.now ∧ (s.nextCodeBit k d).2.busy = s.busy ∧
      (s.nextCodeBit k d).2.pendingCount = s.pendingCount := by
  rcases s.nextCodeBit_cases k d with ⟨p, hb, n, cs, heq, -⟩ | ⟨b, r, p, hb, n, cs, heq, -⟩
  · rw [heq]
    exact ⟨h.freeFields s.pendingBits s.readPos s.idleCount p hb s.signals n _ s.result, rfl, rfl, rfl⟩
  · rw [heq]
    exact ⟨h.freeFields s.pendingBits r s.idleCount p hb s.signals n _ s.result, rfl, rfl, rfl⟩

/-- A read firing keeps the invariant while busy: a bit is taken only below 16 pending bits, and `BYTE` is armed at the horizon
or at the byte's end, which has not passed (rule R156). -/
theorem State.Inv.readByteFire (h : s.Inv) (hbusy : s.busy = true) (k : Kind) : (s.readByteFire k).Inv := by
  have hhorizon : s.now ≤ s.now + byteTime s.cfg k := Nat.le_add_right _ _
  unfold State.readByteFire
  refine readLoop_induction k (s.now + byteTime s.cfg k)
    (P := fun u => u.Inv ∧ u.busy = true ∧ u.now = s.now) (Q := State.Inv)
    ?bit ?store ?suspend ?wait ?fuel _ s (.inl (readByteFire_fuel _ s)) ⟨h, hbusy, rfl⟩
  case bit =>
    rintro u b u' ⟨hu, hub, hun⟩ hlt hbit
    obtain ⟨hu', hn', hb', hc'⟩ := State.nextCodeBit_keeps_inv k (s.now + byteTime s.cfg k) hu
    rw [hbit] at hu' hn' hb' hc'
    exact ⟨hu'.withPending _ (by simp only at hc'; omega), hb'.trans hub, hn'.trans hun⟩
  case store =>
    rintro u ⟨hu, hub, hun⟩ - -
    exact ⟨(hu.memWrite _ _).advanceCursor.withPending _ (Nat.zero_le _), hub, hun⟩
  case suspend =>
    rintro u u' ⟨hu, hub, hun⟩ - hbit
    obtain ⟨hu', hn', hb', -⟩ := State.nextCodeBit_keeps_inv k (s.now + byteTime s.cfg k) hu
    rw [hbit] at hu' hn' hb'
    exact hu'.scheduleByte (hb'.trans hub) (by rw [hn', hun]; exact hhorizon)
  case wait =>
    rintro u ⟨hu, hub, -⟩ - hlt
    exact hu.scheduleByte hub hlt.le
  case fuel =>
    rintro u ⟨hu, hub, hun⟩ -
    exact hu.scheduleByte hub (hun ▸ hhorizon)

/-- A write firing keeps the invariant while busy (rule R162). -/
theorem State.Inv.writeByteFire (h : s.Inv) (hbusy : s.busy = true) (k : Kind) : (s.writeByteFire k).Inv :=
  (((h.withCalls (s.pendingEmission k ++ s.calls)).advanceCursor.withPending _ le_rfl).scheduleByte hbusy
    (Nat.le_add_right s.now _))

/-- A gated write keeps the invariant when its effect does (rule R131). -/
theorem State.Inv.gatedWrite (h : s.Inv) {effect : State → State} (heff : (effect s).Inv) : (s.gatedWrite effect).Inv := by
  unfold State.gatedWrite
  split
  · exact h
  · exact heff

/-- A gated read keeps the invariant when its effect does (rule R131). -/
theorem State.Inv.gatedRead (h : s.Inv) {effect : State → State} (heff : (effect s).Inv) : (s.gatedRead effect).Inv := by
  unfold State.gatedRead
  split
  · exact h.returns _
  · exact heff

/-- Every operation of an agent outside the block keeps the invariant. -/
theorem exec_external_keeps_inv {i : Instr} (h : s.Inv) (hi : i.external = true) (he : exec i s = .next t) : t.Inv := by
  cases i with
  | wrControl0 data =>
    obtain rfl := Host.Outcome.next.inj he
    exact h.gatedWrite (((h.storeCommand _).scheduleMotor (Nat.le_add_right s.now _)).withCalls _)
  | wrControl1 data =>
    obtain rfl := Host.Outcome.next.inj he
    exact h.gatedWrite (h.storeControl1 data)
  | rdStatus0 peek =>
    rw [execRdStatus0_frame peek s t he]
    exact h.freeFields s.pendingBits s.readPos s.idleCount s.pllAnswers s.hdBits _ _ _ _
  | rdStatus1 peek =>
    obtain rfl := Host.Outcome.next.inj he
    exact h.returns _
  | wrStart data =>
    obtain rfl := Host.Outcome.next.inj he
    refine h.gatedWrite ?_
    split
    · exact h.setBusy.freeFields s.pendingBits s.readPos (some 0) s.pllAnswers s.hdBits s.signals s.drawn s.calls s.result
    · exact h
  | wrData data =>
    obtain rfl := Host.Outcome.next.inj he
    exact h.gatedWrite (h.memWrite _ _).advanceCursor
  | wrReset data =>
    obtain rfl := Host.Outcome.next.inj he
    exact h.gatedWrite (h.withCursor h.cfg_pos.1)
  | rdData peek =>
    obtain rfl := Host.Outcome.next.inj he
    refine h.gatedRead ?_
    cases peek with
    | true => exact h.returns _
    | false => exact (h.returns _).advanceCursor
  | rdReset peek =>
    obtain rfl := Host.Outcome.next.inj he
    exact h.gatedRead (h.returns _)
  | invalid dir offset data peek =>
    obtain rfl := Host.Outcome.next.inj he
    cases dir with
    | read => exact h.returns _
    | write => exact h
  | fdPulse n =>
    obtain rfl := Host.Outcome.next.inj he
    split
    · exact h.countPulse.afterIncrement
    · exact h
  | hdIndex =>
    obtain rfl := Host.Outcome.next.inj he
    split
    · next hk => exact ((h.measurePeriod hk).indexPulse s.measurePeriod_now.ge).afterIncrement
    · exact h
  | deviceReset =>
    obtain rfl := Host.Outcome.next.inj he
    exact h.deviceReset.withCalls _
  | _ => exact absurd hi Bool.false_ne_true

/-- The operations that the scheduler hands to the block: one of an outside agent, or a timer's firing, `BYTE` only while
busy. -/
def State.CanTake (s : State) (i : Instr) : Prop :=
  i.external = true ∨ i = .motorFire ∨ i = .sectorFire ∨ (i = .byteFire ∧ s.busy = true)

/-- Every operation that the scheduler hands to the block keeps the invariant. -/
theorem exec_keeps_inv {i : Instr} (h : s.Inv) (hi : s.CanTake i) (he : exec i s = .next t) : t.Inv := by
  rcases hi with hext | rfl | rfl | ⟨rfl, hbusy⟩
  · exact exec_external_keeps_inv h hext he
  · obtain rfl := Host.Outcome.next.inj he
    exact h.cancelMotor.withCalls _
  · obtain rfl := Host.Outcome.next.inj he
    split
    · exact h.countSector.afterIncrement
    · exact h
  · obtain rfl := Host.Outcome.next.inj he
    split
    · exact h.readByteFire hbusy _
    · exact h.writeByteFire hbusy _

/-- Moving on to the time of an event that is after no other keeps the invariant (rule R60). -/
theorem State.Inv.advanceTo_least (h : s.Inv) {q : Pending} (hleast : ∀ r ∈ s.pending, q.NotAfter r) :
    (s.advanceTo q.time).Inv := by
  have htime : ∀ r ∈ s.pending, q.time ≤ r.time := fun r hr => (hleast r hr).elim le_of_lt fun heq => heq.1.le
  exact h.advanceTo (fun m hm => htime _ ((s.mem_pending _).mpr (.inl ⟨m, hm, rfl⟩)))
    (fun p hp => htime _ ((s.mem_pending _).mpr (.inr (.inl ⟨p, hp, rfl⟩))))
    (fun b hb => htime _ ((s.mem_pending _).mpr (.inr (.inr (.inl ⟨b, hb, rfl⟩)))))

/-- Taking the next event leaves a state of the invariant, in which the operation taken is one the scheduler may hand over. -/
theorem State.Inv.take (h : s.Inv) {q : Pending} {i : Instr} {s' : State} (hq : q ∈ s.pending)
    (hleast : ∀ r ∈ s.pending, q.NotAfter r) (ht : s.take q = .runs i s') : s'.Inv ∧ s'.CanTake i := by
  have hnow := h.advanceTo_least hleast
  rcases s.take_cases s' q i ht with ⟨rfl, -, rfl⟩ | ⟨rfl, -, rfl⟩ | ⟨rfl, hsrc, rfl⟩ | ⟨j, w, hsrc, hdec, rfl⟩
  · exact ⟨hnow.cancelMotor, .inr (.inl rfl)⟩
  · exact ⟨hnow.repeatSector, .inr (.inr (.inl rfl))⟩
  · refine ⟨hnow.cancelByte, .inr (.inr (.inr ⟨rfl, ?_⟩))⟩
    rcases (s.mem_pending q).mp hq with ⟨_, _, rfl⟩ | ⟨_, _, rfl⟩ | ⟨b, hb, rfl⟩ | ⟨_, _, _, rfl⟩
    case inr.inr.inl => exact h.timersArmed.byte (by simp [hb])
    all_goals cases hsrc
  · refine ⟨hnow.dropStimulus j, .inl ?_⟩
    rcases (s.mem_pending q).mp hq with ⟨_, _, rfl⟩ | ⟨_, _, rfl⟩ | ⟨_, _, rfl⟩ | ⟨j', e, he, rfl⟩
    case inr.inr.inr =>
      cases hsrc
      obtain ⟨i', hi', hext⟩ := h.agendaExternal e (List.mem_of_getElem? he)
      rw [hdec] at hi'
      cases hi'
      exact hext
    all_goals cases hsrc

/-- Settles O2: taking the next event keeps the invariant, and so does every operation that can be taken. -/
theorem everyStepKeepsInvariant : Obligations.EveryStepKeepsInvariant := by
  intro s t h hstep
  obtain ⟨-, ⟨-, rfl⟩ | ⟨q, i, s', hq, hleast, htake, hexec⟩⟩ := step_cases s t hstep
  · exact h
  · obtain ⟨hinv, hcan⟩ := h.take hq hleast htake
    exact exec_keeps_inv hinv hcan hexec

end Sys2Proof.Machine
end

section
/-! What an operation may change of the configuration, the time, the agenda, CommandState and the busy flag, said once for every
operation. -/

namespace Sys2Proof.Machine

variable {s t : State} {i : Instr}

/-- The operations that store a CommandState (rule R23, rule R195). -/
def StoresCommand (i : Instr) : Prop := (∃ data, i = .wrControl0 data) ∨ (∃ data, i = .wrControl1 data) ∨ i = .deviceReset

/-- The operations that may clear the busy flag: the increments of the sector clocks and the device reset (rule R26). -/
def MayClearBusy (i : Instr) : Prop := (∃ n, i = .fdPulse n) ∨ i = .hdIndex ∨ i = .sectorFire ∨ i = .deviceReset

/-- What an operation keeps of the configuration, the time and the agenda, and what it may do to CommandState and the busy
flag. -/
structure ControlFrame (i : Instr) (s t : State) : Prop where
  cfg : t.cfg = s.cfg
  now : t.now = s.now
  agenda : t.agenda = s.agenda
  cmd : t.cmd = s.cmd ∨ StoresCommand i
  busy : t.busy = s.busy ∨ ((∃ data, i = .wrStart data) ∧ t.busy = true) ∨ (MayClearBusy i ∧ t.busy = false)

/-- An operation that keeps all five fields. For an update that names none of them each equation holds by `rfl`. -/
theorem ControlFrame.ofSame (hcfg : t.cfg = s.cfg := by rfl) (hnow : t.now = s.now := by rfl)
    (hagenda : t.agenda = s.agenda := by rfl) (hcmd : t.cmd = s.cmd := by rfl) (hbusy : t.busy = s.busy := by rfl) :
    ControlFrame i s t :=
  ⟨hcfg, hnow, hagenda, .inl hcmd, .inl hbusy⟩

/-- A gated write does nothing, or its effect (rule R131). -/
theorem ControlFrame.gatedWrite {effect : State → State} (h : ControlFrame i s (effect s)) :
    ControlFrame i s (s.gatedWrite effect) := by
  unfold State.gatedWrite
  split
  · exact .ofSame
  · exact h

/-- A gated read only returns a value, or has its effect (rule R131). -/
theorem ControlFrame.gatedRead {effect : State → State} (h : ControlFrame i s (effect s)) :
    ControlFrame i s (s.gatedRead effect) := by
  unfold State.gatedRead
  split
  · exact .ofSame
  · exact h

/-- An increment's consequences keep all but the busy flag, which they may clear (rule R115). -/
theorem ControlFrame.afterIncrement (hi : MayClearBusy i) (h : ControlFrame i s t) (hbusy : t.busy = s.busy) :
    ControlFrame i s t.afterIncrement := by
  obtain ⟨_, _, b, _, _, _, _, _, _, _, _, heq, hset, -⟩ := t.afterIncrement_frame
  rw [heq]
  refine ⟨h.cfg, h.now, h.agenda, h.cmd, ?_⟩
  cases b with
  | true => exact .inl ((hset rfl).symm.trans hbusy)
  | false => exact .inr (.inr ⟨hi, rfl⟩)

/-- A request for a code bit keeps all five fields (rule R102). -/
theorem State.nextCodeBit_controlFrame (i : Instr) (s : State) (k : Kind) (d : Nat) :
    ControlFrame i s (s.nextCodeBit k d).2 := by
  rcases s.nextCodeBit_cases k d with ⟨_, _, _, _, heq, -⟩ | ⟨_, _, _, _, _, _, heq, -⟩
  · rw [heq]
    exact .ofSame
  · rw [heq]
    exact .ofSame

/-- A read firing keeps all five fields (rule R156). -/
theorem State.readByteFire_controlFrame (i : Instr) (s : State) (k : Kind) : ControlFrame i s (s.readByteFire k) := by
  obtain ⟨_, _, _, _, _, _, _, _, _, _, heq⟩ := s.readByteFire_frame k
  rw [heq]
  exact .ofSame

/-- A write firing keeps all five fields (rule R162). -/
theorem State.writeByteFire_controlFrame (i : Instr) (s : State) (k : Kind) : ControlFrame i s (s.writeByteFire k) :=
  .ofSame

/-- A bit of the hard disk keeps all five fields (rule R101). -/
theorem State.hdNextBit_controlFrame (i : Instr) (s : State) : ControlFrame i s s.hdNextBit.2 := by
  obtain ⟨_, _, heq⟩ := s.drawHdBit_frame
  simp only [State.hdNextBit, heq]
  exact .ofSame

/-- Every operation keeps the configuration, the time and the agenda; only control writes and the device reset store a
CommandState; only a start sets the busy flag; only increments and the device reset clear it. -/
theorem exec_controlFrame (h : exec i s = .next t) : ControlFrame i s t := by
  cases i with
  | wrControl0 data =>
    obtain rfl := Host.Outcome.next.inj h
    exact .gatedWrite ⟨rfl, rfl, rfl, .inr (.inl ⟨data, rfl⟩), .inl rfl⟩
  | wrControl1 data =>
    obtain rfl := Host.Outcome.next.inj h
    exact .gatedWrite ⟨rfl, rfl, rfl, .inr (.inr (.inl ⟨data, rfl⟩)), .inl rfl⟩
  | rdStatus0 peek =>
    rw [execRdStatus0_frame peek s t h]
    exact .ofSame
  | wrStart data =>
    obtain rfl := Host.Outcome.next.inj h
    refine .gatedWrite ?_
    split
    · exact ⟨rfl, rfl, rfl, .inl rfl, .inr (.inl ⟨⟨data, rfl⟩, rfl⟩)⟩
    · exact .ofSame
  | wrData | wrReset =>
    obtain rfl := Host.Outcome.next.inj h
    exact .gatedWrite .ofSame
  | rdData peek =>
    obtain rfl := Host.Outcome.next.inj h
    refine .gatedRead ?_
    cases peek with
    | true => exact .ofSame
    | false => exact .ofSame
  | rdReset peek =>
    obtain rfl := Host.Outcome.next.inj h
    exact .gatedRead .ofSame
  | invalid dir offset data peek =>
    obtain rfl := Host.Outcome.next.inj h
    cases dir with
    | read => exact .ofSame
    | write => exact .ofSame
  | fdPulse n =>
    obtain rfl := Host.Outcome.next.inj h
    split
    · exact .afterIncrement (.inl ⟨n, rfl⟩) .ofSame rfl
    · exact .ofSame
  | hdIndex =>
    obtain rfl := Host.Outcome.next.inj h
    split
    · obtain ⟨_, _, heq⟩ := s.measurePeriod_frame
      rw [heq]
      exact .afterIncrement (.inr (.inl rfl)) .ofSame rfl
    · exact .ofSame
  | sectorFire =>
    obtain rfl := Host.Outcome.next.inj h
    split
    · rw [s.countSector_eq]
      exact .afterIncrement (.inr (.inr (.inl rfl))) .ofSame rfl
    · exact .ofSame
  | byteFire =>
    obtain rfl := Host.Outcome.next.inj h
    split
    · exact s.readByteFire_controlFrame _ _
    · exact s.writeByteFire_controlFrame _ _
  | deviceReset =>
    obtain rfl := Host.Outcome.next.inj h
    exact ⟨rfl, rfl, rfl, .inr (.inr (.inr rfl)), .inr (.inr ⟨.inr (.inr (.inr rfl)), rfl⟩)⟩
  | pllNextBit deadline =>
    obtain rfl := Host.Outcome.next.inj h
    exact { s.nextCodeBit_controlFrame _ .fd deadline with }
  | hdNextBit =>
    obtain rfl := Host.Outcome.next.inj h
    exact { s.hdNextBit_controlFrame _ with }
  | nextCodeBit deadline =>
    obtain rfl := Host.Outcome.next.inj h
    exact { s.nextCodeBit_controlFrame _ s.kind deadline with }
  | readByteFire k =>
    obtain rfl := Host.Outcome.next.inj h
    exact s.readByteFire_controlFrame _ k
  | writeByteFire k =>
    obtain rfl := Host.Outcome.next.inj h
    exact s.writeByteFire_controlFrame _ k
  | rdStatus1 | motorFire | mfmEncode | mfmDecode | pllSetClock | pllResetForRead | emitFlux | emitCode =>
    obtain rfl := Host.Outcome.next.inj h
    exact .ofSame

/-- Taking an event keeps the configuration and never moves the time back. -/
theorem State.take_cfg_now {q : Pending} {s' : State} (h : s.take q = .runs i s') : s'.cfg = s.cfg ∧ s.now ≤ s'.now := by
  rcases s.take_cases s' q i h with ⟨-, -, rfl⟩ | ⟨-, -, rfl⟩ | ⟨-, -, rfl⟩ | ⟨_, _, -, -, rfl⟩ <;>
    exact ⟨rfl, le_max_left _ _⟩

/-- Settles O4: the time moves only when an event is taken, and no operation touches the time or the configuration. -/
theorem stepKeepsConfigurationAndTimeOrder : Obligations.StepKeepsConfigurationAndTimeOrder := by
  intro s t hstep
  obtain ⟨-, ⟨-, rfl⟩ | ⟨q, i, s', -, -, htake, hexec⟩⟩ := step_cases s t hstep
  · exact ⟨rfl, le_rfl⟩
  · obtain ⟨hcfg, hnow⟩ := State.take_cfg_now htake
    have hframe := exec_controlFrame hexec
    exact ⟨hframe.cfg.trans hcfg, hnow.trans hframe.now.ge⟩

/-- Settles O58: of the three ways an operation may treat the busy flag, each change admits one. -/
theorem onlyStartSetsAndIncrementsClearBusy : Obligations.OnlyStartSetsAndIncrementsClearBusy := by
  intro i s t hexec
  rcases (exec_controlFrame hexec).busy with hkeep | ⟨hstart, hset⟩ | ⟨hclear, hcleared⟩
  · rw [hkeep]
    exact ⟨fun hidle hbusy => absurd hbusy (by simp [hidle]), fun hbusy hidle => absurd hbusy (by simp [hidle])⟩
  · exact ⟨fun _ _ => hstart, fun _ hidle => absurd hset (by simp [hidle])⟩
  · exact ⟨fun _ hbusy => absurd hbusy (by simp [hcleared]), fun _ _ => hclear⟩

/-! ### Port accesses while busy -/

/-- While busy a gated write has no effect (rule R131). -/
theorem State.gatedWrite_of_busy (hbusy : s.busy = true) (effect : State → State) : s.gatedWrite effect = s :=
  if_pos hbusy

/-- While busy a gated read only returns `BUSY_VALUE` (rule R131). -/
theorem State.gatedRead_of_busy (hbusy : s.busy = true) (effect : State → State) :
    s.gatedRead effect = s.returns (.byte s.cfg.busyValue) :=
  if_pos hbusy

/-- The fields that host, drives and timers share: the buffer, the cursor and CommandState (rule R64). -/
def SameShared (s t : State) : Prop := t.buffer = s.buffer ∧ t.cursor = s.cursor ∧ t.cmd = s.cmd

/-- A busy machine ignores port writes. -/
theorem exec_portWrite_of_busy (hbusy : s.busy = true) {d : Byte}
    (hi : i = .wrControl0 d ∨ i = .wrControl1 d ∨ i = .wrStart d ∨ i = .wrData d ∨ i = .wrReset d) :
    exec i s = .next s := by
  rcases hi with rfl | rfl | rfl | rfl | rfl <;> exact congrArg _ (State.gatedWrite_of_busy hbusy _)

/-- A port read of a busy machine leaves the shared state alone. -/
theorem exec_portRead_of_busy (hbusy : s.busy = true) {p : Bool}
    (hi : i = .rdStatus0 p ∨ i = .rdStatus1 p ∨ i = .rdData p ∨ i = .rdReset p) (h : exec i s = .next t) :
    SameShared s t := by
  rcases hi with rfl | rfl | rfl | rfl
  · rw [execRdStatus0_frame p s t h]
    exact ⟨rfl, rfl, rfl⟩
  · obtain rfl := Host.Outcome.next.inj h
    exact ⟨rfl, rfl, rfl⟩
  · obtain rfl := Host.Outcome.next.inj h
    rw [State.gatedRead_of_busy hbusy]
    exact ⟨rfl, rfl, rfl⟩
  · obtain rfl := Host.Outcome.next.inj h
    rw [State.gatedRead_of_busy hbusy]
    exact ⟨rfl, rfl, rfl⟩

/-- An access to an `INVALID` slot leaves the shared state alone (rule R148). -/
theorem exec_invalid_sameShared {dir : Dir} {o : Nat} {d : Byte} {p : Bool} (h : exec (.invalid dir o d p) s = .next t) :
    SameShared s t := by
  obtain rfl := Host.Outcome.next.inj h
  cases dir with
  | read => exact ⟨rfl, rfl, rfl⟩
  | write => exact ⟨rfl, rfl, rfl⟩

/-- Settles O59: CommandState by the frame of every operation, the shared state by the gating of each port access. -/
theorem onlyControlWritesChangeCommandState : Obligations.OnlyControlWritesChangeCommandState := by
  intro i s t hexec
  refine ⟨fun hne => (exec_controlFrame hexec).cmd.resolve_left hne, fun hbusy hport => ?_⟩
  rcases hport with ⟨d, hwrite⟩ | ⟨p, hread⟩ | ⟨dir, o, d, p, rfl⟩
  · rw [exec_portWrite_of_busy hbusy hwrite] at hexec
    obtain rfl := Host.Outcome.next.inj hexec
    exact ⟨rfl, rfl, rfl⟩
  · exact exec_portRead_of_busy hbusy hread hexec
  · exact exec_invalid_sameShared hexec

end Sys2Proof.Machine
end

section
/-! Which event the scheduler takes, when it is known to come first. -/

namespace Sys2Proof.Machine

variable {s : State}

/-- Events that all come after a later one are passed over. -/
theorem leastPending_append_of_before (p q : Pending) (l r : List Pending) (h : ∀ x ∈ p :: l, q.before x = true) :
    leastPending p (l ++ q :: r) = leastPending q r := by
  induction l generalizing p with
  | nil => simp only [List.nil_append, leastPending, if_pos (h p (by simp))]
  | cons x l ih =>
    simp only [List.cons_append, leastPending]
    refine ih _ fun y hy => h y ?_
    rcases List.mem_cons.mp hy with rfl | hy
    · split <;> simp
    · simp [hy]

/-- The event taken is one that is strictly before every event listed earlier and after none listed later. -/
theorem State.fetch_eq_take (l r : List Pending) (q : Pending) (hp : s.pending = l ++ q :: r)
    (hbefore : ∀ x ∈ l, q.before x = true) (hafter : ∀ x ∈ r, q.NotAfter x) : s.fetch = s.take q := by
  have hq := leastPending_eq_first q r hafter
  unfold State.fetch
  cases l with
  | nil => simp only [hp, List.nil_append, hq]
  | cons p l => simp only [hp, List.cons_append, leastPending_append_of_before p q l r hbefore, hq]

/-- A timer's pending firing. -/
theorem mem_pendingTimer (rank : Nat) (source : Source) (timer : Option Nat) (p : Pending) :
    p ∈ pendingTimer rank source timer ↔ ∃ t, timer = some t ∧ p = { time := t, rank := rank, source := source } := by
  cases timer <;> simp [pendingTimer]

/-- The first entry of the agenda is taken when it comes strictly before every timer's firing and after no other entry. -/
theorem State.fetch_eq_take_first (e : Stimulus) (rest : List Stimulus) (hagenda : s.agenda = e :: rest)
    (hmotor : ∀ m, s.motor = some m → e.time < m) (hsector : ∀ p, s.sector = some p → e.time < p.next)
    (hbyte : ∀ b, s.byte = some b → e.time < b)
    (hrest : ∀ e' ∈ rest, e.time < e'.time ∨
      (e.time = e'.time ∧ stimulusRank s.cfg.portMap e ≤ stimulusRank s.cfg.portMap e')) :
    s.fetch = s.take { time := e.time, rank := stimulusRank s.cfg.portMap e, source := .stimulus 0 e.word } := by
  refine State.fetch_eq_take _ (pendingStimuli s.cfg.portMap 1 rest) _
    (by rw [State.pending, hagenda, pendingStimuli]) ?timers ?entries
  case timers =>
    intro x hx
    refine (Pending.before_iff _ _).mpr (.inl ?_)
    simp only [List.mem_append, mem_pendingTimer, Option.map_eq_some_iff] at hx
    rcases hx with (⟨m, hm, rfl⟩ | ⟨_, ⟨p, hp, rfl⟩, rfl⟩) | ⟨b, hb, rfl⟩
    · exact hmotor m hm
    · exact hsector p hp
    · exact hbyte b hb
  case entries =>
    intro x hx
    obtain ⟨j, e', he', rfl⟩ := (mem_pendingStimuli _ _ _ _).mp hx
    exact hrest e' (List.mem_of_getElem? he')

/-- With an admitted configuration a step executes the operation that the scheduler hands over. -/
theorem step_of_fetch {i : Instr} {s' : State} (hcfg : configOk s.cfg = true) (hfetch : s.fetch = .runs i s') :
    step s = exec i s' := by
  simp only [step, hcfg, hfetch, if_true]

/-- Settles O7: the first entry is the event taken, and taking it uses it up and moves the time on. -/
theorem stepRunsTheDecodedOperation : Obligations.StepRunsTheDecodedOperation := by
  intro s e rest i hcfg hagenda hdec hmotor hsector hbyte hrest
  refine step_of_fetch hcfg ?_
  rw [State.fetch_eq_take_first e rest hagenda hmotor hsector hbyte hrest]
  simp only [State.take, hdec, State.advanceTo, State.dropStimulus, hagenda, List.eraseIdx_cons_zero]

/-- A table word that decodes is decoded under `PM_TEST` from its low bits. -/
theorem decode_of_decodeTableWord {nbits w : Nat} {i : Instr} (h : decodeTableWord nbits w = some i) :
    decode PortMap.pmTest (w % 2 ^ nbits) = .ok i := by
  unfold decodeTableWord at h
  split at h
  · next hdec => rw [hdec, Option.some.inj h]
  · nomatch h

/-- Settles O8: the placed word is the first entry, at time 0, and no other event is due then. -/
theorem placedWordRunsNext : Obligations.PlacedWordRunsNext := by
  intro s nbits w i hword hcfg hmotor hsector hbyte hagenda
  have hstep := stepRunsTheDecodedOperation (s.withFetchWord nbits w) { time := 0, rank := 0, word := w % 2 ^ nbits }
    s.agenda i hcfg rfl (decode_of_decodeTableWord hword) hmotor hsector hbyte fun e he => .inl (hagenda e he)
  simpa only [State.withFetchWord, State.placeWord, Nat.max_zero] using hstep

end Sys2Proof.Machine
end

section
/-! The order of the pending events: none is passed over (rule R60), and those of one time run by their ranks (rule R61,
rule R62). -/

namespace Sys2Proof.Machine

variable {s : State}

/-! ### No pending event is passed over -/

theorem Pending.NotAfter.time_le {q r : Pending} (h : q.NotAfter r) : q.time ≤ r.time :=
  h.elim le_of_lt fun heq => heq.1.le

/-- Taking an event moves the time exactly to the event's, and an event whose time has passed comes at once. -/
theorem State.take_now {q : Pending} {i : Instr} {s' : State} (h : s.take q = .runs i s') :
    s'.now = max s.now q.time := by
  rcases s.take_cases s' q i h with ⟨-, -, rfl⟩ | ⟨-, -, rfl⟩ | ⟨-, -, rfl⟩ | ⟨_, _, -, -, rfl⟩ <;> rfl

/-- Settles O5: the time moves to that of the event taken, which is after no pending event. -/
theorem noPendingEventIsPassedOver : Obligations.NoPendingEventIsPassedOver := by
  intro s s' i hfetch p hp
  rcases s.fetch_cases with ⟨-, hwaits⟩ | ⟨q, -, hleast, htake⟩
  · rw [hwaits] at hfetch
    nomatch hfetch
  · rw [htake] at hfetch
    rw [State.take_now hfetch]
    exact max_le_max_left _ (hleast p hp).time_le

/-! ### An event against the firing of a timer and against the entries of the agenda -/

/-- An event that is no later than another comes first where a condition on the ranks settles equal times. -/
theorem lt_or_eq_and_of_le {a b : Nat} {c : Prop} (h : a ≤ b) (hc : c) : a < b ∨ (a = b ∧ c) :=
  h.lt_or_eq.imp_right (⟨·, hc⟩)

theorem before_pendingTimer {q : Pending} {rank : Nat} {source : Source} {timer : Option Nat}
    (h : ∀ t, timer = some t → q.time < t ∨ (q.time = t ∧ q.rank < rank)) :
    ∀ x ∈ pendingTimer rank source timer, q.before x = true := by
  intro x hx
  obtain ⟨t, ht, rfl⟩ := (mem_pendingTimer _ _ _ _).mp hx
  exact (Pending.before_iff _ _).mpr (h t ht)

theorem notAfter_pendingTimer {q : Pending} {rank : Nat} {source : Source} {timer : Option Nat}
    (hrank : q.rank ≤ rank) (h : ∀ t, timer = some t → q.time ≤ t) :
    ∀ x ∈ pendingTimer rank source timer, q.NotAfter x := by
  intro x hx
  obtain ⟨t, ht, rfl⟩ := (mem_pendingTimer _ _ _ _).mp hx
  exact lt_or_eq_and_of_le (h t ht) hrank

theorem notAfter_pendingStimuli {q : Pending} {m : PortMap} {k : Nat} {l : List Stimulus}
    (h : ∀ e ∈ l, q.time < e.time ∨ (q.time = e.time ∧ q.rank ≤ stimulusRank m e)) :
    ∀ x ∈ pendingStimuli m k l, q.NotAfter x := by
  intro x hx
  obtain ⟨j, e, he, rfl⟩ := (mem_pendingStimuli _ _ _ _).mp hx
  exact h e (List.mem_of_getElem? he)

/-- What holds of the next firing of every armed `SECTOR` holds of its time. -/
theorem forall_sector_next {sector : Option Periodic} {P : Nat → Prop} (h : ∀ p, sector = some p → P p.next) :
    ∀ n, sector.map Periodic.next = some n → P n := by
  intro n hn
  obtain ⟨p, hp, rfl⟩ := Option.map_eq_some_iff.mp hn
  exact h p hp

/-- The rank of an entry that names an operation: the operation's own, or the one that the entry gives. -/
theorem stimulusRank_of_decode {m : PortMap} {e : Stimulus} {i : Instr} (h : decode m e.word = .ok i) :
    stimulusRank m e = (eventRank i).getD e.rank := by
  simp only [stimulusRank, h]

/-! ### What a step runs when one event comes first

The events are listed as `MOTOR`, `SECTOR`, `BYTE`, the agenda: the event that comes first is strictly before those listed
earlier, and not after those listed later. -/

/-- `MOTOR` runs when it is after no other event. -/
theorem step_eq_motorFire {t : Nat} (hcfg : configOk s.cfg = true) (hmotor : s.motor = some t)
    (hsector : ∀ p, s.sector = some p → t ≤ p.next) (hbyte : ∀ b, s.byte = some b → t ≤ b)
    (hagenda : ∀ e ∈ s.agenda, t < e.time ∨ (t = e.time ∧ 1 ≤ stimulusRank s.cfg.portMap e)) :
    step s = exec .motorFire { s with motor := none, now := max s.now t } := by
  have hfetch : s.fetch = s.take { time := t, rank := 1, source := .motor } := by
    refine State.fetch_eq_take [] (pendingTimer 5 .sector (s.sector.map Periodic.next) ++ pendingTimer 7 .byte s.byte ++
      pendingStimuli s.cfg.portMap 0 s.agenda) _ (by simp [State.pending, hmotor, pendingTimer]) nofun ?_
    simp only [List.forall_mem_append]
    exact ⟨⟨notAfter_pendingTimer (by simp) (forall_sector_next hsector), notAfter_pendingTimer (by simp) hbyte⟩,
      notAfter_pendingStimuli hagenda⟩
  exact step_of_fetch hcfg hfetch

/-- `SECTOR` runs when it is before `MOTOR` and after no other event, and its next firing is one period later. -/
theorem step_eq_sectorFire {t p : Nat} (hcfg : configOk s.cfg = true)
    (hsector : s.sector = some { next := t, period := p }) (hmotor : ∀ m, s.motor = some m → t < m)
    (hbyte : ∀ b, s.byte = some b → t ≤ b)
    (hagenda : ∀ e ∈ s.agenda, t < e.time ∨ (t = e.time ∧ 5 ≤ stimulusRank s.cfg.portMap e)) :
    step s = exec .sectorFire { s with sector := some { next := t + p, period := p }, now := max s.now t } := by
  have hfetch : s.fetch = s.take { time := t, rank := 5, source := .sector } := by
    refine State.fetch_eq_take (pendingTimer 1 .motor s.motor)
      (pendingTimer 7 .byte s.byte ++ pendingStimuli s.cfg.portMap 0 s.agenda) _
      (by simp [State.pending, hsector, pendingTimer]) (before_pendingTimer fun m hm => .inl (hmotor m hm)) ?_
    simp only [List.forall_mem_append]
    exact ⟨notAfter_pendingTimer (by simp) hbyte, notAfter_pendingStimuli hagenda⟩
  have htake : s.take { time := t, rank := 5, source := .sector } =
      .runs .sectorFire { s with sector := some { next := t + p, period := p }, now := max s.now t } := by
    simp only [State.take, State.repeatSector, State.advanceTo, hsector, Option.map_some]
  exact step_of_fetch hcfg (hfetch.trans htake)

/-- `BYTE` runs when it is before the other timers and after no entry of the agenda. -/
theorem step_eq_byteFire {t : Nat} (hcfg : configOk s.cfg = true) (hbyte : s.byte = some t)
    (hmotor : ∀ m, s.motor = some m → t < m) (hsector : ∀ p, s.sector = some p → t < p.next)
    (hagenda : ∀ e ∈ s.agenda, t < e.time ∨ (t = e.time ∧ 7 ≤ stimulusRank s.cfg.portMap e)) :
    step s = exec .byteFire { s with byte := none, now := max s.now t } := by
  have hfetch : s.fetch = s.take { time := t, rank := 7, source := .byte } := by
    refine State.fetch_eq_take (pendingTimer 1 .motor s.motor ++ pendingTimer 5 .sector (s.sector.map Periodic.next))
      (pendingStimuli s.cfg.portMap 0 s.agenda) _ (by simp [State.pending, hbyte, pendingTimer]) ?_
      (notAfter_pendingStimuli hagenda)
    simp only [List.forall_mem_append]
    exact ⟨before_pendingTimer fun m hm => .inl (hmotor m hm),
      before_pendingTimer (forall_sector_next fun p hp => .inl (hsector p hp))⟩
  exact step_of_fetch hcfg hfetch

/-- The only entry of the agenda runs when it is before every timer's firing, by its time or by its rank. -/
theorem step_eq_exec_entry {e : Stimulus} {i : Instr} (hcfg : configOk s.cfg = true) (hagenda : s.agenda = [e])
    (hdec : decode s.cfg.portMap e.word = .ok i)
    (hmotor : ∀ m, s.motor = some m → e.time < m ∨ (e.time = m ∧ stimulusRank s.cfg.portMap e < 1))
    (hsector : ∀ p, s.sector = some p → e.time < p.next ∨ (e.time = p.next ∧ stimulusRank s.cfg.portMap e < 5))
    (hbyte : ∀ b, s.byte = some b → e.time < b ∨ (e.time = b ∧ stimulusRank s.cfg.portMap e < 7)) :
    step s = exec i { s with agenda := [], now := max s.now e.time } := by
  have hfetch : s.fetch =
      s.take { time := e.time, rank := stimulusRank s.cfg.portMap e, source := .stimulus 0 e.word } := by
    refine State.fetch_eq_take (pendingTimer 1 .motor s.motor ++
      pendingTimer 5 .sector (s.sector.map Periodic.next) ++ pendingTimer 7 .byte s.byte) [] _
      (by rw [State.pending, hagenda, pendingStimuli, pendingStimuli]) ?_ nofun
    simp only [List.forall_mem_append]
    exact ⟨⟨before_pendingTimer hmotor, before_pendingTimer (forall_sector_next hsector)⟩, before_pendingTimer hbyte⟩
  have htake : s.take { time := e.time, rank := stimulusRank s.cfg.portMap e, source := .stimulus 0 e.word } =
      .runs i { s with agenda := [], now := max s.now e.time } := by
    simp only [State.take, hdec, State.advanceTo, State.dropStimulus, hagenda, List.eraseIdx_cons_zero]
  exact step_of_fetch hcfg (hfetch.trans htake)

/-! ### The events of one time -/

/-- The pulses of rule R61 are the events of rank 3. -/
theorem eventRank_of_pulse {i : Instr} (h : i = .hdIndex ∨ ∃ n, i = .fdPulse n) : eventRank i = some 3 := by
  rcases h with rfl | ⟨n, rfl⟩ <;> rfl

/-- Settles O6: each clause is the step that runs the event which comes first, by the ranks 1, 3, 5 and 7 of the events and the
rank 0 or above 7 of the host access. -/
theorem sameTimeEventsRunInOrder : Obligations.SameTimeEventsRunInOrder := by
  intro s t hcfg
  refine ⟨step_eq_motorFire hcfg, ?pulse, ?sector, ?byte, fun e i hagenda htime hdec hhost => ⟨?hostFirst, ?hostLast⟩⟩
  case pulse =>
    intro e i hagenda htime hdec hpulse hmotor hsector hbyte
    subst htime
    have hrank : stimulusRank s.cfg.portMap e = 3 := by
      rw [stimulusRank_of_decode hdec, eventRank_of_pulse hpulse, Option.getD_some]
    exact step_eq_exec_entry hcfg hagenda hdec (fun m hm => .inl (hmotor m hm))
      (fun p hp => lt_or_eq_and_of_le (hsector p hp) (by omega)) fun b hb => lt_or_eq_and_of_le (hbyte b hb) (by omega)
  case sector =>
    intro p hsector hmotor hbyte hagenda
    exact step_eq_sectorFire hcfg hsector hmotor hbyte fun e he => .inl (hagenda e he)
  case byte =>
    intro hbyte hmotor hsector hagenda
    exact step_eq_byteFire hcfg hbyte hmotor hsector fun e he => .inl (hagenda e he)
  all_goals
    have hrank : stimulusRank s.cfg.portMap e = e.rank := by rw [stimulusRank_of_decode hdec, hhost, Option.getD_none]
  case hostFirst =>
    subst htime
    intro hzero hmotor hsector hbyte
    exact step_eq_exec_entry hcfg hagenda hdec (fun m hm => lt_or_eq_and_of_le (hmotor m hm) (by omega))
      (fun p hp => lt_or_eq_and_of_le (hsector p hp) (by omega)) fun b hb => lt_or_eq_and_of_le (hbyte b hb) (by omega)
  case hostLast =>
    intro hlast hbyte hmotor hsector
    refine step_eq_byteFire hcfg hbyte (by simp [hmotor]) (by simp [hsector]) fun e' he' => ?_
    obtain rfl : e' = e := by simpa [hagenda] using he'
    exact .inr ⟨htime.symm, by omega⟩

end Sys2Proof.Machine
end

section
/-! Words and operations are each other's inverses: every well-formed operation has a word that decodes to it, and a word that
decodes is the word of a well-formed operation (rule R65, rule R67). -/

namespace Sys2Proof

variable {m : PortMap} {i : Instr}

/-! ### From the operation to its word and back -/

/-- Settles O10: the round trip of each operation, with every operand. -/
theorem encodedOperationDecodesToItself : Obligations.EncodedOperationDecodesToItself := by
  intro m i hwf
  cases i with
  | wrControl0 data => exact Laws.RoundTrip.wrControl0 data m hwf
  | wrControl1 data => exact Laws.RoundTrip.wrControl1 data m hwf
  | rdStatus0 peek => exact Laws.RoundTrip.rdStatus0 peek m hwf
  | rdStatus1 peek => exact Laws.RoundTrip.rdStatus1 peek m hwf
  | wrStart data => exact Laws.RoundTrip.wrStart data m hwf
  | wrData data => exact Laws.RoundTrip.wrData data m hwf
  | wrReset data => exact Laws.RoundTrip.wrReset data m hwf
  | rdData peek => exact Laws.RoundTrip.rdData peek m hwf
  | rdReset peek => exact Laws.RoundTrip.rdReset peek m hwf
  | invalid dir offset data peek => exact Laws.RoundTrip.invalid dir offset data peek m hwf
  | fdPulse n => exact Laws.RoundTrip.fdPulse n m hwf
  | hdIndex => exact Laws.RoundTrip.hdIndex m hwf
  | sectorFire => exact Laws.RoundTrip.sectorFire m hwf
  | byteFire => exact Laws.RoundTrip.byteFire m hwf
  | motorFire => exact Laws.RoundTrip.motorFire m hwf
  | deviceReset => exact Laws.RoundTrip.deviceReset m hwf
  | mfmEncode d p => exact Laws.RoundTrip.mfmEncode d p m hwf
  | mfmDecode c => exact Laws.RoundTrip.mfmDecode c m hwf
  | pllNextBit deadline => exact Laws.RoundTrip.pllNextBit deadline m hwf
  | pllSetClock h => exact Laws.RoundTrip.pllSetClock h m hwf
  | pllResetForRead t => exact Laws.RoundTrip.pllResetForRead t m hwf
  | hdNextBit => exact Laws.RoundTrip.hdNextBit m hwf
  | nextCodeBit deadline => exact Laws.RoundTrip.nextCodeBit deadline m hwf
  | readByteFire k => exact Laws.RoundTrip.readByteFire k m hwf
  | writeByteFire k => exact Laws.RoundTrip.writeByteFire k m hwf
  | emitFlux t c => exact Laws.RoundTrip.emitFlux t c m hwf
  | emitCode t c => exact Laws.RoundTrip.emitCode t c m hwf

/-! ### The slots of an admitted map -/

/-- Rule R67's four conditions on the map. -/
theorem PortMap.ok_iff : m.ok = true ↔
    (∀ o ∈ m.reads, o.dir? ≠ some .write) ∧ (∀ o ∈ m.writes, o.dir? ≠ some .read) ∧
    (m.reads.filter (· ≠ .invalid)).Nodup ∧ (m.writes.filter (· ≠ .invalid)).Nodup := by
  simp [PortMap.ok, and_assoc]

/-- A slot that is not `INVALID` is listed. -/
theorem PortMap.getElem?_of_slot {dir : Dir} {offset : Nat} (h : m.slot dir offset ≠ .invalid) :
    (m.slots dir)[offset]? = some (m.slot dir offset) := by
  unfold PortMap.slot at h ⊢
  cases hslot : (m.slots dir)[offset]? with
  | none => exact absurd (by simp [hslot]) h
  | some op => rfl

/-- An admitted map is injective on the operations that are not `INVALID` (rule R67). -/
theorem PortMap.slot_injective (hok : m.ok = true) {dir : Dir} {a b : Nat} (hab : m.slot dir a = m.slot dir b)
    (hb : m.slot dir b ≠ .invalid) : a = b := by
  obtain ⟨-, -, hreads, hwrites⟩ := PortMap.ok_iff.mp hok
  have hnodup : ((m.slots dir).filter (· ≠ .invalid)).Nodup := by
    cases dir with
    | read => exact hreads
    | write => exact hwrites
  have hpair := List.pairwise_iff_getElem.mp (List.pairwise_filter.mp hnodup)
  obtain ⟨hltA, hgetA⟩ := List.getElem?_eq_some_iff.mp (m.getElem?_of_slot (hab ▸ hb))
  obtain ⟨hltB, hgetB⟩ := List.getElem?_eq_some_iff.mp (m.getElem?_of_slot hb)
  rcases Nat.lt_trichotomy a b with hlt | heq | hlt
  · exact absurd (by rw [hgetA, hgetB, hab]) (hpair a b hltA hltB hlt (by simpa [hgetA, hab]) (by simpa [hgetB]))
  · exact heq
  · exact absurd (by rw [hgetA, hgetB, hab]) (hpair b a hltB hltA hlt (by simpa [hgetB]) (by simpa [hgetA, hab]))

/-- The encoder finds an operation in the one slot that holds it. -/
theorem PortMap.idxOf?_slot (hok : m.ok = true) {dir : Dir} {offset : Nat} (h : m.slot dir offset ≠ .invalid) :
    (m.slots dir).idxOf? (m.slot dir offset) = some offset := by
  obtain ⟨k, hk, hslot⟩ := Laws.slot_of_idxOf m _ dir (List.mem_of_getElem? (m.getElem?_of_slot h))
  rw [hk, PortMap.slot_injective hok hslot h]

/-! ### From the word to the operation and back -/

/-- The word is the word of the operation, which is well-formed. -/
def IsWordOf (m : PortMap) (w : Nat) (i : Instr) : Prop := i.wellFormed m = true ∧ encode m i = some w

/-- What an access performs: the operation of its slot, whose word is that of an access of the same kind, or the access to an
`INVALID` slot itself. -/
theorem portInstr_eq_ok {op : PortOp} {dir : Dir} {offset : Nat} {data : Byte} {peek : Bool}
    (haccess : Laws.AccessOk data peek dir) (h : portInstr op dir offset data peek = .ok i) :
    (op = .invalid ∧ i = .invalid dir offset data peek) ∨
    (op.dir? = some dir ∧ i.wellFormed m = m.reaches op ∧ encode m i = encodePort m op dir data peek) := by
  cases dir with
  | read =>
    obtain rfl : data = 0 := haccess
    cases op with
    | rdStatus0 | rdStatus1 | rdData | rdReset =>
      obtain rfl := Except.ok.inj h
      exact .inr ⟨rfl, rfl, rfl⟩
    | invalid => exact .inl ⟨rfl, (Except.ok.inj h).symm⟩
    | wrControl0 | wrControl1 | wrData | wrReset | wrStart => nomatch h
  | write =>
    obtain rfl : peek = false := haccess
    cases op with
    | wrControl0 | wrControl1 | wrData | wrReset | wrStart =>
      obtain rfl := Except.ok.inj h
      exact .inr ⟨rfl, rfl, rfl⟩
    | invalid => exact .inl ⟨rfl, (Except.ok.inj h).symm⟩
    | rdStatus0 | rdStatus1 | rdData | rdReset => nomatch h

/-- The word of an access is the word of the operation that the access performs. -/
theorem isWordOf_accessWord (hok : m.ok = true) {dir : Dir} {offset : Nat} {data : Byte} {peek : Bool}
    (haccess : Laws.AccessOk data peek dir) (h : portInstr (m.slot dir offset) dir offset data peek = .ok i) :
    IsWordOf m (accessWord dir offset data peek) i := by
  rcases portInstr_eq_ok (m := m) haccess h with ⟨hslot, rfl⟩ | ⟨hdir, hwf, hencode⟩
  · refine ⟨?_, rfl⟩
    cases dir with
    | read => simpa [Instr.wellFormed, invalidAccessOk, hslot, Laws.AccessOk] using haccess
    | write => simpa [Instr.wellFormed, invalidAccessOk, hslot, Laws.AccessOk] using haccess
  · have hne : m.slot dir offset ≠ .invalid := fun hinvalid => by simp [hinvalid, PortOp.dir?] at hdir
    have hmem := List.mem_of_getElem? (m.getElem?_of_slot hne)
    exact ⟨by simpa only [hwf, PortMap.reaches, hdir, decide_eq_true_eq] using hmem,
      by rw [hencode, encodePort, PortMap.idxOf?_slot hok hne, Option.map_some]⟩

/-- A word of head 00 or 01 that decodes is the word of a read. -/
theorem isWordOf_of_decodeRead (hok : m.ok = true) {peek : Bool} {operand : Nat}
    (h : decodeRead m peek operand = .ok i) : IsWordOf m (wordOf peek.toNat operand) i := by
  unfold decodeRead at h
  split at h
  · next hdata =>
    have hword := isWordOf_accessWord hok (dir := .read) rfl h
    have hoperand : 256 * (operand / 256) = operand := by omega
    simpa [accessWord, accessHead, hoperand] using hword
  · nomatch h

/-- A word of head 02 that decodes is the word of a write. -/
theorem isWordOf_of_decodeWrite (hok : m.ok = true) {operand : Nat} (h : decodeWrite m operand = .ok i) :
    IsWordOf m (wordOf 0x02 operand) i := by
  have hword := isWordOf_accessWord hok (dir := .write) rfl h
  simpa [accessWord, accessHead, Nat.mod_add_div] using hword

/-- An operand below its bound decodes to the operation given, and no other operand decodes. -/
theorem isWordOf_of_decodeBelow {bound head operand : Nat} {j : Instr} (h : decodeBelow bound head operand j = .ok i)
    (hword : operand < bound → IsWordOf m (wordOf head operand) j) : IsWordOf m (wordOf head operand) i := by
  unfold decodeBelow at h
  split at h
  · next hlt =>
    obtain rfl := Except.ok.inj h
    exact hword hlt
  · nomatch h

/-- The operand of an operation that takes none is 0. -/
theorem isWordOf_of_decodeBelow_one {head operand : Nat} {j : Instr} (h : decodeBelow 1 head operand j = .ok i)
    (hword : IsWordOf m (wordOf head 0) j) : IsWordOf m (wordOf head operand) i :=
  isWordOf_of_decodeBelow h fun hlt => Nat.lt_one_iff.mp hlt ▸ hword

/-- A drive kind read from an operand 0 or 1 has that number. -/
theorem kindOfNat_toNat {n : Nat} (h : n < 2) : (kindOfNat n).toNat = n := by
  interval_cases n <;> rfl

/-- An operand is its low 16 bits with the rest above them. -/
theorem code_time_pack (operand : Nat) :
    (BitVec.ofNat 16 operand).toNat + 0x10000 * (operand / 0x10000) = operand := by
  simp only [BitVec.toNat_ofNat]
  omega

/-- An operand of 16 bits is its two bytes. -/
theorem byte_pair_pack {operand : Nat} (h : operand < 0x10000) :
    (BitVec.ofNat 8 operand).toNat + 256 * (BitVec.ofNat 8 (operand / 256)).toNat = operand := by
  simp only [BitVec.toNat_ofNat]
  omega

/-- A head and an operand that decode make the word of a well-formed operation: one case for each head, in the order of the
table of word heads. -/
theorem isWordOf_of_decodeOperation (hok : m.ok = true) {head operand : Nat}
    (h : decodeOperation m head operand = .ok i) : IsWordOf m (wordOf head operand) i := by
  unfold decodeOperation at h
  obtain ⟨rfl, h⟩ | ⟨-, h⟩ := ite_eq_iff.mp h
  · exact isWordOf_of_decodeRead hok h
  obtain ⟨rfl, h⟩ | ⟨-, h⟩ := ite_eq_iff.mp h
  · exact isWordOf_of_decodeRead hok h
  obtain ⟨rfl, h⟩ | ⟨-, h⟩ := ite_eq_iff.mp h
  · exact isWordOf_of_decodeWrite hok h
  obtain ⟨rfl, h⟩ | ⟨-, h⟩ := ite_eq_iff.mp h
  · exact isWordOf_of_decodeBelow h fun hlt => ⟨rfl, congrArg (some <| wordOf 0x10 ·) (Nat.mod_eq_of_lt hlt)⟩
  obtain ⟨rfl, h⟩ | ⟨-, h⟩ := ite_eq_iff.mp h
  · exact isWordOf_of_decodeBelow_one h ⟨rfl, rfl⟩
  obtain ⟨rfl, h⟩ | ⟨-, h⟩ := ite_eq_iff.mp h
  · exact isWordOf_of_decodeBelow_one h ⟨rfl, rfl⟩
  obtain ⟨rfl, h⟩ | ⟨-, h⟩ := ite_eq_iff.mp h
  · exact isWordOf_of_decodeBelow_one h ⟨rfl, rfl⟩
  obtain ⟨rfl, h⟩ | ⟨-, h⟩ := ite_eq_iff.mp h
  · exact isWordOf_of_decodeBelow_one h ⟨rfl, rfl⟩
  obtain ⟨rfl, h⟩ | ⟨-, h⟩ := ite_eq_iff.mp h
  · exact isWordOf_of_decodeBelow_one h ⟨rfl, rfl⟩
  obtain ⟨rfl, h⟩ | ⟨-, h⟩ := ite_eq_iff.mp h
  · exact isWordOf_of_decodeBelow h fun hlt => ⟨rfl, by simp only [encode, byte_pair_pack hlt]⟩
  obtain ⟨rfl, h⟩ | ⟨-, h⟩ := ite_eq_iff.mp h
  · exact isWordOf_of_decodeBelow h fun hlt => ⟨rfl, congrArg (some <| wordOf 0x21 ·) (Nat.mod_eq_of_lt hlt)⟩
  obtain ⟨rfl, h⟩ | ⟨-, h⟩ := ite_eq_iff.mp h
  · exact Except.ok.inj h ▸ ⟨rfl, rfl⟩
  obtain ⟨rfl, h⟩ | ⟨-, h⟩ := ite_eq_iff.mp h
  · exact Except.ok.inj h ▸ ⟨rfl, rfl⟩
  obtain ⟨rfl, h⟩ | ⟨-, h⟩ := ite_eq_iff.mp h
  · exact Except.ok.inj h ▸ ⟨rfl, rfl⟩
  obtain ⟨rfl, h⟩ | ⟨-, h⟩ := ite_eq_iff.mp h
  · exact isWordOf_of_decodeBelow_one h ⟨rfl, rfl⟩
  obtain ⟨rfl, h⟩ | ⟨-, h⟩ := ite_eq_iff.mp h
  · exact Except.ok.inj h ▸ ⟨rfl, rfl⟩
  obtain ⟨rfl, h⟩ | ⟨-, h⟩ := ite_eq_iff.mp h
  · exact isWordOf_of_decodeBelow h fun hlt => ⟨rfl, by simp only [encode, kindOfNat_toNat hlt]⟩
  obtain ⟨rfl, h⟩ | ⟨-, h⟩ := ite_eq_iff.mp h
  · exact isWordOf_of_decodeBelow h fun hlt => ⟨rfl, by simp only [encode, kindOfNat_toNat hlt]⟩
  obtain ⟨rfl, h⟩ | ⟨-, h⟩ := ite_eq_iff.mp h
  · exact Except.ok.inj h ▸ ⟨rfl, by simp only [encode, code_time_pack]⟩
  obtain ⟨rfl, h⟩ | ⟨-, h⟩ := ite_eq_iff.mp h
  · exact Except.ok.inj h ▸ ⟨rfl, by simp only [encode, code_time_pack]⟩
  nomatch h

/-- Settles O11: the word's head and operand make it, and what they decode to is a well-formed operation with that word. -/
theorem decodedWordIsTheOperationsWord : Obligations.DecodedWordIsTheOperationsWord := by
  intro m w i hok h
  have hword : wordOf (w % 256) (w / 256) = w := Nat.mod_add_div w 256
  have hdecoded : IsWordOf m w i := hword ▸ isWordOf_of_decodeOperation hok h
  exact hdecoded

/-! ### The operations that a map leaves out -/

/-- The operations left out are those of the nine that no slot holds. -/
theorem PortMap.mem_unreachable {op : PortOp} :
    op ∈ m.unreachable ↔ op ∈ PortOp.named ∧ op ∉ m.reads ∧ op ∉ m.writes := by
  simp [PortMap.unreachable]

/-- A map that leaves no operation out has a write slot for each of the five writes (rule R67). -/
theorem PortMap.five_le_length_writes (hok : m.ok = true) (hall : m.unreachable = []) : 5 ≤ m.writes.length := by
  obtain ⟨hreads, -⟩ := PortMap.ok_iff.mp hok
  have hwrites : [.wrControl0, .wrControl1, .wrData, .wrReset, .wrStart] ⊆ m.writes := by
    intro op hop
    have hop : op ∈ PortOp.named ∧ op.dir? = some .write := by
      revert op
      decide
    by_contra hnot
    exact List.ne_nil_of_mem (PortMap.mem_unreachable.mpr ⟨hop.1, fun hread => hreads op hread hop.2, hnot⟩) hall
  exact (List.subperm_of_subset (by decide) hwrites).length_le

/-- A map does not reach an operation that it leaves out. -/
theorem PortMap.reaches_eq_false_of_unreachable {op : PortOp} (h : op ∈ m.unreachable) : m.reaches op = false := by
  obtain ⟨-, hreads, hwrites⟩ := PortMap.mem_unreachable.mp h
  unfold PortMap.reaches
  split
  · next dir _ =>
    cases dir with
    | read => exact decide_eq_false hreads
    | write => exact decide_eq_false hwrites
  · rfl

/-- No word names an operation left out (rule R67, rule R68). -/
theorem decode_ne_of_unreachable {op : PortOp} (hok : m.ok = true) (hout : op ∈ m.unreachable)
    (hi : i.wellFormed m = m.reaches op) (w : Nat) : decode m w ≠ .ok i := by
  intro h
  have hwf := (decodedWordIsTheOperationsWord m w i hok h).1
  rw [hi, PortMap.reaches_eq_false_of_unreachable hout] at hwf
  exact Bool.false_ne_true hwf

/-- Settles O12: five writes do not fit four slots, and only well-formed operations have words. -/
theorem fourOffsetMapLeavesAnOperationOut : Obligations.FourOffsetMapLeavesAnOperationOut := by
  intro m hok _ hlength
  refine ⟨fun hall => ?_, ?_, ?_, ?_, ?_, ?_, ?_, ?_, ?_, ?_⟩
  · have hfive := PortMap.five_le_length_writes hok hall
    omega
  all_goals exact fun _ hout => decode_ne_of_unreachable hok hout rfl

/-! ### Sample words -/

/-- Settles O13: the decoder is evaluated on each word. -/
theorem sampleWordsDecode : Obligations.SampleWordsDecode := by
  unfold Obligations.SampleWordsDecode
  decide

end Sys2Proof
end

section
/-! The sequences `LOAD_BUF` and `READ_BUF` (rule R84): what the host's accesses of the data port do while not busy, one by one and
in a run. -/

namespace Sys2Proof.Machine

variable {s : State}

/-! ### Port accesses while not busy -/

/-- While not busy a gated write has its effect (rule R131). -/
theorem State.gatedWrite_of_not_busy (hidle : s.busy = false) (effect : State → State) : s.gatedWrite effect = effect s :=
  if_neg (Bool.eq_false_iff.mp hidle)

/-- While not busy a gated read has its effect (rule R131). -/
theorem State.gatedRead_of_not_busy (hidle : s.busy = false) (effect : State → State) : s.gatedRead effect = effect s :=
  if_neg (Bool.eq_false_iff.mp hidle)

/-- `WR_RESET` while not busy zeroes the cursor (rule R144). -/
theorem exec_wrReset_of_not_busy (hidle : s.busy = false) (data : Byte) :
    exec (.wrReset data) s = .next { s with cursor := 0 } :=
  congrArg _ (State.gatedWrite_of_not_busy hidle _)

/-- `WR_DATA` while not busy stores the byte at the cursor and advances the cursor (rule R143). -/
theorem exec_wrData_of_not_busy (hidle : s.busy = false) (data : Byte) :
    exec (.wrData data) s = .next (s.memWrite s.cursor data).advanceCursor :=
  congrArg _ (State.gatedWrite_of_not_busy hidle _)

/-- `RD_DATA` while not busy returns the byte at the cursor and advances the cursor (rule R145). -/
theorem exec_rdData_of_not_busy (hidle : s.busy = false) :
    exec (.rdData false) s = .next (s.returns (.byte (s.memRead s.cursor))).advanceCursor :=
  congrArg _ (State.gatedRead_of_not_busy hidle _)

/-! ### A run of data writes -/

/-- The cells with a list of bytes stored from an index on. -/
def putBytes : List Host.Cell → Nat → List Byte → List Host.Cell
  | cells, _, [] => cells
  | cells, c, b :: rest => putBytes (putCell cells c b) (c + 1) rest

/-- Bytes stored from an index on leave the indices below it alone. -/
theorem byteAt_putBytes_of_lt (bytes : List Byte) (cells : List Host.Cell) {a c : Nat} (h : a < c) :
    byteAt (putBytes cells c bytes) a = byteAt cells a := by
  induction bytes generalizing cells c with
  | nil => rfl
  | cons b rest ih => rw [putBytes, ih _ (Nat.lt_succ_of_lt h), byteAt_putCell, if_neg h.ne]

/-- Stored bytes stand in the buffer in their order. -/
theorem map_byteAt_putBytes (bytes : List Byte) (cells : List Host.Cell) (c : Nat) :
    (List.range' c bytes.length).map (byteAt (putBytes cells c bytes)) = bytes := by
  induction bytes generalizing cells c with
  | nil => rfl
  | cons b rest ih =>
    have hfirst : byteAt (putBytes (putCell cells c b) (c + 1) rest) c = b := by
      rw [byteAt_putBytes_of_lt _ _ (Nat.lt_succ_self c), byteAt_putCell, if_pos rfl]
    simp only [List.length_cons, List.range'_succ, List.map_cons, putBytes, hfirst, ih]

/-- A run of data writes that fits the rest of the buffer stores its bytes in order. The cursor is `c` modulo the length of the
buffer: `c` itself, or 0 once the buffer is full. -/
theorem performAll_wrData (bytes : List Byte) (rest : List Instr) (s : State) (hidle : s.busy = false) {c : Nat}
    (hcursor : s.cursor = c % s.cfg.bufLen) (hfits : c + bytes.length ≤ s.cfg.bufLen) :
    performAll s (bytes.map Instr.wrData ++ rest) =
      performAll { s with buffer := putBytes s.buffer c bytes, cursor := (c + bytes.length) % s.cfg.bufLen } rest := by
  induction bytes generalizing s c with
  | nil => simp only [List.map_nil, List.nil_append, putBytes, List.length_nil, Nat.add_zero, ← hcursor]
  | cons b bytes ih =>
    rw [List.length_cons] at hfits
    have hc : s.cursor = c := by rw [hcursor, Nat.mod_eq_of_lt (by omega)]
    have hstore : (s.memWrite s.cursor b).advanceCursor =
        { s with buffer := putCell s.buffer c b, cursor := (c + 1) % s.cfg.bufLen } := by
      simp only [State.memWrite, State.advanceCursor, hc, Nat.mod_eq_of_lt (show c < s.cfg.bufLen by omega)]
    simp only [List.map_cons, List.cons_append, performAll, exec_wrData_of_not_busy hidle, hstore]
    rw [ih { s with buffer := putCell s.buffer c b, cursor := (c + 1) % s.cfg.bufLen } hidle rfl (by simp only; omega)]
    simp only [putBytes, List.length_cons, Nat.add_assoc, Nat.add_comm 1]

/-- A reset of the cursor at the head of a run (rule R144). -/
theorem performAll_wrReset (hidle : s.busy = false) (data : Byte) (rest : List Instr) :
    performAll s (.wrReset data :: rest) = performAll { s with cursor := 0 } rest := by
  simp only [performAll, exec_wrReset_of_not_busy hidle]

/-- `LOAD_BUF` between two resets of the cursor stores its bytes from index 0 on, and changes nothing else but the cursor. -/
theorem performAll_loadBuf {bytes : List Byte} (hidle : s.busy = false) (hfits : bytes.length ≤ s.cfg.bufLen) :
    performAll s (.wrReset 0 :: (bytes.map Instr.wrData ++ [.wrReset 0])) =
      some { s with buffer := putBytes s.buffer 0 bytes, cursor := 0 } := by
  have hwrites := performAll_wrData bytes [.wrReset 0] { s with cursor := 0 } hidle (c := 0) (Nat.zero_mod _).symm
    (by simpa using hfits)
  rw [performAll_wrReset hidle, hwrites, performAll_wrReset]
  · rfl
  · exact hidle

/-! ### A run of data reads -/

/-- A run of data reads that fits the rest of the buffer returns its bytes in order. -/
theorem readBytes_eq (n : Nat) (s : State) (hidle : s.busy = false) {c : Nat} (hcursor : s.cursor = c % s.cfg.bufLen)
    (hfits : c + n ≤ s.cfg.bufLen) : ∃ u, readBytes n s = some ((List.range' c n).map (byteAt s.buffer), u) := by
  induction n generalizing s c with
  | zero => exact ⟨s, rfl⟩
  | succ n ih =>
    have hc : s.cursor = c := by rw [hcursor, Nat.mod_eq_of_lt (by omega)]
    have hbyte : s.memRead s.cursor = byteAt s.buffer c := by
      rw [State.memRead, hc, Nat.mod_eq_of_lt (by omega)]
    obtain ⟨u, hu⟩ := ih (s.returns (.byte (byteAt s.buffer c))).advanceCursor (c := c + 1) hidle
      (by simp [hc]) (by simp; omega)
    refine ⟨u, ?_⟩
    simp only [readBytes, exec_rdData_of_not_busy hidle, hbyte, hu, State.advanceCursor_result, State.returns_result,
      State.advanceCursor_buffer, State.returns_buffer, List.range'_succ, List.map_cons]

/-- Settles O30: what `LOAD_BUF` has stored from index 0 on is what `READ_BUF` returns from there. -/
theorem loadedBytesReadBackInOrder : Obligations.LoadedBytesReadBackInOrder := by
  intro bytes s hidle hfits
  obtain ⟨u, hread⟩ := readBytes_eq bytes.length { s with buffer := putBytes s.buffer 0 bytes, cursor := 0 } hidle (c := 0)
    (Nat.zero_mod _).symm (by simpa using hfits)
  rw [map_byteAt_putBytes] at hread
  exact ⟨_, u, performAll_loadBuf hidle hfits, hread⟩

end Sys2Proof.Machine
end

section
/-! The MFM codec, bit by bit: the data bits at the even positions, the clock bits at the odd ones (rule R76, rule R85,
rule R86). -/

namespace Sys2Proof.Machine

variable {d d' p p' : Byte} {c : Code} {i : Nat}

/-! ### The data byte under its context bit -/

theorem getLsbD_shiftedData_of_lt (hi : i < 7) : (shiftedData d p).getLsbD i = d.getLsbD (i + 1) := by
  simp [shiftedData, BitVec.getLsbD_cons, hi, hi.ne, Nat.add_comm]

theorem getLsbD_shiftedData_top : (shiftedData d p).getLsbD 7 = p.getLsbD 7 := by
  rw [shiftedData, BitVec.getLsbD_cons, if_pos rfl]

/-- Of the context only the top bit is read. -/
theorem shiftedData_congr (hctx : p.getLsbD 7 = p'.getLsbD 7) : shiftedData d p = shiftedData d p' := by
  rw [shiftedData, hctx, shiftedData]

/-! ### The bits of a code -/

/-- The data bits of a code (rule R76). -/
theorem getLsbD_mfmEncode_even (hi : i < 8) : (mfmEncode d p).getLsbD (2 * i) = d.getLsbD i := by
  have hpos : 2 * i < 16 := by omega
  simp [mfmEncode, interleave, hpos]

/-- The clock bits of a code (rule R85). -/
theorem getLsbD_mfmEncode_odd (hi : i < 8) :
    (mfmEncode d p).getLsbD (2 * i + 1) = !(d.getLsbD i || (shiftedData d p).getLsbD i) := by
  have hpos : 2 * i + 1 < 16 := by omega
  have hhalf : (2 * i + 1) / 2 = i := by omega
  simp [mfmEncode, interleave, clockBits, hpos, hhalf, hi]

/-- A clock bit below the top one stands between two data bits of the byte. -/
theorem getLsbD_mfmEncode_odd_of_lt (hi : i < 7) :
    (mfmEncode d p).getLsbD (2 * i + 1) = !(d.getLsbD i || d.getLsbD (i + 1)) := by
  rw [getLsbD_mfmEncode_odd (hi.trans (by decide)), getLsbD_shiftedData_of_lt hi]

/-- The top clock bit stands between the top data bit and the context bit. -/
theorem getLsbD_mfmEncode_top : (mfmEncode d p).getLsbD 15 = !(d.getLsbD 7 || p.getLsbD 7) := by
  rw [getLsbD_mfmEncode_odd (i := 7) (by decide), getLsbD_shiftedData_top]

/-- A code depends on the context through its top bit alone. -/
theorem mfmEncode_congr (hctx : p.getLsbD 7 = p'.getLsbD 7) : mfmEncode d p = mfmEncode d p' := by
  rw [mfmEncode, clockBits, shiftedData_congr hctx, mfmEncode, clockBits]

/-! ### The bits of a decoded value -/

theorem getLsbD_mfmDecode (hi : i < 8) : (mfmDecode c).getLsbD i = c.getLsbD (2 * i) := by
  simp [mfmDecode, hi]

/-- Decoding undoes encoding (rule R87): each data bit is read where it was placed. -/
theorem mfmDecode_mfmEncode (d p : Byte) : mfmDecode (mfmEncode d p) = d :=
  BitVec.eq_of_getLsbD_eq fun _ hi => (getLsbD_mfmDecode hi).trans (getLsbD_mfmEncode_even hi)

/-! ### The obligations of the codec -/

/-- Settles O17: a clock bit is 1 only where the data bits on both its sides are 0. -/
theorem codesHaveNoAdjacentOnes : Obligations.CodesHaveNoAdjacentOnes := by
  intro d p
  refine ⟨fun i hi => ?_, mfmEncode_congr (by simp)⟩
  obtain ⟨k, rfl | rfl⟩ := i.even_or_odd'
  · rw [getLsbD_mfmEncode_even (by omega), getLsbD_mfmEncode_odd (by omega)]
    simp +contextual
  · rw [getLsbD_mfmEncode_odd_of_lt (by omega), show 2 * k + 1 + 1 = 2 * (k + 1) from rfl,
      getLsbD_mfmEncode_even (by omega)]
    simp +contextual

/-- Settles O18: by the round trip of rule R87 a code determines its data byte, and by rule R85 the data byte and the context bit
determine the code. -/
theorem reencodingRecoversExactlyTheCodes : Obligations.ReencodingRecoversExactlyTheCodes := by
  refine ⟨fun c p => ⟨fun h => ⟨mfmDecode c, h.symm⟩, ?code⟩, fun d d' p p' hdata hctx => ?equal⟩
  case code =>
    rintro ⟨d, rfl⟩
    rw [mfmDecode_mfmEncode]
  case equal =>
    rw [mfmDecode_mfmEncode, mfmDecode_mfmEncode] at hdata
    rw [hdata, mfmEncode_congr hctx]

/-- Settles O14: the code that the operation returns, by its data bits and its clock bits. -/
theorem encodeReturnsDataAndClockBits : Obligations.EncodeReturnsDataAndClockBits := fun d p _ =>
  ⟨mfmEncode d p, rfl, fun _ hi => getLsbD_mfmEncode_even hi, fun _ hi => getLsbD_mfmEncode_odd_of_lt hi,
    getLsbD_mfmEncode_top⟩

/-- Settles O15: the byte that the operation returns, by its bits. -/
theorem decodeReturnsDataBits : Obligations.DecodeReturnsDataBits := fun c _ =>
  ⟨mfmDecode c, rfl, fun _ hi => getLsbD_mfmDecode hi⟩

/-- Settles O16: the round trip of rule R87. -/
theorem decodeUndoesEncode : Obligations.DecodeUndoesEncode := mfmDecode_mfmEncode

end Sys2Proof.Machine
end

section
/-! Bit recovery: what the adapter answers, and which drive a code bit comes from (rule R98 to rule R103). -/

namespace Sys2Proof.Machine

variable {s : State} {deadline : Nat}

/-! ### Rule equations of the read primitive -/

/-- An admitted answer that is the next input is the answer given (rule R98). -/
theorem State.pllNextBit_of_lawful {b : Bool} {t : Nat} {rest : List (Option (Bool × Nat))} (hafter : s.readPos < t)
    (hby : t ≤ deadline) (hnext : s.pllAnswers = some (b, t) :: rest) :
    s.pllNextBit deadline = (some b, { s with
      readPos := t, pllAnswers := rest,
      calls := .pllNextBit s.cmd.selectedDrive s.readPos deadline (some (b, t)) :: s.calls }) := by
  have hdraw : s.drawPll = (some (b, t), { s with pllAnswers := rest }) := by simp only [State.drawPll, hnext]
  have hlaw : lawfulAnswer s.readPos deadline (some (b, t)) = some (b, t) := if_pos ⟨hafter, hby⟩
  simp only [State.pllNextBit, hdraw, hlaw, State.call]

/-- Everything a request to the adapter can do (rule R98): it uses up an answer and makes a call, and only an admitted answer
moves the read position. -/
theorem State.pllNextBit_cases (s : State) (deadline : Nat) :
    (∃ p n c, s.pllNextBit deadline = (none, { s with pllAnswers := p, drawn := n, calls := c :: s.calls })) ∨
    (∃ b t p n c, s.pllNextBit deadline =
        (some b, { s with readPos := t, pllAnswers := p, drawn := n, calls := c :: s.calls }) ∧
      s.readPos < t ∧ t ≤ deadline) := by
  obtain ⟨p, n, hdraw⟩ := s.drawPll_frame
  cases ha : lawfulAnswer s.readPos deadline s.drawPll.1 with
  | none => exact .inl ⟨p, n, _, by simp only [State.pllNextBit, ha, hdraw, State.call]; rfl⟩
  | some bt =>
    exact .inr ⟨bt.1, bt.2, p, n, _, by simp only [State.pllNextBit, ha, hdraw, State.call]; rfl, lawfulAnswer_some ha⟩

/-- A bit of the hard disk is taken at the read position, which moves on by one half-cell (rule R101). -/
theorem State.hdNextBit_eq (s : State) : s.hdNextBit = (s.drawHdBit.1, { s.drawHdBit.2 with
    readPos := s.readPos + s.cfg.hdHalfCell, calls := .hdReadBit s.readPos s.drawHdBit.1 :: s.calls }) := by
  obtain ⟨l, n, hdraw⟩ := s.drawHdBit_frame
  simp only [State.hdNextBit, hdraw, State.call]

/-- A hard-disk cell that would end after the deadline gives no bit, and nothing happens (rule R102). -/
theorem State.nextCodeBit_hd_of_lt (hlate : deadline < s.readPos + s.cfg.hdHalfCell) :
    s.nextCodeBit .hd deadline = (none, s) :=
  if_pos hlate

/-- A hard-disk cell that ends by the deadline gives its bit (rule R102). -/
theorem State.nextCodeBit_hd_of_le (hintime : s.readPos + s.cfg.hdHalfCell ≤ deadline) :
    s.nextCodeBit .hd deadline = (some s.hdNextBit.1, s.hdNextBit.2) :=
  if_neg hintime.not_gt

/-! ### The operations that return a bit -/

theorem exec_pllNextBit (deadline : Nat) (s : State) : exec (.pllNextBit deadline) s =
    .next ((s.pllNextBit deadline).2.returns (.bit (s.pllNextBit deadline).1)) := rfl

theorem exec_hdNextBit (s : State) : exec .hdNextBit s = .next (s.hdNextBit.2.returns (.bit (some s.hdNextBit.1))) := rfl

/-- The operation asks the drive of the selected kind (rule R102). -/
theorem exec_nextCodeBit {k : Kind} (hkind : s.kind = k) : exec (.nextCodeBit deadline) s =
    .next ((s.nextCodeBit k deadline).2.returns (.bit (s.nextCodeBit k deadline).1)) := by
  subst hkind
  rfl

/-! ### The obligations of bit recovery -/

/-- Settles O39: the frame of the search loop, with the deadline that the kind's half-cell gives. -/
theorem syncSearchStaysInItsWindow : Obligations.SyncSearchStaysInItsWindow := by
  intro s t k found hsearch
  obtain ⟨r, p, h, n, cs, hframe, hback, hwindow, hcalls⟩ := syncLoop_frame k (s.syncDeadline k) (syncPattern s.cfg k)
    (s.syncDeadline k - s.readPos + 1) 0 0 s
  obtain rfl : _ = t := hframe.symm.trans (congrArg Prod.snd hsearch)
  cases k with
  | fd => exact ⟨cs, rfl, hback, hwindow, hcalls⟩
  | hd => exact ⟨cs, rfl, hback, hwindow, hcalls⟩

/-- Settles O52: by the cases of a request, and by the equation of an admitted answer. -/
theorem adapterAnswersWithinTheLaw : Obligations.AdapterAnswersWithinTheLaw := by
  intro deadline s
  refine ⟨⟨_, _, exec_pllNextBit deadline s, rfl, ?law⟩, fun b t rest hafter hby hnext => ?possible⟩
  case law =>
    rcases s.pllNextBit_cases deadline with ⟨p, n, c, hnone⟩ | ⟨b, t, p, n, c, hsome, hafter, hby⟩
    · rw [hnone]
      exact ⟨rfl, fun _ => rfl, fun h => absurd rfl h⟩
    · rw [hsome]
      exact ⟨rfl, fun h => absurd h (Option.some_ne_none b), fun _ => ⟨hafter, hby⟩⟩
  case possible =>
    rw [exec_pllNextBit, State.pllNextBit_of_lawful hafter hby hnext]
    rfl

/-- Settles O53: each operation makes its one call, and only the second sets the read position. -/
theorem adapterIsSetUpForARead : Obligations.AdapterIsSetUpForARead :=
  fun _ => ⟨fun _ => rfl, fun _ => rfl⟩

/-- Settles O54: for each kind of drive, and on each side of the deadline, the rule's equation. -/
theorem codeBitsComeFromTheSelectedDrive : Obligations.CodeBitsComeFromTheSelectedDrive := by
  intro s
  refine ⟨?bit, fun deadline => ⟨fun hfd => ⟨_, exec_nextCodeBit hfd, exec_pllNextBit deadline s⟩,
    fun hhd hlate => ?late, fun hhd hintime => ⟨_, ?intime, exec_hdNextBit s⟩⟩⟩
  case bit =>
    rw [exec_hdNextBit, s.hdNextBit_eq]
    rfl
  case late =>
    rw [exec_nextCodeBit hhd, State.nextCodeBit_hd_of_lt hlate]
    rfl
  case intime => rw [exec_nextCodeBit hhd, State.nextCodeBit_hd_of_le hintime]

end Sys2Proof.Machine
end

section
/-! Acting on an increment (rule R115 to rule R124), and the three events of the sector clocks (rule R106 to rule R113). -/

namespace Sys2Proof.Machine

variable {s : State} {n : Fin 4} {t0 : Nat}

/-! ### Which action an increment takes (rule R115) -/

theorem State.afterIncrement_of_not_busy (hidle : s.busy = false) : s.afterIncrement = s := by
  simp [State.afterIncrement, hidle]

theorem State.afterIncrement_of_transfer (hbusy : s.busy = true) (hbyte : s.byte ≠ none) :
    s.afterIncrement = s.complete :=
  if_pos ⟨hbusy, Option.isSome_iff_ne_none.mpr hbyte⟩

theorem State.afterIncrement_of_match (hbusy : s.busy = true) (hbyte : s.byte = none)
    (hmatch : s.counter = s.cmd.targetSector.toNat) : s.afterIncrement = s.sectorMatch := by
  simp [State.afterIncrement, State.transferActive, hbusy, hbyte, hmatch]

theorem State.afterIncrement_of_no_match (hbusy : s.busy = true) (hbyte : s.byte = none)
    (hmiss : s.counter ≠ s.cmd.targetSector.toNat) :
    s.afterIncrement = if s.cfg.idleRelease = .oneRevolution then s.idleTick else s := by
  simp [State.afterIncrement, State.transferActive, hbusy, hbyte, hmiss]

/-- Settles O35: the four cases of an increment, the transfer first. -/
theorem incrementCompletesBeforeItMatches : Obligations.IncrementCompletesBeforeItMatches := fun _ =>
  ⟨State.afterIncrement_of_transfer, State.afterIncrement_of_match,
    fun hbusy hbyte hmiss =>
      ⟨fun hrelease => (State.afterIncrement_of_no_match hbusy hbyte hmiss).trans (if_pos hrelease),
        fun hnever => (State.afterIncrement_of_no_match hbusy hbyte hmiss).trans (if_neg (by simp [hnever]))⟩,
    State.afterIncrement_of_not_busy⟩

/-! ### The forced completion and the idle tick -/

/-- The ECC field is cleared for a hard-disk read with ECC requested (rule R121). -/
theorem State.clearsEcc_iff (s : State) :
    s.clearsEcc = true ↔ s.cmd.readMode = true ∧ s.kind = .hd ∧ s.cmd.eccRequested = true := by
  simp [State.clearsEcc, and_assoc]

/-- Settles O36: the frame of the completion, and what it leaves at each index of the buffer. -/
theorem forcedCompletionReleasesBusy : Obligations.ForcedCompletionReleasesBusy := by
  intro s
  refine ⟨s.complete.buffer, rfl, fun a => ?_⟩
  simp only [State.complete_byteAt, State.clearsEcc_iff, eccFieldAt, List.mem_map]

/-- Settles O41: an idle count is there or not, and the release compares it with the sectors of the kind. -/
theorem idleTickReleasesAfterOneRevolution : Obligations.IdleTickReleasesAfterOneRevolution := by
  intro s
  refine ⟨fun hnone => by simp only [State.idleTick, hnone], fun n hcount => ?_⟩
  have hbusy : (s.busy && decide (n + 1 < sectorsOf s.cfg s.kind)) =
      if sectorsOf s.cfg s.kind ≤ n + 1 then false else s.busy := by
    split
    · next h => simp [h.not_gt]
    · next h => simp [Nat.lt_of_not_le h]
  simp only [State.idleTick, hcount, hbusy]
  rfl

/-! ### Which events are accepted (rule R106) -/

theorem State.acceptsPulse_iff : s.acceptsPulse n = true ↔
    s.kind = .fd ∧ n = s.cmd.selectedDrive ∧ s.cfg.attached n = true := by
  simp [State.acceptsPulse, and_assoc]

theorem exec_fdPulse_of_accepted (h : s.acceptsPulse n = true) :
    exec (.fdPulse n) s = .next s.countPulse.afterIncrement :=
  congrArg _ (if_pos h)

theorem exec_fdPulse_of_not_accepted (h : ¬ s.acceptsPulse n = true) : exec (.fdPulse n) s = .next s :=
  congrArg _ (if_neg h)

theorem exec_hdIndex_of_hd (hkind : s.kind = .hd) : exec .hdIndex s =
    .next (State.afterIncrement { s.measurePeriod with hdLastPulse := some s.now, hdCounter := 0 }) := by
  simp only [exec, execHdIndex, hkind]

theorem exec_hdIndex_of_fd (hkind : s.kind = .fd) : exec .hdIndex s = .next s := by
  simp only [exec, execHdIndex, hkind]

theorem exec_sectorFire_of_hd (hkind : s.kind = .hd) : exec .sectorFire s = .next s.countSector.afterIncrement := by
  simp only [exec, execSectorFire, hkind]

theorem exec_sectorFire_of_fd (hkind : s.kind = .fd) : exec .sectorFire s = .next s := by
  simp only [exec, execSectorFire, hkind]

/-- Settles O34: each of the three events, when it is not accepted. -/
theorem unselectedDriveEventsHaveNoEffect : Obligations.UnselectedDriveEventsHaveNoEffect := fun _ =>
  ⟨fun _ hout => exec_fdPulse_of_not_accepted (mt State.acceptsPulse_iff.mp hout),
    fun hkind => ⟨exec_hdIndex_of_fd hkind, exec_sectorFire_of_fd hkind⟩⟩

/-! ### What an accepted event counts -/

/-- A pulse is within the debounce window of the previous one, if there is one (rule R107). -/
theorem State.inDebounce_iff :
    s.inDebounce = true ↔ ∃ t0, s.fdLastPulse = some t0 ∧ s.now - t0 < s.cfg.fdDebounce := by
  cases h : s.fdLastPulse <;> simp [State.inDebounce, h]

/-- A pulse within the window forces the floppy counter to its maximum (rule R107). -/
theorem State.countPulse_of_inDebounce (h : s.inDebounce = true) :
    s.countPulse = { s with fdCounter := s.cfg.fdSectors - 1, fdLastPulse := some s.now } := by
  simp only [State.countPulse, h, if_true]

/-- A pulse outside the window increments the floppy counter (rule R107). -/
theorem State.countPulse_of_not_inDebounce (h : ¬ s.inDebounce = true) :
    s.countPulse = { s with fdCounter := (s.fdCounter + 1) % s.cfg.fdSectors, fdLastPulse := some s.now } := by
  simp only [State.countPulse, if_neg h]

/-- Settles O31: the counted pulse, within the window and outside it. -/
theorem floppyPulseCountsOrDebounces : Obligations.FloppyPulseCountsOrDebounces := by
  intro n s hkind hsel hatt
  refine ⟨s.countPulse, exec_fdPulse_of_accepted (State.acceptsPulse_iff.mpr ⟨hkind, hsel, hatt⟩), rfl,
    fun hclose => ?close, fun hfar => ?far⟩
  case close => rw [State.countPulse_of_inDebounce (State.inDebounce_iff.mpr hclose)]
  case far =>
    have hout : ¬ s.inDebounce = true := fun h => by
      obtain ⟨t0, ht0, hlt⟩ := State.inDebounce_iff.mp h
      exact (hfar t0 ht0).not_gt hlt
    rw [State.countPulse_of_not_inDebounce hout]

/-- The first index pulse only disarms the timer (rule R110). -/
theorem State.measurePeriod_of_none (h : s.hdLastPulse = none) : s.measurePeriod = { s with sector := none } := by
  simp only [State.measurePeriod, h, State.cancelSector]

/-- Every later index pulse measures the period and arms the timer at it, if it is not 0 (rule R110). -/
theorem State.measurePeriod_of_some (h : s.hdLastPulse = some t0) : s.measurePeriod = { s with
    hdPeriod := some ((s.now - t0) / s.cfg.hdSectors),
    sector := if 0 < (s.now - t0) / s.cfg.hdSectors then
        some { next := s.now + (s.now - t0) / s.cfg.hdSectors, period := (s.now - t0) / s.cfg.hdSectors }
      else none } := by
  simp only [State.measurePeriod, h, State.cancelSector, State.scheduleSector]
  split <;> rfl

/-- Settles O32: the first index pulse and every later one. -/
theorem hardDiskIndexMeasuresThePeriod : Obligations.HardDiskIndexMeasuresThePeriod := by
  intro s hkind
  refine ⟨_, exec_hdIndex_of_hd hkind, ?frame, fun hnone => ?first, fun t0 hlast => ?later⟩
  case frame =>
    obtain ⟨_, _, hframe⟩ := s.measurePeriod_frame
    rw [hframe]
  case first =>
    rw [State.measurePeriod_of_none hnone]
    exact ⟨rfl, rfl⟩
  case later =>
    rw [State.measurePeriod_of_some hlast]
    exact ⟨rfl, rfl⟩

/-- Settles O33: the counted firing. -/
theorem sectorFireCountsAndDisarms : Obligations.SectorFireCountsAndDisarms := by
  intro s hkind
  rw [exec_sectorFire_of_hd hkind, State.countSector_eq]

end Sys2Proof.Machine
end

section
/-! The sync search: a sector match in read mode starts it, and it stops at the first pattern in its window or at the first
request that gives no bit (rule R116 to rule R120). -/

namespace Sys2Proof.Machine

variable {s u v : State} {k : Kind} {d : Nat} {b : Bool} {bits : List Bool} {pat : Code}

/-! ### The start of a transfer (rule R116, rule R117, rule R118) -/

/-- A sector match in write mode arms `BYTE` for the present (rule R117). -/
theorem State.sectorMatch_of_write (hwrite : s.cmd.readMode = false) : s.sectorMatch =
    { s with idleCount := none, pendingBits := 0, pendingCount := 0, byte := some s.now } :=
  if_neg (Bool.eq_false_iff.mp hwrite)

/-- The state in which a sector match in read mode starts the sync search: the transfer reset and the drive set up. -/
def State.searchStart (s : State) : State :=
  State.beginRead { s with idleCount := none, pendingBits := 0, pendingCount := 0 }

/-- For a floppy the adapter is set up, and reading begins at the present (rule R118). -/
theorem State.searchStart_of_fd (hkind : s.kind = .fd) : s.searchStart = { s with
    idleCount := none, pendingBits := 0, pendingCount := 0, readPos := s.now,
    calls := [.pllResetForRead s.cmd.selectedDrive s.now, .pllSetClock s.cmd.selectedDrive s.cfg.fdHalfCell] ++
      s.calls } := by
  have hkind' : State.kind { s with idleCount := none, pendingBits := 0, pendingCount := 0 } = .fd := hkind
  simp only [State.searchStart, State.beginRead, hkind']
  rfl

/-- For the hard disk reading begins at the present (rule R118). -/
theorem State.searchStart_of_hd (hkind : s.kind = .hd) : s.searchStart = { s with
    idleCount := none, pendingBits := 0, pendingCount := 0, readPos := s.now } := by
  have hkind' : State.kind { s with idleCount := none, pendingBits := 0, pendingCount := 0 } = .hd := hkind
  simp only [State.searchStart, State.beginRead, hkind']

/-- A read start whose search succeeds arms `BYTE` for the time at which the pattern is complete (rule R118). -/
theorem State.readStart_of_found (hsearch : s.beginRead.syncSearch s.kind = (true, u)) :
    s.readStart = { u with byte := some u.readPos } := by
  simp only [State.readStart, hsearch, State.scheduleByte]

/-- A read start whose search fails does no more than the search (rule R120). -/
theorem State.readStart_of_failed (hsearch : s.beginRead.syncSearch s.kind = (false, u)) : s.readStart = u := by
  simp only [State.readStart, hsearch, State.syncFail]

/-- A sector match in read mode whose search succeeds starts the transfer (rule R116, rule R118). -/
theorem State.sectorMatch_of_found (hread : s.cmd.readMode = true) (hkind : s.kind = k)
    (hsearch : s.searchStart.syncSearch k = (true, u)) : s.sectorMatch = { u with byte := some u.readPos } := by
  subst hkind
  exact (if_pos hread).trans (State.readStart_of_found hsearch)

/-- A sector match in read mode whose search fails starts no transfer (rule R116, rule R120). -/
theorem State.sectorMatch_of_failed (hread : s.cmd.readMode = true) (hkind : s.kind = k)
    (hsearch : s.searchStart.syncSearch k = (false, u)) : s.sectorMatch = u := by
  subst hkind
  exact (if_pos hread).trans (State.readStart_of_failed hsearch)

/-- Settles O37: the two modes, and in read mode the set-up of each drive kind and the two outcomes of the search. -/
theorem sectorMatchStartsTheTransfer : Obligations.SectorMatchStartsTheTransfer := by
  intro s
  refine ⟨State.sectorMatch_of_write, fun hread m u found hm hsearch => ?_⟩
  have hstart : m = s.searchStart := by
    rw [hm]
    cases hkind : s.kind with
    | fd => exact (State.searchStart_of_fd hkind).symm
    | hd => exact (State.searchStart_of_hd hkind).symm
  rw [hstart] at hsearch
  cases found with
  | true => exact State.sectorMatch_of_found hread rfl hsearch
  | false => exact State.sectorMatch_of_failed hread rfl hsearch

/-- Settles O40: the search of a sector match fails, and the frame of the search leaves busy and `BYTE` as they were. -/
theorem failedSyncLeavesTheOperationBusy : Obligations.FailedSyncLeavesTheOperationBusy := by
  intro s u hbusy hbyte hread hmatch hsearch
  have hafter : s.afterIncrement = u :=
    (State.afterIncrement_of_match hbusy hbyte hmatch).trans (State.sectorMatch_of_failed hread rfl hsearch)
  obtain ⟨cs, hstart⟩ := State.beginRead_frame { s with idleCount := none, pendingBits := 0, pendingCount := 0 }
  obtain ⟨ds, hframe, -⟩ := syncSearchStaysInItsWindow _ u s.kind false hsearch
  rw [hstart] at hframe
  rw [hafter, hframe]
  refine ⟨rfl, hbusy, hbyte, ?_, rfl⟩
  simp [State.hung, State.transferActive, hbusy, hbyte]

/-! ### A run of code bits -/

/-- From `s` on, requests for a code bit up to the deadline `d` are answered with the bits listed, the oldest first, and lead to
the state given. -/
inductive GivesBits (k : Kind) (d : Nat) (s : State) : List Bool → State → Prop
  | nil : GivesBits k d s [] s
  | snoc {bits : List Bool} {u v : State} {b : Bool} (h : GivesBits k d s bits u)
      (hnext : u.nextCodeBit k d = (some b, v)) : GivesBits k d s (bits ++ [b]) v

/-- Each bit takes time and none ends after the deadline, so the window bounds their number (rule R98, rule R101). -/
theorem GivesBits.length_le (h : GivesBits k d s bits u) (hk : k = .fd ∨ 0 < s.cfg.hdHalfCell) :
    u.cfg = s.cfg ∧ s.readPos + bits.length ≤ u.readPos ∧ u.readPos ≤ max s.readPos d := by
  induction h with
  | nil => simp
  | @snoc bits u v b h hnext ih =>
    obtain ⟨hcfg, hlow, -⟩ := ih
    rcases u.nextCodeBit_cases k d with ⟨p, hb, n, cs, heq, -⟩ | ⟨b', r, p, hb, n, cs, heq, -, hby, hafter, -⟩
    · simp [heq] at hnext
    · obtain ⟨-, rfl⟩ := Prod.mk.inj (heq.symm.trans hnext)
      have hlt : u.readPos < r := hafter (hcfg ▸ hk)
      refine ⟨hcfg, ?_, hby.trans (le_max_right _ _)⟩
      simp only [List.length_append, List.length_singleton]
      omega

/-- Where no pattern ends before the last bit, none ends in the bits before it. -/
theorem no_pattern_of_append
    (h : ∀ j, 16 ≤ j → j < (bits ++ [b]).length → codeOfBits ((bits ++ [b]).take j) ≠ pat) :
    ∀ j, 16 ≤ j → j ≤ bits.length → codeOfBits (bits.take j) ≠ pat := by
  intro j hj hle
  have hj' := h j hj (by simpa [Nat.lt_succ_iff] using hle)
  rwa [List.take_append_of_le_length hle] at hj'

/-- The search runs through bits that end in no pattern, and its register then holds the latest 16 of them (rule R119). -/
theorem syncLoop_of_givesBits (h : GivesBits k d s bits u)
    (hno : ∀ j, 16 ≤ j → j ≤ bits.length → codeOfBits (bits.take j) ≠ pat) (f : Nat) :
    syncLoop k d pat (bits.length + f) 0 0 s = syncLoop k d pat f (codeOfBits bits) bits.length u := by
  induction h generalizing f with
  | nil => simp [codeOfBits]
  | @snoc bits u v b h hnext ih =>
    have hprev := no_pattern_of_append fun j hj hlt => hno j hj hlt.le
    have hlast : ¬ (bits.length + 1 ≥ 16 ∧ shiftInBit (codeOfBits bits) b = pat) := by
      rintro ⟨hlen, heq⟩
      exact hno (bits.length + 1) hlen (by simp) (by rw [List.take_of_length_le (by simp), codeOfBits_append, heq])
    have hfuel : (bits ++ [b]).length + f = bits.length + (f + 1) := by simp; omega
    rw [hfuel, ih hprev (f + 1), syncLoop, hnext]
    simp only [if_neg hlast, codeOfBits_append, List.length_append, List.length_singleton]

/-- The fuel of a search is more than the bits that its window can give. -/
theorem GivesBits.exists_fuel (h : GivesBits k d s bits u) (hk : k = .fd ∨ 0 < s.cfg.hdHalfCell) :
    ∃ f, d - s.readPos + 1 = bits.length + (f + 1) := by
  obtain ⟨-, hlow, hhigh⟩ := h.length_le hk
  exact ⟨d - s.readPos - bits.length, by omega⟩

/-- The search succeeds at the first place, at least 16 bits in, at which the latest 16 bits are the pattern (rule R119). -/
theorem State.syncSearch_of_found (hk : k = .fd ∨ 0 < s.cfg.hdHalfCell) (h : GivesBits k (s.syncDeadline k) s bits u)
    (hlen : 16 ≤ bits.length) (hfound : codeOfBits bits = syncPattern s.cfg k)
    (hfirst : ∀ j, 16 ≤ j → j < bits.length → codeOfBits (bits.take j) ≠ syncPattern s.cfg k) :
    s.syncSearch k = (true, u) := by
  obtain ⟨f, hfuel⟩ := h.exists_fuel hk
  cases h with
  | nil => simp at hlen
  | @snoc bits u' _ b h hnext =>
    have hmatch : bits.length + 1 ≥ 16 ∧ shiftInBit (codeOfBits bits) b = syncPattern s.cfg k :=
      ⟨by simpa using hlen, by rw [← codeOfBits_append, hfound]⟩
    have hfuel' : s.syncDeadline k - s.readPos + 1 = bits.length + (f + 1 + 1) := by
      rw [hfuel, List.length_append, List.length_singleton]
      omega
    rw [State.syncSearch, hfuel', syncLoop_of_givesBits h (no_pattern_of_append hfirst), syncLoop, hnext]
    simp only [if_pos hmatch]

/-- The search fails at the first request that gives no bit, when there was no pattern before (rule R119, rule R120). -/
theorem State.syncSearch_of_none (hk : k = .fd ∨ 0 < s.cfg.hdHalfCell) (h : GivesBits k (s.syncDeadline k) s bits u)
    (hnone : u.nextCodeBit k (s.syncDeadline k) = (none, v))
    (hno : ∀ j, 16 ≤ j → j ≤ bits.length → codeOfBits (bits.take j) ≠ syncPattern s.cfg k) :
    s.syncSearch k = (false, v) := by
  obtain ⟨f, hfuel⟩ := h.exists_fuel hk
  rw [State.syncSearch, hfuel, syncLoop_of_givesBits h hno, syncLoop, hnone]

/-! ### The bits of the hard disk -/

/-- A bit of the hard disk is the next one that State holds (rule R101). -/
theorem State.hdNextBit_of_cons {rest : List Bool} (hnext : s.hdBits = b :: rest) : s.hdNextBit = (b, { s with
    readPos := s.readPos + s.cfg.hdHalfCell, hdBits := rest, calls := .hdReadBit s.readPos b :: s.calls }) := by
  have hdraw : s.drawHdBit = (b, { s with hdBits := rest }) := by simp only [State.drawHdBit, hnext]
  rw [State.hdNextBit_eq, hdraw]

/-- Up to the deadline each half-cell gives one bit (rule R101, rule R102). -/
theorem givesBits_hd (s : State) {n : Nat} (hlen : n ≤ s.hdBits.length) (hwin : s.readPos + n * s.cfg.hdHalfCell ≤ d) :
    ∃ cs, cs.length = n ∧ GivesBits .hd d s (s.hdBits.take n) { s with
      readPos := s.readPos + n * s.cfg.hdHalfCell, hdBits := s.hdBits.drop n, calls := cs ++ s.calls } := by
  induction n with
  | zero => exact ⟨[], rfl, by simpa using GivesBits.nil⟩
  | succ n ih =>
    have hcell : s.readPos + (n + 1) * s.cfg.hdHalfCell = s.readPos + n * s.cfg.hdHalfCell + s.cfg.hdHalfCell := by ring
    obtain ⟨cs, hcs, hbits⟩ := ih (by omega) (by omega)
    rw [List.drop_eq_getElem_cons hlen] at hbits
    refine ⟨.hdReadBit (s.readPos + n * s.cfg.hdHalfCell) s.hdBits[n] :: cs, by rw [List.length_cons, hcs], ?_⟩
    rw [List.take_succ_eq_append_getElem hlen, hcell]
    refine hbits.snoc ?_
    rw [State.nextCodeBit_hd_of_le (hcell ▸ hwin), State.hdNextBit_of_cons rfl]
    rfl

/-! ### The bits of a floppy -/

/-- A request that the adapter answers with none leaves the read position (rule R98, rule R102). -/
theorem State.nextCodeBit_fd_of_none {rest : List (Option (Bool × Nat))} (hnext : s.pllAnswers = none :: rest) :
    s.nextCodeBit .fd d = (none, { s with
      pllAnswers := rest, calls := .pllNextBit s.cmd.selectedDrive s.readPos d none :: s.calls }) := by
  have hdraw : s.drawPll = (none, { s with pllAnswers := rest }) := by simp only [State.drawPll, hnext]
  simp only [State.nextCodeBit, State.pllNextBit, hdraw, lawfulAnswer, State.call]

/-- A bound on a first time and on a list of times bounds the last of them. -/
theorem getLast?_getD_lt {l : List Nat} {r t : Nat} (hr : r < t) (hl : ∀ x ∈ l, x < t) : l.getLast?.getD r < t := by
  cases h : l.getLast? with
  | none => exact hr
  | some x => exact hl x (List.mem_of_getLast? h)

/-- Answers in the order of their times, all in the window, each give one bit, at the answer's time (rule R98, rule R102). -/
theorem givesBits_fd (s : State) (answers : List (Bool × Nat)) (rest : List (Option (Bool × Nat)))
    (hnext : s.pllAnswers = answers.map some ++ rest) (horder : answers.Pairwise fun a b => a.2 < b.2)
    (hwin : ∀ a ∈ answers, s.readPos < a.2 ∧ a.2 ≤ d) :
    ∃ cs, codeBitsOf cs = answers.map Prod.fst ∧ GivesBits .fd d s (answers.map Prod.fst) { s with
      readPos := (answers.map Prod.snd).getLast?.getD s.readPos, pllAnswers := rest, calls := cs ++ s.calls } := by
  induction answers using List.reverseRecOn generalizing rest with
  | nil =>
    obtain rfl : s.pllAnswers = rest := hnext
    exact ⟨[], rfl, GivesBits.nil⟩
  | append_singleton answers a ih =>
    simp only [List.pairwise_append, List.mem_singleton, forall_eq, List.forall_mem_append] at horder hwin
    obtain ⟨horder, -, hlast⟩ := horder
    obtain ⟨hwin, hafter, hby⟩ := hwin
    obtain ⟨cs, hcs, hbits⟩ := ih (some a :: rest) (by simp [hnext]) horder hwin
    have hlt : (answers.map Prod.snd).getLast?.getD s.readPos < a.2 :=
      getLast?_getD_lt hafter (List.forall_mem_map.mpr hlast)
    refine ⟨.pllNextBit s.cmd.selectedDrive ((answers.map Prod.snd).getLast?.getD s.readPos) d (some a) :: cs,
      by simp [codeBitsOf_cons, hcs], ?_⟩
    rw [List.map_append]
    refine hbits.snoc ?_
    rw [State.nextCodeBit, State.pllNextBit_of_lawful hlt hby rfl]
    simp

end Sys2Proof.Machine
end

section
/-! The sector match in read mode, for each drive kind and each outcome of its search (rule R116 to rule R120). -/

namespace Sys2Proof.Machine

variable {s : State} {n : Nat}

/-! ### The window of a search -/

/-- The window of the hard disk, counted in half-cells (rule R119). -/
theorem State.syncDeadline_hd (s : State) :
    s.syncDeadline .hd = s.now + s.cfg.syncWindowBytes * s.cfg.codeBits * s.cfg.hdHalfCell := by
  simp only [State.syncDeadline, byteTime, halfCell, Nat.mul_assoc]

/-- Where a list of bits has not the pattern, its first bits have it no more. -/
theorem codeOfBits_take_take {bits : List Bool} {pat : Code} {j : Nat} (hj : j ≤ n)
    (h : codeOfBits (bits.take j) ≠ pat) : codeOfBits ((bits.take n).take j) ≠ pat := by
  rwa [List.take_take, Nat.min_eq_left hj]

/-! ### The hard disk -/

/-- The hard disk's bits from the start of its search on, each half-cell one, as far as the window reaches. -/
theorem givesBits_searchStart_hd (hkind : s.kind = .hd) (hlen : n ≤ s.hdBits.length)
    (hn : n ≤ s.cfg.syncWindowBytes * s.cfg.codeBits) :
    ∃ cs, cs.length = n ∧ GivesBits .hd (s.searchStart.syncDeadline .hd) s.searchStart (s.hdBits.take n) { s with
      idleCount := none, pendingBits := 0, pendingCount := 0, readPos := s.now + n * s.cfg.hdHalfCell,
      hdBits := s.hdBits.drop n, calls := cs ++ s.calls } := by
  rw [State.searchStart_of_hd hkind, State.syncDeadline_hd]
  exact givesBits_hd _ hlen (Nat.add_le_add_left (Nat.mul_le_mul_right _ hn) _)

/-- The hard disk's pattern is found at the end of its last half-cell. -/
theorem sectorMatch_hd_of_found (hkind : s.kind = .hd) (hread : s.cmd.readMode = true) (hcell : 0 < s.cfg.hdHalfCell)
    (hlen : n ≤ s.hdBits.length) (h16 : 16 ≤ n) (hn : n ≤ s.cfg.syncWindowBytes * s.cfg.codeBits)
    (hfound : codeOfBits (s.hdBits.take n) = s.cfg.hdSync)
    (hfirst : ∀ k, 16 ≤ k → k < n → codeOfBits (s.hdBits.take k) ≠ s.cfg.hdSync) :
    ∃ cs, cs.length = n ∧ s.sectorMatch = { s with
      idleCount := none, pendingBits := 0, pendingCount := 0, byte := some (s.now + n * s.cfg.hdHalfCell),
      readPos := s.now + n * s.cfg.hdHalfCell, hdBits := s.hdBits.drop n, calls := cs ++ s.calls } := by
  obtain ⟨cs, hcs, hbits⟩ := givesBits_searchStart_hd hkind hlen hn
  have hcfg : s.searchStart.cfg = s.cfg := by rw [State.searchStart_of_hd hkind]
  have hsearch := State.syncSearch_of_found (.inr (by rwa [hcfg])) hbits
    (by rwa [List.length_take_of_le hlen]) (by rwa [hcfg]) (by
      rw [List.length_take_of_le hlen, hcfg]
      exact fun j hj hlt => codeOfBits_take_take hlt.le (hfirst j hj hlt))
  exact ⟨cs, hcs, State.sectorMatch_of_found hread hkind hsearch⟩

/-- Without a pattern the hard disk is read to the end of the window. -/
theorem sectorMatch_hd_of_none (hkind : s.kind = .hd) (hread : s.cmd.readMode = true) (hcell : 0 < s.cfg.hdHalfCell)
    (hlen : s.cfg.syncWindowBytes * s.cfg.codeBits ≤ s.hdBits.length)
    (hno : ∀ k, 16 ≤ k → k ≤ s.cfg.syncWindowBytes * s.cfg.codeBits → codeOfBits (s.hdBits.take k) ≠ s.cfg.hdSync) :
    ∃ cs, cs.length = s.cfg.syncWindowBytes * s.cfg.codeBits ∧ s.sectorMatch = { s with
      idleCount := none, pendingBits := 0, pendingCount := 0,
      readPos := s.now + s.cfg.syncWindowBytes * s.cfg.codeBits * s.cfg.hdHalfCell,
      hdBits := s.hdBits.drop (s.cfg.syncWindowBytes * s.cfg.codeBits), calls := cs ++ s.calls } := by
  obtain ⟨cs, hcs, hbits⟩ := givesBits_searchStart_hd hkind hlen le_rfl
  have hcfg : s.searchStart.cfg = s.cfg := by rw [State.searchStart_of_hd hkind]
  have hdeadline : s.searchStart.syncDeadline .hd =
      s.now + s.cfg.syncWindowBytes * s.cfg.codeBits * s.cfg.hdHalfCell := by
    rw [State.syncDeadline_hd, State.searchStart_of_hd hkind]
  have hsearch := State.syncSearch_of_none (.inr (by rwa [hcfg])) hbits
    (State.nextCodeBit_hd_of_lt (by rw [hdeadline]; exact Nat.lt_add_of_pos_right hcell)) (by
      rw [List.length_take_of_le hlen, hcfg]
      exact fun j hj hle => codeOfBits_take_take hle (hno j hj hle))
  exact ⟨cs, hcs, State.sectorMatch_of_failed hread hkind hsearch⟩

/-! ### A floppy -/

/-- The floppy's bits from the start of its search on, one for each admitted answer. -/
theorem givesBits_searchStart_fd (hkind : s.kind = .fd) {answers : List (Bool × Nat)}
    {rest : List (Option (Bool × Nat))} (hnext : s.pllAnswers = answers.map some ++ rest)
    (horder : answers.Pairwise fun a b => a.2 < b.2)
    (hwin : ∀ a ∈ answers, s.now < a.2 ∧ a.2 ≤ s.now + s.cfg.syncWindowBytes * (s.cfg.codeBits * s.cfg.fdHalfCell)) :
    ∃ cs, codeBitsOf cs = answers.map Prod.fst ∧
      GivesBits .fd (s.searchStart.syncDeadline .fd) s.searchStart (answers.map Prod.fst) { s with
        idleCount := none, pendingBits := 0, pendingCount := 0,
        readPos := (answers.map Prod.snd).getLast?.getD s.now, pllAnswers := rest, calls := cs ++ s.calls } := by
  have hbits := givesBits_fd (d := s.searchStart.syncDeadline .fd) s.searchStart answers rest
  rw [State.searchStart_of_fd hkind] at hbits ⊢
  obtain ⟨cs, hcs, hbits⟩ := hbits hnext horder hwin
  refine ⟨cs ++ [.pllResetForRead s.cmd.selectedDrive s.now, .pllSetClock s.cmd.selectedDrive s.cfg.fdHalfCell], ?_, ?_⟩
  · rw [codeBitsOf_append, hcs]
    rfl
  · rw [List.append_assoc]
    exact hbits

/-- The floppy's pattern is found at the time of the answer that completes it. -/
theorem sectorMatch_fd_of_found (hkind : s.kind = .fd) (hread : s.cmd.readMode = true) {answers : List (Bool × Nat)}
    {rest : List (Option (Bool × Nat))} {b : Bool} {t : Nat}
    (hnext : s.pllAnswers = (answers ++ [(b, t)]).map some ++ rest)
    (horder : (answers ++ [(b, t)]).Pairwise fun a b => a.2 < b.2)
    (hwin : ∀ a ∈ answers ++ [(b, t)],
      s.now < a.2 ∧ a.2 ≤ s.now + s.cfg.syncWindowBytes * (s.cfg.codeBits * s.cfg.fdHalfCell))
    (h16 : 16 ≤ answers.length + 1) (hfound : codeOfBits (answers.map Prod.fst ++ [b]) = s.cfg.fdSync)
    (hfirst : ∀ k, 16 ≤ k → k ≤ answers.length → codeOfBits ((answers.map Prod.fst).take k) ≠ s.cfg.fdSync) :
    ∃ cs, codeBitsOf cs = answers.map Prod.fst ++ [b] ∧ s.sectorMatch = { s with
      idleCount := none, pendingBits := 0, pendingCount := 0, byte := some t, readPos := t, pllAnswers := rest,
      calls := cs ++ s.calls } := by
  obtain ⟨cs, hcs, hbits⟩ := givesBits_searchStart_fd hkind hnext horder hwin
  have hcfg : s.searchStart.cfg = s.cfg := by rw [State.searchStart_of_fd hkind]
  simp only [List.map_append, List.map_singleton, List.getLast?_append, List.getLast?_singleton, Option.some_or,
    Option.getD_some] at hcs hbits
  have hsearch := State.syncSearch_of_found (.inl rfl) hbits (by simpa using h16) (by rwa [hcfg]) (by
    rw [hcfg]
    intro j hj hlt
    have hle : j ≤ answers.length := by simpa [Nat.lt_succ_iff] using hlt
    rw [List.take_append_of_le_length (by simpa using hle)]
    exact hfirst j hj hle)
  exact ⟨cs, hcs, State.sectorMatch_of_found hread hkind hsearch⟩

/-- Without a pattern a floppy is read to the first request that is answered with none. -/
theorem sectorMatch_fd_of_none (hkind : s.kind = .fd) (hread : s.cmd.readMode = true) {answers : List (Bool × Nat)}
    {rest : List (Option (Bool × Nat))} (hnext : s.pllAnswers = answers.map some ++ none :: rest)
    (horder : answers.Pairwise fun a b => a.2 < b.2)
    (hwin : ∀ a ∈ answers, s.now < a.2 ∧ a.2 ≤ s.now + s.cfg.syncWindowBytes * (s.cfg.codeBits * s.cfg.fdHalfCell))
    (hno : ∀ k, 16 ≤ k → k ≤ answers.length → codeOfBits ((answers.map Prod.fst).take k) ≠ s.cfg.fdSync) :
    ∃ cs, codeBitsOf cs = answers.map Prod.fst ∧ s.sectorMatch = { s with
      idleCount := none, pendingBits := 0, pendingCount := 0,
      readPos := (answers.map Prod.snd).getLast?.getD s.now, pllAnswers := rest, calls := cs ++ s.calls } := by
  obtain ⟨cs, hcs, hbits⟩ := givesBits_searchStart_fd hkind hnext horder hwin
  have hcfg : s.searchStart.cfg = s.cfg := by rw [State.searchStart_of_fd hkind]
  have hsearch := State.syncSearch_of_none (.inl rfl) hbits (State.nextCodeBit_fd_of_none rfl) (by
    rw [hcfg, List.length_map]
    exact hno)
  refine ⟨.pllNextBit s.cmd.selectedDrive ((answers.map Prod.snd).getLast?.getD s.now)
    (s.searchStart.syncDeadline .fd) none :: cs, ?_, State.sectorMatch_of_failed hread hkind hsearch⟩
  simp [codeBitsOf_cons, hcs]

/-- Settles O38: for each drive kind, the search that finds its pattern and the one that finds none. -/
theorem syncSearchFindsTheFirstPattern : Obligations.SyncSearchFindsTheFirstPattern := by
  refine ⟨fun s hkind hread hcell hlen => ⟨fun n h16 hn hfound hfirst => ?_, ?_⟩,
    fun s bits rest hkind hread horder hwin => ⟨fun b t hnext hlast hafter hby h16 hfound hfirst => ?_, ?_⟩⟩
  · exact sectorMatch_hd_of_found hkind hread hcell (hn.trans hlen) h16 hn hfound hfirst
  · exact sectorMatch_hd_of_none hkind hread hcell hlen
  · have horder' : (bits ++ [(b, t)]).Pairwise fun a b => a.2 < b.2 := by
      simpa [List.pairwise_append, horder] using fun c u hmem => hlast (c, u) hmem
    have hwin' : ∀ a ∈ bits ++ [(b, t)],
        s.now < a.2 ∧ a.2 ≤ s.now + s.cfg.syncWindowBytes * (s.cfg.codeBits * s.cfg.fdHalfCell) := by
      simp only [List.forall_mem_append, List.mem_singleton, forall_eq]
      exact ⟨hwin, hafter, hby⟩
    exact sectorMatch_fd_of_found hkind hread hnext horder' hwin' h16 hfound hfirst
  · exact fun hnext hno => sectorMatch_fd_of_none hkind hread hnext horder hwin hno

end Sys2Proof.Machine
end

section
/-! Runs of the sector clocks: close pulses retrigger the floppy's debounce window (rule R108), and one index pulse of the hard
disk gives evenly spaced synthetic firings (rule R112, rule R113). -/

namespace Sys2Proof.Machine

variable {s : State} {n : Fin 4}

/-! ### Runs of floppy pulses (rule R107, rule R108) -/

/-- While no operation is busy an accepted pulse only counts (rule R107, rule R115). -/
theorem exec_fdPulse_of_not_busy (hidle : s.busy = false) (hacc : s.acceptsPulse n = true) :
    exec (.fdPulse n) s = .next s.countPulse :=
  (exec_fdPulse_of_accepted hacc).trans (congrArg _ (State.afterIncrement_of_not_busy (s := s.countPulse) hidle))

/-- A pulse `gap` after the previous one is in the window exactly when the gap is shorter (rule R107). -/
theorem State.inDebounce_after_gap (hlast : s.fdLastPulse = some s.now) (gap : Nat) :
    State.inDebounce { s with now := s.now + gap } = true ↔ gap < s.cfg.fdDebounce := by
  simp [State.inDebounce_iff, hlast]

/-- A pulse at the head of a run, while no operation is busy. -/
theorem pulseRun_cons (hidle : s.busy = false) (hacc : s.acceptsPulse n = true) (gap : Nat) (gaps : List Nat) :
    pulseRun n (gap :: gaps) s = pulseRun n gaps (State.countPulse { s with now := s.now + gap }) := by
  rw [pulseRun, exec_fdPulse_of_not_busy (s := { s with now := s.now + gap }) hidle hacc]

/-- A close pulse at the head of a run takes the counter to its maximum. -/
theorem pulseRun_cons_of_close (hidle : s.busy = false) (hacc : s.acceptsPulse n = true)
    (hlast : s.fdLastPulse = some s.now) {gap : Nat} (hgap : gap < s.cfg.fdDebounce) (gaps : List Nat) :
    pulseRun n (gap :: gaps) s = pulseRun n gaps { s with
      now := s.now + gap, fdCounter := s.cfg.fdSectors - 1, fdLastPulse := some (s.now + gap) } := by
  rw [pulseRun_cons hidle hacc, State.countPulse_of_inDebounce ((State.inDebounce_after_gap hlast gap).mpr hgap)]

/-- A far pulse at the head of a run increments the counter. -/
theorem pulseRun_cons_of_far (hidle : s.busy = false) (hacc : s.acceptsPulse n = true)
    (hlast : s.fdLastPulse = some s.now) {gap : Nat} (hgap : s.cfg.fdDebounce ≤ gap) (gaps : List Nat) :
    pulseRun n (gap :: gaps) s = pulseRun n gaps { s with
      now := s.now + gap, fdCounter := (s.fdCounter + 1) % s.cfg.fdSectors, fdLastPulse := some (s.now + gap) } := by
  rw [pulseRun_cons hidle hacc,
    State.countPulse_of_not_inDebounce (mt (State.inDebounce_after_gap hlast gap).mp hgap.not_gt)]

/-- A run of close pulses takes the counter to its maximum, wherever it stood, and goes on from there with the rest. -/
theorem pulseRun_append_of_close {gaps : List Nat} (hne : gaps ≠ []) (hidle : s.busy = false)
    (hacc : s.acceptsPulse n = true) (hlast : s.fdLastPulse = some s.now) (hgaps : ∀ g ∈ gaps, g < s.cfg.fdDebounce)
    (rest : List Nat) : pulseRun n (gaps ++ rest) s = pulseRun n rest { s with
      now := s.now + gaps.sum, fdCounter := s.cfg.fdSectors - 1, fdLastPulse := some (s.now + gaps.sum) } := by
  induction gaps generalizing s with
  | nil => exact absurd rfl hne
  | cons gap gaps ih =>
    rw [List.forall_mem_cons] at hgaps
    rw [List.cons_append, pulseRun_cons_of_close hidle hacc hlast hgaps.1]
    cases gaps with
    | nil => simp only [List.nil_append, List.sum_singleton]
    | cons g gaps =>
      rw [ih (s := { s with now := s.now + gap, fdCounter := s.cfg.fdSectors - 1, fdLastPulse := some (s.now + gap) })
        (List.cons_ne_nil g gaps) hidle hacc rfl hgaps.2]
      simp only [List.sum_cons, Nat.add_assoc]

/-- Settles O42: the run of close pulses, and the far pulse, which increments the maximum to 0. -/
theorem closePulsesHoldTheCounterAtItsMaximum : Obligations.ClosePulsesHoldTheCounterAtItsMaximum := by
  intro n gaps last s hidle hkind hsel hatt hsectors hlast hne hgaps hfar
  have hacc : s.acceptsPulse n = true := State.acceptsPulse_iff.mpr ⟨hkind, hsel, hatt⟩
  have hrun := pulseRun_append_of_close hne hidle hacc hlast hgaps
  have hwrap : (s.cfg.fdSectors - 1 + 1) % s.cfg.fdSectors = 0 := by rw [Nat.sub_add_cancel hsectors, Nat.mod_self]
  refine ⟨by simpa only [List.append_nil, pulseRun] using hrun [], ?_⟩
  rw [hrun [last], pulseRun_cons_of_far (s := { s with
    now := s.now + gaps.sum, fdCounter := s.cfg.fdSectors - 1, fdLastPulse := some (s.now + gaps.sum) })
    hidle hacc rfl hfar]
  simp only [pulseRun, hwrap]

/-! ### Waiting (rule R198) -/

/-- With no timer armed and an empty agenda a step waits. -/
theorem step_of_nothing_pending (hcfg : configOk s.cfg = true) (hmotor : s.motor = none) (hsector : s.sector = none)
    (hbyte : s.byte = none) (hagenda : s.agenda = []) : step s = .next s := by
  simp [step, hcfg, State.fetch, State.pending, hmotor, hsector, hbyte, hagenda, pendingTimer, pendingStimuli]

/-- A machine that waits goes on waiting. -/
theorem stepsFrom_of_waits (h : step s = .next s) (j : Nat) : stepsFrom j s = some s := by
  induction j with
  | zero => rfl
  | succ j ih => exact stepsFrom_succ j s s s ih h

/-! ### The synthetic firings after an index pulse (rule R110, rule R112, rule R113) -/

/-- The machine after an index pulse of the period `p` at the time of `s`, and `k` synthetic firings. -/
def State.afterFirings (s : State) (p k : Nat) : State := { s with
  now := s.now + k * p,
  hdPeriod := some p,
  hdLastPulse := some s.now,
  hdCounter := k,
  sector := if k = s.cfg.hdSectors - 1 then none else some { next := s.now + (k + 1) * p, period := p } }

/-- The index pulse itself, while no operation is busy: no firing yet. -/
theorem exec_hdIndex_eq_afterFirings (hidle : s.busy = false) (hkind : s.kind = .hd) (hsectors : 1 < s.cfg.hdSectors)
    {t0 : Nat} (hlast : s.hdLastPulse = some t0) (hpos : 0 < (s.now - t0) / s.cfg.hdSectors) :
    exec .hdIndex s = .next (s.afterFirings ((s.now - t0) / s.cfg.hdSectors) 0) := by
  have hzero : ¬ 0 = s.cfg.hdSectors - 1 := by omega
  rw [exec_hdIndex_of_hd hkind, State.measurePeriod_of_some hlast,
    State.afterIncrement_of_not_busy (by exact hidle)]
  simp only [State.afterFirings, if_pos hpos, if_neg hzero, Nat.zero_mul, Nat.zero_add, Nat.one_mul, Nat.add_zero]

/-- Before the last sector, with no other event pending, a step is the next synthetic firing, one period later. -/
theorem step_afterFirings (hcfg : configOk s.cfg = true) (hidle : s.busy = false) (hkind : s.kind = .hd)
    (hmotor : s.motor = none) (hbyte : s.byte = none) (hagenda : s.agenda = []) (p : Nat) {k : Nat}
    (hk : k + 1 < s.cfg.hdSectors) : step (s.afterFirings p k) = .next (s.afterFirings p (k + 1)) := by
  have harmed : (s.afterFirings p k).sector = some { next := s.now + (k + 1) * p, period := p } :=
    if_neg (by omega)
  have hlater : s.now + k * p ≤ s.now + (k + 1) * p := Nat.add_le_add_left (Nat.mul_le_mul_right _ k.le_succ) _
  have hnext : s.now + (k + 1) * p + p = s.now + (k + 1 + 1) * p := by ring
  rw [step_eq_sectorFire (s := s.afterFirings p k) hcfg harmed (by simp [State.afterFirings, hmotor])
    (by simp [State.afterFirings, hbyte]) (by simp [State.afterFirings, hagenda]),
    exec_sectorFire_of_hd (by exact hkind), State.countSector_eq, State.afterIncrement_of_not_busy (by exact hidle)]
  simp only [State.afterFirings, Nat.mod_eq_of_lt hk, Nat.max_eq_right hlater, hnext]

/-- The firings up to the last sector, one a step. -/
theorem stepsFrom_afterFirings (hcfg : configOk s.cfg = true) (hidle : s.busy = false) (hkind : s.kind = .hd)
    (hmotor : s.motor = none) (hbyte : s.byte = none) (hagenda : s.agenda = []) (p : Nat) {k : Nat}
    (hk : k < s.cfg.hdSectors) : stepsFrom k (s.afterFirings p 0) = some (s.afterFirings p k) := by
  induction k with
  | zero => rfl
  | succ k ih =>
    exact stepsFrom_succ k _ _ _ (ih (Nat.lt_of_succ_lt hk)) (step_afterFirings hcfg hidle hkind hmotor hbyte hagenda p hk)

/-- Settles O43: one firing a step up to the last sector, where the timer is disarmed and nothing is pending any more. -/
theorem indexPulseIsMultiplied : Obligations.IndexPulseIsMultiplied := by
  intro s t0 hcfg hkind hidle hagenda hmotor hbyte hsectors hlast hpos
  have hrun := fun k => stepsFrom_afterFirings hcfg hidle hkind hmotor hbyte hagenda ((s.now - t0) / s.cfg.hdSectors) (k := k)
  refine ⟨_, exec_hdIndex_eq_afterFirings hidle hkind hsectors hlast hpos, hrun, fun j => ?_⟩
  have hend := hrun (s.cfg.hdSectors - 1) (by omega)
  have hwaits := step_of_nothing_pending (s := s.afterFirings ((s.now - t0) / s.cfg.hdSectors) (s.cfg.hdSectors - 1))
    hcfg hmotor (if_pos rfl) hbyte hagenda
  rw [stepsFrom_add _ j _ _ hend, hend, stepsFrom_of_waits hwaits]

end Sys2Proof.Machine
end

section
/-! The control ports: the fields of the two control bytes (rule R70, rule R71), and what a control write stores, arms, forwards and
cancels (rule R133 to rule R137). -/

namespace Sys2Proof.Machine

variable {s : State}

/-! ### The fields of the control bytes, as numbers -/

theorem control0Drive_eq (data : Byte) : control0Drive data = Fin.ofNat 4 data.toNat :=
  Fin.ext (by simp [control0Drive])

theorem control0Drive_eq_zero_iff (data : Byte) : control0Drive data = 0 ↔ data.toNat % 4 = 0 := by
  simp [control0Drive_eq, Fin.ext_iff]

theorem control0Head_eq (data : Byte) : control0Head data = BitVec.ofNat 3 (data.toNat / 4) :=
  BitVec.eq_of_toNat_eq (by simp [control0Head, Nat.shiftRight_eq_div_pow])

theorem control1Sector_eq (data : Byte) : control1Sector data = BitVec.ofNat 5 data.toNat :=
  BitVec.eq_of_toNat_eq (by simp [control1Sector])

/-! ### A write of control port 0 -/

/-- The state right after a write of control port 0 has selected the drive and armed `MOTOR`, before any line is driven (rule
R133). -/
def State.selectByControl0 (s : State) (data : Byte) : State :=
  { s with cmd := s.cmd.control0 data, motor := some (s.now + s.cfg.motorTime) }

theorem exec_wrControl0_of_not_busy (hidle : s.busy = false) (data : Byte) : exec (.wrControl0 data) s =
    .next (((s.selectByControl0 data).setMotors true).forwardHeadStep data).cancelSectorForFloppy :=
  congrArg _ (State.gatedWrite_of_not_busy hidle _)

/-- The write selects the hard disk exactly when one is attached and the drive field is 0 (rule R12). -/
theorem State.selectByControl0_kind_eq_hd (s : State) (data : Byte) :
    (s.selectByControl0 data).kind = .hd ↔ s.cfg.hdAttached = true ∧ data.toNat % 4 = 0 := by
  rw [← control0Drive_eq_zero_iff]
  exact State.kind_eq_hd _

/-- The lines driven, newest call first: those of the hard disk, of an attached floppy, or none (rule R134). -/
theorem State.headStepCalls_eq (s : State) (data : Byte) : s.headStepCalls data =
    if s.kind = .hd then
      [.hdSetDir (data.getLsbD 6), .hdSetStep (data.getLsbD 5), .hdSetHead (maskedHead s.cfg.hdHeads (control0Head data))]
    else if s.cfg.attached s.cmd.selectedDrive = true then
      [.fdSetDir s.cmd.selectedDrive (data.getLsbD 6), .fdSetStep s.cmd.selectedDrive (data.getLsbD 5),
        .fdSetHead s.cmd.selectedDrive (control0Head data)]
    else [] := by
  unfold State.headStepCalls
  cases s.kind <;> rfl

theorem State.cancelSectorForFloppy_sector (s : State) :
    s.cancelSectorForFloppy.sector = if s.kind = .hd then s.sector else none := by
  unfold State.cancelSectorForFloppy
  cases s.kind <;> rfl

theorem attachedSlots_eq_filter_finRange (c : Params) : c.attachedSlots = (List.finRange 4).filter fun n => c.attached n :=
  rfl

/-- Settles O20: the selection decides which drive's lines are driven and whether `SECTOR` is cancelled. -/
theorem writeControl0SelectsAndForwards : Obligations.WriteControl0SelectsAndForwards := by
  intro data s hidle
  refine ⟨_, exec_wrControl0_of_not_busy hidle data, ?stored, ?sector, ?calls⟩
  case stored =>
    rw [← control0Drive_eq, ← control0Head_eq]
    rfl
  case sector =>
    rw [State.cancelSectorForFloppy_sector]
    exact if_congr (s.selectByControl0_kind_eq_hd data) rfl rfl
  case calls =>
    have hlines := (s.selectByControl0 data).headStepCalls_eq data
    simp only [State.selectByControl0_kind_eq_hd, control0Head_eq] at hlines
    rw [← control0Drive_eq, ← attachedSlots_eq_filter_finRange, List.append_assoc]
    exact congrArg (· ++ (motorCalls true s.cfg.attachedSlots ++ s.calls)) hlines

/-! ### A write of control port 1 -/

/-- Settles O21. -/
theorem writeControl1SetsTheOperation : Obligations.WriteControl1SetsTheOperation := by
  intro data s hidle
  have hstored : exec (.wrControl1 data) s = .next { s with cmd := s.cmd.control1 data } :=
    congrArg _ (State.gatedWrite_of_not_busy hidle _)
  rw [hstored, CommandState.control1, control1Sector_eq]
  rfl

end Sys2Proof.Machine
end

section
/-! The start, data and reset ports while not busy, and the accesses of an `INVALID` slot (rule R142 to rule R148). -/

namespace Sys2Proof.Machine

variable {s : State}

/-! ### The start port -/

theorem exec_wrStart_of_not_busy (hidle : s.busy = false) (data : Byte) :
    exec (.wrStart data) s = .next (if s.motorOn then { s with busy := true, idleCount := some 0 } else s) :=
  congrArg _ (State.gatedWrite_of_not_busy hidle _)

/-- Settles O24: the motor is on exactly while its timer is armed (rule R27). -/
theorem writeStartNeedsTheMotor : Obligations.WriteStartNeedsTheMotor := by
  intro data s hidle
  rw [exec_wrStart_of_not_busy hidle]
  exact ⟨fun hon => congrArg _ (if_pos (Option.isSome_iff_ne_none.mpr hon)),
    fun hoff => congrArg _ (if_neg (by simp [State.motorOn, hoff]))⟩

/-! ### The data port -/

/-- Settles O25, by the law of a buffer write at the cursor. -/
theorem writeDataStoresAtCursor : Obligations.WriteDataStoresAtCursor := fun data s hidle =>
  ⟨_, exec_wrData_of_not_busy hidle data, rfl, fun a => byteAt_putCell s.buffer _ a data,
    fun hlen hbuffer => s.memWrite_bufferOk s.cursor data hbuffer hlen⟩

/-- A peek of the data port while not busy returns the byte at the cursor and leaves the cursor (rule R145). -/
theorem exec_rdData_peek_of_not_busy (hidle : s.busy = false) :
    exec (.rdData true) s = .next (s.returns (.byte (s.memRead s.cursor))) :=
  congrArg _ (State.gatedRead_of_not_busy hidle _)

/-- Settles O27. -/
theorem readDataReturnsByteAtCursor : Obligations.ReadDataReturnsByteAtCursor := fun _ hidle =>
  ⟨exec_rdData_peek_of_not_busy hidle, exec_rdData_of_not_busy hidle⟩

/-! ### The reset port and the `INVALID` slots -/

/-- Settles O26. -/
theorem writeResetZeroesCursor : Obligations.WriteResetZeroesCursor := fun data _ hidle =>
  exec_wrReset_of_not_busy hidle data

/-- `RD_RESET` while not busy returns `INVALID_VALUE` (rule R147). -/
theorem exec_rdReset_of_not_busy (hidle : s.busy = false) (peek : Bool) :
    exec (.rdReset peek) s = .next (s.returns (.byte s.cfg.invalidValue)) :=
  congrArg _ (State.gatedRead_of_not_busy hidle _)

/-- A read of an `INVALID` slot returns `INVALID_VALUE`, busy or not (rule R148). -/
theorem exec_invalid_read (offset : Nat) (data : Byte) (peek : Bool) (s : State) :
    exec (.invalid .read offset data peek) s = .next (s.returns (.byte s.cfg.invalidValue)) := rfl

/-- A write of an `INVALID` slot has no effect, busy or not (rule R148). -/
theorem exec_invalid_write (offset : Nat) (data : Byte) (peek : Bool) (s : State) :
    exec (.invalid .write offset data peek) s = .next s := rfl

/-- Settles O28. -/
theorem resetReadAndInvalidSlotAreInert : Obligations.ResetReadAndInvalidSlotAreInert :=
  ⟨fun peek _ hidle => exec_rdReset_of_not_busy hidle peek,
    fun offset data peek s => ⟨exec_invalid_read offset data peek s, exec_invalid_write offset data peek s⟩⟩

end Sys2Proof.Machine
end

section
/-! The status ports: the bits of the two status bytes (rule R72, rule R73), what a status read asks the selected drive (rule
R139), and that it does so busy or not (rule R131, rule R141). -/

namespace Sys2Proof.Machine

variable {s : State} {i j : Nat}

/-! ### The bits of the status bytes -/

/-- Of the bits of `bitAt i b` only the bit `i` can be set. -/
theorem getLsbD_bitAt (hj : j < 8) (b : Bool) : (bitAt i b).getLsbD j = if j = i then b else false := by
  rw [bitAt, BitVec.getLsbD_shiftLeft, BitVec.getLsbD_setWidth, BitVec.getLsbD_ofBool]
  grind

theorem getLsbD_floppyStatus (hi : i < 8) (wp tk0 : Bool) :
    (floppyStatus wp tk0).getLsbD i = if i = 0 then wp else if i = 2 then tk0 else false := by
  simp only [floppyStatus, BitVec.getLsbD_or, getLsbD_bitAt hi]
  grind

theorem getLsbD_hardDiskStatus (hi : i < 8) (ready tk0 seekComplete : Bool) :
    (hardDiskStatus ready tk0 seekComplete).getLsbD i =
      if i = 1 then ready else if i = 2 then tk0 else if i = 4 then seekComplete else decide (i = 5) := by
  simp only [hardDiskStatus, BitVec.getLsbD_or, getLsbD_bitAt hi]
  grind

theorem State.getLsbD_status1 (s : State) (hi : i < 8) : s.status1.getLsbD i =
    if i = 0 then s.cfg.hdAttached && decide (s.cmd.selectedDrive = 0) else if i = 1 then s.busy
    else if i = 2 then s.motor.isSome else if i = 3 then s.cfg.hdTypeBit else false := by
  have hkind : decide (s.kind = .hd) = (s.cfg.hdAttached && decide (s.cmd.selectedDrive = 0)) := by
    simp [State.kind_eq_hd]
  simp only [State.status1, State.motorOn, hkind, BitVec.getLsbD_or, getLsbD_bitAt hi]
  grind

/-! ### The drives' answers -/

theorem State.drawSignal_calls (s : State) : s.drawSignal.2.calls = s.calls := by
  obtain ⟨l, n, h⟩ := s.drawSignal_frame
  rw [h]

/-- A status answer depends on no call made before, and leaves it recorded. -/
theorem State.drawSignal_call (s : State) (c : Call) :
    (s.call c).drawSignal = (s.drawSignal.1, s.drawSignal.2.call c) := by
  unfold State.drawSignal State.call
  cases s.signals <;> rfl

/-- A status answer depends on no busy flag, and leaves it as it is. -/
theorem State.drawSignal_setBusy (s : State) (b : Bool) :
    ({ s with busy := b } : State).drawSignal = (s.drawSignal.1, { s.drawSignal.2 with busy := b }) := by
  unfold State.drawSignal
  cases s.signals <;> rfl

/-! ### A read of status port 0 -/

theorem exec_rdStatus0_of_attached (hkind : s.kind = .fd) (hattached : s.cfg.attached s.cmd.selectedDrive = true)
    (peek : Bool) : exec (.rdStatus0 peek) s = .next { s.drawSignal.2.drawSignal.2 with
      calls := .fdTk0 s.cmd.selectedDrive s.drawSignal.2.drawSignal.1 :: .fdWp s.cmd.selectedDrive s.drawSignal.1 :: s.calls,
      result := .byte (floppyStatus s.drawSignal.1 s.drawSignal.2.drawSignal.1) } := by
  simp only [exec, execRdStatus0, hkind, State.readFloppyStatus, hattached, if_true, State.drawSignal_call]
  simp only [State.call, State.returns, State.drawSignal_calls]

theorem exec_rdStatus0_of_absent (hkind : s.kind = .fd) (habsent : s.cfg.attached s.cmd.selectedDrive = false)
    (peek : Bool) : exec (.rdStatus0 peek) s = .next (s.returns (.byte 0)) := by
  simp only [exec, execRdStatus0, hkind, State.readFloppyStatus, habsent, Bool.false_eq_true, if_false]

theorem exec_rdStatus0_of_hd (hkind : s.kind = .hd) (peek : Bool) :
    exec (.rdStatus0 peek) s = .next { s.drawSignal.2.drawSignal.2.drawSignal.2 with
      calls := .hdSeekComplete s.drawSignal.2.drawSignal.2.drawSignal.1 :: .hdTk0 s.drawSignal.2.drawSignal.1 ::
        .hdReady s.drawSignal.1 :: s.calls,
      result := .byte (hardDiskStatus s.drawSignal.1 s.drawSignal.2.drawSignal.1
        s.drawSignal.2.drawSignal.2.drawSignal.1) } := by
  simp only [exec, execRdStatus0, hkind, State.readHardDiskStatus, State.drawSignal_call]
  simp only [State.call, State.returns, State.drawSignal_calls]

/-- Settles O22. -/
theorem readStatus0ShowsDriveSignals : Obligations.ReadStatus0ShowsDriveSignals := fun peek _ =>
  ⟨fun hkind hattached =>
      ⟨_, exec_rdStatus0_of_attached hkind hattached peek, fun _ hi => getLsbD_floppyStatus hi _ _⟩,
    fun hkind habsent => exec_rdStatus0_of_absent hkind habsent peek,
    fun hkind => ⟨_, exec_rdStatus0_of_hd hkind peek, fun _ hi => getLsbD_hardDiskStatus hi _ _ _⟩⟩

/-- A read of status port 0 neither reads nor changes the busy flag (rule R131): with the flag set otherwise it ends in the same
state but for the flag. -/
theorem exec_rdStatus0_setBusy (s : State) (peek b : Bool) :
    ∃ t, exec (.rdStatus0 peek) s = .next t ∧
      exec (.rdStatus0 peek) { s with busy := b } = .next { t with busy := b } := by
  cases hkind : s.kind with
  | hd =>
    refine ⟨_, exec_rdStatus0_of_hd hkind peek, ?_⟩
    rw [exec_rdStatus0_of_hd (s := { s with busy := b }) hkind peek]
    simp only [State.drawSignal_setBusy]
  | fd =>
    cases hattached : s.cfg.attached s.cmd.selectedDrive with
    | true =>
      refine ⟨_, exec_rdStatus0_of_attached hkind hattached peek, ?_⟩
      rw [exec_rdStatus0_of_attached (s := { s with busy := b }) hkind hattached peek]
      simp only [State.drawSignal_setBusy]
    | false =>
      exact ⟨_, exec_rdStatus0_of_absent hkind hattached peek,
        exec_rdStatus0_of_absent (s := { s with busy := b }) hkind hattached peek⟩

/-! ### A read of status port 1 -/

theorem exec_rdStatus1 (peek : Bool) (s : State) : exec (.rdStatus1 peek) s = .next (s.returns (.byte s.status1)) := rfl

/-- Settles O23. -/
theorem readStatus1ShowsFlags : Obligations.ReadStatus1ShowsFlags := fun peek s =>
  ⟨s.status1, exec_rdStatus1 peek s, fun _ hi => s.getLsbD_status1 hi⟩

end Sys2Proof.Machine
end

section
/-! All ports together: what they do while busy (rule R131), and what a peek may change (rule R146). -/

namespace Sys2Proof.Machine

variable {s : State}

/-! ### While busy -/

theorem exec_rdData_of_busy (hbusy : s.busy = true) (peek : Bool) :
    exec (.rdData peek) s = .next (s.returns (.byte s.cfg.busyValue)) :=
  congrArg _ (State.gatedRead_of_busy hbusy _)

theorem exec_rdReset_of_busy (hbusy : s.busy = true) (peek : Bool) :
    exec (.rdReset peek) s = .next (s.returns (.byte s.cfg.busyValue)) :=
  congrArg _ (State.gatedRead_of_busy hbusy _)

/-- The status byte of port 1 shows the busy flag at bit 1, and nothing of it elsewhere. -/
theorem State.getLsbD_status1_setBusy (s : State) (b : Bool) {i : Nat} (hi : i < 8) :
    ({ s with busy := b } : State).status1.getLsbD i = if i = 1 then b else s.status1.getLsbD i := by
  rw [State.getLsbD_status1 _ hi, State.getLsbD_status1 _ hi]
  grind

/-- Settles O19: the writes and the gated reads by their gate; the status reads because the flag is only shown, never asked. -/
theorem busyGatesThePorts : Obligations.BusyGatesThePorts := by
  intro s hbusy
  refine ⟨fun data => ?writes, fun peek => ⟨exec_rdData_of_busy hbusy peek, exec_rdReset_of_busy hbusy peek⟩,
    fun peek => ?status0, fun peek => ?status1⟩
  case writes =>
    have hignored := fun i => exec_portWrite_of_busy (i := i) hbusy (d := data)
    exact ⟨hignored _ (by simp), hignored _ (by simp), hignored _ (by simp), hignored _ (by simp), hignored _ (by simp)⟩
  case status0 =>
    have hset : ({ s with busy := true } : State) = s := by rw [← hbusy]
    obtain ⟨t, hclear, hread⟩ := exec_rdStatus0_setBusy { s with busy := false } peek true
    rw [hset] at hread
    exact ⟨t, hclear, hread⟩
  case status1 =>
    have hbit := fun i (hi : i < 8) => s.getLsbD_status1_setBusy false hi
    refine ⟨_, _, exec_rdStatus1 peek _, exec_rdStatus1 peek s, fun i hi hne => ?_, ?_, ?_⟩
    · rw [hbit i hi, if_neg hne]
    · rw [hbit 1 (by omega), if_pos rfl]
    · rw [State.getLsbD_status1 s (by omega)]
      exact hbusy

/-! ### Peeks -/

/-- A peek of the data port only returns a value, busy or not (rule R146). -/
theorem exec_rdData_peek_returns (s : State) : ∃ v, exec (.rdData true) s = .next (s.returns (.byte v)) := by
  cases hbusy : s.busy with
  | true => exact ⟨_, exec_rdData_of_busy hbusy true⟩
  | false => exact ⟨_, exec_rdData_peek_of_not_busy hbusy⟩

/-- A read of the reset port only returns a value, busy or not (rule R147). -/
theorem exec_rdReset_returns (s : State) (peek : Bool) : ∃ v, exec (.rdReset peek) s = .next (s.returns (.byte v)) := by
  cases hbusy : s.busy with
  | true => exact ⟨_, exec_rdReset_of_busy hbusy peek⟩
  | false => exact ⟨_, exec_rdReset_of_not_busy hbusy peek⟩

/-- Settles O29: a status-port-0 read by its frame, the other reads because they only return a value. -/
theorem peekReadsChangeNoState : Obligations.PeekReadsChangeNoState := by
  intro i s hi
  rcases hi with rfl | ⟨peek, rfl⟩ | ⟨peek, rfl⟩ | ⟨peek, rfl⟩ | ⟨offset, data, peek, rfl⟩
  · obtain ⟨v, hread⟩ := exec_rdData_peek_returns s
    exact ⟨_, hread, rfl⟩
  · obtain ⟨t, ht⟩ := exec_next (.rdStatus0 peek) s
    exact ⟨t, ht, execRdStatus0_frame peek s t ht⟩
  · exact ⟨_, exec_rdStatus1 peek s, rfl⟩
  · obtain ⟨v, hread⟩ := exec_rdReset_returns s peek
    exact ⟨_, hread, rfl⟩
  · exact ⟨_, exec_invalid_read offset data peek s, rfl⟩

end Sys2Proof.Machine
end

section
/-! Code bits in and out of the 16-bit register (rule R55, rule R157), and the bytes that a run of stores at the cursor leaves
in the buffer (rule R158). -/

namespace Sys2Proof.Machine

variable {bits : List Bool} {len cursor m i : Nat} {cells stored : List Host.Cell} {v w : Nat → Byte}

/-! ### The register and its bits -/

@[simp] theorem length_bitsOfCode (c : Code) : (bitsOfCode c).length = 16 := by simp [bitsOfCode]

/-- A code is determined by its bits. -/
theorem bitsOfCode_injective : Function.Injective bitsOfCode := by
  intro c d h
  refine BitVec.eq_of_getLsbD_eq fun i hi => ?_
  have hbit : (bitsOfCode c)[15 - i]? = (bitsOfCode d)[15 - i]? := by rw [h]
  have hpos : 15 - (15 - i) = i := by omega
  simpa [bitsOfCode, show 15 - i < 16 by omega, hpos] using hbit

/-- A bit that enters the register pushes the oldest one out. -/
theorem bitsOfCode_shiftInBit (c : Code) (b : Bool) : bitsOfCode (shiftInBit c b) = (bitsOfCode c).tail ++ [b] := by
  refine List.ext_getElem (by simp) fun i hi _ => ?_
  rw [length_bitsOfCode] at hi
  obtain hlt | rfl : i < 15 ∨ i = 15 := by omega
  · have hnew : 15 - i ≠ 0 := by omega
    have hpos : 15 - i - 1 = 15 - (i + 1) := by omega
    simp [bitsOfCode, shiftInBit, BitVec.getLsbD_concat, List.getElem_append_left, hlt, hnew, hpos,
      show 14 - i < 15 by omega]
  · simp [bitsOfCode, shiftInBit, BitVec.getLsbD_concat]

/-- After a run of bits the register holds the latest 16 of those it held and those that entered. -/
theorem bitsOfCode_foldl_shiftInBit (c : Code) (bits : List Bool) :
    bitsOfCode (bits.foldl shiftInBit c) = (bitsOfCode c ++ bits).drop bits.length := by
  induction bits generalizing c with
  | nil => simp
  | cons b bits ih =>
    have hne : bitsOfCode c ≠ [] := List.ne_nil_of_length_eq_add_one (length_bitsOfCode c)
    rw [List.foldl_cons, ih, bitsOfCode_shiftInBit, List.length_cons, ← List.drop_tail, List.tail_append_of_ne_nil hne,
      List.append_assoc, List.singleton_append]

/-- Sixteen bits make up a code, and are its bits. -/
theorem bitsOfCode_codeOfBits (hlen : bits.length = 16) : bitsOfCode (codeOfBits bits) = bits := by
  rw [codeOfBits, bitsOfCode_foldl_shiftInBit, List.drop_left' (by rw [length_bitsOfCode, hlen])]

theorem codeOfBits_bitsOfCode (c : Code) : codeOfBits (bitsOfCode c) = c :=
  bitsOfCode_injective (bitsOfCode_codeOfBits (length_bitsOfCode c))

/-- Once the pending bits are 16 with the bits that followed, the register is their code, whatever it held above them. -/
theorem State.foldl_shiftInBit_pendingBits (s : State) (hcount : s.pendingCount ≤ 16)
    (hlen : s.pendingCount + bits.length = 16) :
    bits.foldl shiftInBit s.pendingBits = codeOfBits (s.pendingCodeBits ++ bits) := by
  apply bitsOfCode_injective
  have hwhole : (s.pendingCodeBits ++ bits).length = 16 := by
    rw [List.length_append, s.length_pendingCodeBits hcount, hlen]
  have hroom : bits.length ≤ (bitsOfCode s.pendingBits).length := by rw [length_bitsOfCode]; omega
  rw [bitsOfCode_foldl_shiftInBit, bitsOfCode_codeOfBits hwhole, State.pendingCodeBits,
    List.drop_append_of_le_length hroom, show 16 - s.pendingCount = bits.length by omega]

/-! ### The codes in a run of bits -/

/-- The code of the `i`-th 16 bits (rule R157). -/
def codeAt (bits : List Bool) (i : Nat) : Code := codeOfBits ((bits.drop (16 * i)).take 16)

/-- Later bits leave the codes before them alone. -/
theorem codeAt_append (h : 16 * (i + 1) ≤ bits.length) (later : List Bool) :
    codeAt (bits ++ later) i = codeAt bits i := by
  have htail : 16 ≤ (bits.drop (16 * i)).length := by rw [List.length_drop]; omega
  rw [codeAt, List.drop_append_of_le_length (by omega), List.take_append_of_le_length htail, codeAt]

/-- The latest 16 bits are the last code. -/
theorem codeAt_of_length (h : bits.length = 16 * (i + 1)) : codeAt bits i = codeOfBits (bits.drop (16 * i)) := by
  rw [codeAt, List.take_of_length_le (by rw [List.length_drop]; omega)]

/-- The codes after the first `n` are those of the bits after them. -/
theorem codeAt_drop (bits : List Bool) (n i : Nat) : codeAt (bits.drop (16 * n)) i = codeAt bits (n + i) := by
  rw [codeAt, List.drop_drop, ← Nat.mul_add, codeAt]

/-- Codes written out bit by bit are read back in their order. -/
theorem codeAt_flatMap_bitsOfCode (codes : List Code) (rest : List Bool) (h : i < codes.length) :
    codeAt (codes.flatMap bitsOfCode ++ rest) i = codes[i] := by
  induction codes generalizing i with
  | nil => nomatch h
  | cons c codes ih =>
    rw [List.flatMap_cons, List.append_assoc]
    cases i with
    | zero =>
      rw [codeAt, Nat.mul_zero, List.drop_zero, List.take_left' (length_bitsOfCode c), codeOfBits_bitsOfCode]
      rfl
    | succ i =>
      rw [codeAt, Nat.mul_succ, Nat.add_comm, ← List.drop_drop, List.drop_left' (length_bitsOfCode c)]
      exact ih (Nat.lt_of_succ_lt_succ h)

theorem length_flatMap_bitsOfCode (codes : List Code) : (codes.flatMap bitsOfCode).length = 16 * codes.length := by
  induction codes with
  | nil => rfl
  | cons c codes ih => rw [List.flatMap_cons, List.length_append, length_bitsOfCode, ih, List.length_cons]; omega

/-! ### Stores in cursor order -/

/-- The cells after `m` bytes were stored in cursor order from the cells before, the `i`-th being `v i`: each stands in its
place unless a later one took that place, and every other place is as it was. -/
structure StoredInOrder (len cursor : Nat) (cells stored : List Host.Cell) (v : Nat → Byte) (m : Nat) : Prop where
  bytes : ∀ i < m, (∀ j < m, i < j → (cursor + j) % len ≠ (cursor + i) % len) →
    byteAt stored ((cursor + i) % len) = v i
  others : ∀ a, (∀ i < m, a ≠ (cursor + i) % len) → byteAt stored a = byteAt cells a

theorem StoredInOrder.zero : StoredInOrder len cursor cells cells v 0 := ⟨nofun, fun _ _ => rfl⟩

/-- One more byte, stored at the next place. -/
theorem StoredInOrder.succ (h : StoredInOrder len cursor cells stored v m) :
    StoredInOrder len cursor cells (putCell stored ((cursor + m) % len) (v m)) v (m + 1) where
  bytes i hi hlast := by
    rw [byteAt_putCell]
    obtain hlt | rfl := Nat.lt_succ_iff_lt_or_eq.mp hi
    · rw [if_neg (hlast m m.lt_succ_self hlt).symm]
      exact h.bytes i hlt fun j hj => hlast j (hj.trans m.lt_succ_self)
    · rw [if_pos rfl]
  others a ha := by
    rw [byteAt_putCell, if_neg (ha m m.lt_succ_self)]
    exact h.others a fun i hi => ha i (hi.trans m.lt_succ_self)

/-- Only the bytes that were stored matter. -/
theorem StoredInOrder.congr (h : StoredInOrder len cursor cells stored v m) (heq : ∀ i < m, v i = w i) :
    StoredInOrder len cursor cells stored w m where
  bytes i hi hlast := (h.bytes i hi hlast).trans (heq i hi)
  others := h.others

/-- Places less than the length of the buffer apart are different. -/
theorem add_mod_ne_add_mod (cursor : Nat) {i j len : Nat} (hij : i < j) (hj : j < i + len) :
    (cursor + j) % len ≠ (cursor + i) % len := by
  intro h
  have hmod : j ≡ i [MOD len] := Nat.ModEq.add_left_cancel' cursor h
  have hdvd : len ∣ j - i := (Nat.modEq_iff_dvd' hij.le).mp hmod.symm
  exact absurd (Nat.le_of_dvd (by omega) hdvd) (by omega)

/-- As many bytes as the buffer holds at most all stand in their places. -/
theorem StoredInOrder.byteAt_of_le (h : StoredInOrder len cursor cells stored v m) (hm : m ≤ len) (hi : i < m) :
    byteAt stored ((cursor + i) % len) = v i :=
  h.bytes i hi fun _ hj hij => add_mod_ne_add_mod cursor hij (by omega)

end Sys2Proof.Machine
end

section
/-! A firing of `BYTE`: the path it takes (rule R155), and the write path (rule R162 to rule R170). -/

namespace Sys2Proof.Machine

variable {s : State} {t : Nat}

/-! ### The operations of the engine -/

theorem exec_byteFire_of_read (hread : s.cmd.readMode = true) : exec .byteFire s = .next (s.readByteFire s.kind) :=
  congrArg _ (if_pos hread)

theorem exec_byteFire_of_write (hwrite : s.cmd.readMode = false) : exec .byteFire s = .next (s.writeByteFire s.kind) :=
  congrArg _ (if_neg (Bool.eq_false_iff.mp hwrite))

theorem exec_readByteFire (k : Kind) (s : State) : exec (.readByteFire k) s = .next (s.readByteFire k) := rfl

theorem exec_writeByteFire (k : Kind) (s : State) : exec (.writeByteFire k) s = .next (s.writeByteFire k) := rfl

/-- What a write firing does, with the emitted calls by their name (rule R162). -/
theorem State.writeByteFire_eq (s : State) (k : Kind) : s.writeByteFire k = { s with
    calls := s.pendingEmission k ++ s.calls,
    cursor := (s.cursor + 1) % s.cfg.bufLen,
    pendingBits := mfmEncode (s.memRead s.cursor) (mfmDecode s.pendingBits),
    pendingCount := 16,
    byte := some (s.now + byteTime s.cfg k) } := rfl

/-- With nothing but `BYTE` pending, a step is its firing. -/
theorem step_eq_byteFire_of_only (hcfg : configOk s.cfg = true) (hagenda : s.agenda = []) (hmotor : s.motor = none)
    (hsector : s.sector = none) (hbyte : s.byte = some t) (hnow : s.now ≤ t) :
    step s = exec .byteFire { s with byte := none, now := t } := by
  rw [step_eq_byteFire hcfg hbyte (by simp [hmotor]) (by simp [hsector]) (by simp [hagenda]), Nat.max_eq_right hnow]

/-! ### The path, and the two ways to emit a code -/

/-- Settles O44: each mode by its equation. -/
theorem byteFireTakesThePathOfTheMode : Obligations.ByteFireTakesThePathOfTheMode := fun s =>
  ⟨fun hread => ⟨_, exec_byteFire_of_read hread, exec_readByteFire s.kind s⟩,
    fun hwrite => ⟨_, exec_byteFire_of_write hwrite, exec_writeByteFire s.kind s⟩⟩

/-- Settles O45: the equation of a write firing, for each drive kind. -/
theorem writeFiringEmitsAndEncodes : Obligations.WriteFiringEmitsAndEncodes := by
  intro k s
  rw [exec_writeByteFire, State.writeByteFire_eq]
  cases k with
  | fd => rfl
  | hd => rfl

/-- The transitions of a code: one for each set bit, at the midpoint of its half-cell (rule R165). -/
theorem mem_fluxTimes {h t x : Nat} {c : Code} :
    x ∈ fluxTimes h t c ↔ ∃ j < 16, c.getLsbD j = true ∧ x = t + (15 - j) * h + h / 2 := by
  simp only [fluxTimes, List.mem_map, List.mem_filter, List.mem_range]
  constructor
  · rintro ⟨i, ⟨hi, hset⟩, rfl⟩
    exact ⟨15 - i, by omega, hset, by rw [show 15 - (15 - i) = i by omega]⟩
  · rintro ⟨j, hj, hset, rfl⟩
    exact ⟨15 - j, ⟨by omega, by rwa [show 15 - (15 - j) = j by omega]⟩, rfl⟩

/-- Settles O50: the one call of the operation, whose transitions are those of the code. -/
theorem fluxIsWrittenAtCellMidpoints : Obligations.FluxIsWrittenAtCellMidpoints := fun t c s =>
  ⟨fluxTimes s.cfg.fdHalfCell t c, rfl, fun _ => mem_fluxTimes⟩

/-- Settles O51: the one call of the operation. -/
theorem codeIsHandedToTheHardDisk : Obligations.CodeIsHandedToTheHardDisk := fun _ _ _ => rfl

/-! ### A write transfer -/

/-- The code that is pending after `n` firings of a write transfer: each byte is encoded with the one before as context (rule
R162, rule R164). -/
def State.encodedCode (s : State) : Nat → Code
  | 0 => s.pendingBits
  | n + 1 => mfmEncode (s.memRead (s.cursor + n)) (mfmDecode (s.encodedCode n))

/-- Decoded, the code of a firing is the byte that was at the cursor (rule R87). -/
theorem State.mfmDecode_encodedCode_succ (s : State) (n : Nat) :
    mfmDecode (s.encodedCode (n + 1)) = byteAt s.buffer ((s.cursor + n) % s.cfg.bufLen) :=
  mfmDecode_mfmEncode _ _

/-- The first `n` emissions of a write transfer that begins at `t`, the oldest first: the code of each firing but the last is
emitted one byte time after it (rule R162, rule R169). -/
def State.emissions (s : State) (t n : Nat) : List Call :=
  (List.range n).map fun i => s.emissionCall (t + (i + 1) * byteTime s.cfg s.kind) (s.encodedCode (i + 1))

theorem State.emissions_succ (s : State) (t n : Nat) : s.emissions t (n + 1) =
    s.emissions t n ++ [s.emissionCall (t + (n + 1) * byteTime s.cfg s.kind) (s.encodedCode (n + 1))] := by
  simp only [State.emissions, List.range_succ, List.map_append, List.map_singleton]

/-- The state after `n + 1` firings of a write transfer that begins at `t`. -/
def State.afterWrites (s : State) (t n : Nat) : State := { s with
  now := t + n * byteTime s.cfg s.kind,
  byte := some (t + (n + 1) * byteTime s.cfg s.kind),
  cursor := (s.cursor + (n + 1)) % s.cfg.bufLen,
  pendingBits := s.encodedCode (n + 1),
  pendingCount := 16,
  calls := (s.emissions t n).reverse ++ s.calls }

@[simp] theorem State.afterWrites_cfg (s : State) (t n : Nat) : (s.afterWrites t n).cfg = s.cfg := rfl

@[simp] theorem State.afterWrites_kind (s : State) (t n : Nat) : (s.afterWrites t n).kind = s.kind := rfl

@[simp] theorem State.afterWrites_memRead (s : State) (t n i : Nat) : (s.afterWrites t n).memRead i = s.memRead i := rfl

@[simp] theorem State.afterWrites_emissionCall (s : State) (t n t' : Nat) (c : Code) :
    (s.afterWrites t n).emissionCall t' c = s.emissionCall t' c := rfl

/-- A whole pending code is emitted in the way of the drive kind (rule R162). -/
theorem State.pendingEmission_eq (s : State) :
    s.pendingEmission s.kind = if s.pendingCount = 16 then [s.emissionCall s.now s.pendingBits] else [] := by
  unfold State.pendingEmission State.emissionCall
  cases s.kind with
  | fd => rfl
  | hd => rfl

section
variable (hcfg : configOk s.cfg = true) (hwrite : s.cmd.readMode = false) (hagenda : s.agenda = [])
  (hmotor : s.motor = none) (hsector : s.sector = none)
include hcfg hwrite hagenda hmotor hsector

/-- With nothing but `BYTE` pending in write mode, a step is a write firing. -/
theorem step_of_write (hbyte : s.byte = some t) (hnow : s.now ≤ t) :
    step s = .next { s with
      now := t, byte := some (t + byteTime s.cfg s.kind), cursor := (s.cursor + 1) % s.cfg.bufLen,
      pendingBits := mfmEncode (s.memRead s.cursor) (mfmDecode s.pendingBits), pendingCount := 16,
      calls := (if s.pendingCount = 16 then [s.emissionCall t s.pendingBits] else []) ++ s.calls } := by
  rw [step_eq_byteFire_of_only hcfg hagenda hmotor hsector hbyte hnow, exec_byteFire_of_write (by exact hwrite),
    State.writeByteFire_eq, State.pendingEmission_eq]
  rfl

/-- The first firing of a write transfer has no code to emit. -/
theorem step_eq_afterWrites_zero (hbyte : s.byte = some t) (hnow : s.now ≤ t) (hcount : s.pendingCount = 0) :
    step s = .next (s.afterWrites t 0) := by
  rw [step_of_write hcfg hwrite hagenda hmotor hsector hbyte hnow, if_neg (by simp [hcount])]
  simp [State.afterWrites, State.emissions, State.encodedCode]

/-- Every later firing emits the code of the firing before it, one byte time later. -/
theorem step_afterWrites (t n : Nat) : step (s.afterWrites t n) = .next (s.afterWrites t (n + 1)) := by
  have hlater : t + n * byteTime s.cfg s.kind ≤ t + (n + 1) * byteTime s.cfg s.kind := by gcongr; omega
  have hnext : t + (n + 1) * byteTime s.cfg s.kind + byteTime s.cfg s.kind = t + (n + 1 + 1) * byteTime s.cfg s.kind := by
    ring
  have hread : s.memRead ((s.cursor + (n + 1)) % s.cfg.bufLen) = s.memRead (s.cursor + (n + 1)) :=
    congrArg (byteAt s.buffer) (Nat.mod_mod _ _)
  rw [step_of_write (s := s.afterWrites t n) hcfg hwrite hagenda hmotor hsector rfl hlater]
  simp only [State.afterWrites_cfg, State.afterWrites_kind, State.afterWrites_memRead, State.afterWrites_emissionCall]
  simp only [State.afterWrites, if_true, hnext, hread, Nat.mod_add_mod, State.emissions_succ, State.encodedCode,
    List.reverse_append, List.reverse_singleton, List.append_assoc]
  rfl

/-- The firings of a write transfer, one a step. -/
theorem stepsFrom_afterWrites (hbyte : s.byte = some t) (hnow : s.now ≤ t) (hcount : s.pendingCount = 0) (n : Nat) :
    stepsFrom (n + 1) s = some (s.afterWrites t n) := by
  induction n with
  | zero => exact stepsFrom_one _ _ (step_eq_afterWrites_zero hcfg hwrite hagenda hmotor hsector hbyte hnow hcount)
  | succ n ih => exact stepsFrom_succ _ _ _ _ ih (step_afterWrites hcfg hwrite hagenda hmotor hsector t n)

end

/-- Settles O49: the state after the firings, whose emissions are those of the encoded bytes in cursor order. -/
theorem writeTransferEmitsTheBufferInOrder : Obligations.WriteTransferEmitsTheBufferInOrder := by
  intro s t n hcfg hwrite hagenda hmotor hsector hbyte hnow _ hcount
  refine ⟨_, (s.emissions t n).reverse, stepsFrom_afterWrites hcfg hwrite hagenda hmotor hsector hbyte hnow hcount n, rfl,
    s.mfmDecode_encodedCode_succ n, by simp [State.emissions], fun i hi => ?_⟩
  exact ⟨s.encodedCode (i + 1), by simp [State.emissions, hi], s.mfmDecode_encodedCode_succ i⟩

end Sys2Proof.Machine
end

section
/-! A read firing: the requests for code bits and the bytes stored between them, in order (rule R156 to rule R160). -/

namespace Sys2Proof.Machine

variable {s u v : State} {k : Kind} {b : Bool} {d f m : Nat} {cs : List Call}

/-! ### What a request does -/

/-- An answered request moves the read position on, at most to the deadline, and its call holds the bit. -/
theorem State.nextCodeBit_of_some (h : s.nextCodeBit k d = (some b, v)) : ∃ r p bs n cs,
    v = { s with readPos := r, pllAnswers := p, hdBits := bs, drawn := n, calls := cs ++ s.calls } ∧
    s.readPos ≤ r ∧ r ≤ d ∧ cs.length ≤ 1 ∧ codeBitsOf cs = [b] := by
  obtain ⟨cs', hcalls, hlen, hbits⟩ := s.nextCodeBit_calls k d
  rcases s.nextCodeBit_cases k d with ⟨p, bs, n, cs, heq, -⟩ | ⟨b', r, p, bs, n, cs, heq, hle, hby, -⟩
  · simp [heq] at h
  · simp only [heq, Prod.mk.injEq, Option.some.injEq] at h
    obtain ⟨rfl, rfl⟩ := h
    rw [heq] at hcalls hbits
    obtain rfl := List.append_cancel_right hcalls
    exact ⟨r, p, bs, n, cs, rfl, hle, hby, hlen, hbits⟩

/-- A request answered with none leaves the read position, and its call holds no bit. -/
theorem State.nextCodeBit_of_none (h : s.nextCodeBit k d = (none, v)) : ∃ p bs n cs,
    v = { s with pllAnswers := p, hdBits := bs, drawn := n, calls := cs ++ s.calls } ∧
    cs.length ≤ 1 ∧ codeBitsOf cs = [] := by
  obtain ⟨cs', hcalls, hlen, hbits⟩ := s.nextCodeBit_calls k d
  rcases s.nextCodeBit_cases k d with ⟨p, bs, n, cs, heq, -⟩ | ⟨b', r, p, bs, n, cs, heq, -⟩
  · simp only [heq, Prod.mk.injEq, true_and] at h
    obtain rfl := h
    rw [heq] at hcalls hbits
    obtain rfl := List.append_cancel_right hcalls
    exact ⟨p, bs, n, cs, rfl, hlen, hbits⟩
  · simp [heq] at h

/-! ### One action of the loop -/

theorem readLoop_succ_of_some (hcount : s.pendingCount < 16) (h : s.nextCodeBit k d = (some b, v)) :
    readLoop k d (f + 1) s = readLoop k d f (v.accumulate b) := by
  rw [readLoop, if_pos hcount, h]

theorem readLoop_succ_of_none (hcount : s.pendingCount < 16) (h : s.nextCodeBit k d = (none, v)) :
    readLoop k d (f + 1) s = v.scheduleByte d := by
  rw [readLoop, if_pos hcount, h]

theorem readLoop_succ_of_wait (hcount : 16 ≤ s.pendingCount) (hwait : s.now < s.readPos) :
    readLoop k d (f + 1) s = s.scheduleByte s.readPos := by
  rw [readLoop, if_neg hcount.not_gt, if_pos hwait]

theorem readLoop_succ_of_ended (hcount : 16 ≤ s.pendingCount) (hended : s.readPos ≤ s.now) :
    readLoop k d (f + 1) s = readLoop k d f s.storeByte := by
  rw [readLoop, if_neg hcount.not_gt, if_neg hended.not_gt]

/-- A store changes only the buffer and the cursor, and empties the register (rule R158). -/
theorem State.storeByte_frame (s : State) :
    ∃ buffer cursor, s.storeByte = { s with buffer := buffer, cursor := cursor, pendingBits := 0, pendingCount := 0 } :=
  ⟨_, _, rfl⟩

/-- Settles O47: the first action of the firing is the unanswered request. -/
theorem unansweredReadSuspends : Obligations.UnansweredReadSuspends := by
  intro k s u hcount hnone
  refine ⟨?fires, ?frame⟩
  case fires => rw [exec_readByteFire, State.readByteFire, readLoop_succ_of_none hcount hnone, State.scheduleByte]
  case frame =>
    obtain ⟨p, bs, n, cs, rfl, -⟩ := State.nextCodeBit_of_none hnone
    rfl

/-! ### How far a firing has come -/

/-- The code bits of a firing, in order: those that were pending and those it was answered with (rule R157). -/
def State.bitsWith (s : State) (cs : List Call) : List Bool := s.pendingCodeBits ++ codeBitsOf cs

/-- From `s` a read firing with the horizon `d` has come to `u`: it has made the calls `cs` and stored `m` bytes. -/
structure ReadProgress (s : State) (d : Nat) (u : State) (m : Nat) (cs : List Call) : Prop where
  frame : u = { s with
    buffer := u.buffer, cursor := u.cursor, byte := u.byte, pendingBits := u.pendingBits,
    pendingCount := u.pendingCount, readPos := u.readPos, pllAnswers := u.pllAnswers, hdBits := u.hdBits,
    drawn := u.drawn, calls := cs ++ s.calls }
  readPos_ge : s.readPos ≤ u.readPos
  readPos_le : u.readPos ≤ max s.readPos d
  count_le : u.pendingCount ≤ 16
  cursor_mod : u.cursor % s.cfg.bufLen = (s.cursor + m) % s.cfg.bufLen
  length_bits : (s.bitsWith cs).length = 16 * m + u.pendingCount
  stored : StoredInOrder s.cfg.bufLen s.cursor s.buffer u.buffer (fun i => mfmDecode (codeAt (s.bitsWith cs) i)) m
  register : u.pendingBits = if m = 0 then (codeBitsOf cs).foldl shiftInBit s.pendingBits
    else codeOfBits ((s.bitsWith cs).drop (16 * m))
  ended : 0 < m → s.readPos ≤ s.now

theorem ReadProgress.start (hcount : s.pendingCount ≤ 16) : ReadProgress s d s 0 [] where
  frame := rfl
  readPos_ge := le_rfl
  readPos_le := le_max_left _ _
  count_le := hcount
  cursor_mod := rfl
  length_bits := by simp [State.bitsWith, s.length_pendingCodeBits hcount]
  stored := .zero
  register := rfl
  ended := nofun

theorem ReadProgress.now_eq (h : ReadProgress s d u m cs) : u.now = s.now := by rw [h.frame]

theorem ReadProgress.cfg_eq (h : ReadProgress s d u m cs) : u.cfg = s.cfg := by rw [h.frame]

/-- Arming `BYTE` is no progress. -/
theorem ReadProgress.scheduleByte (h : ReadProgress s d u m cs) (t : Nat) : ReadProgress s d (u.scheduleByte t) m cs :=
  { h with
    frame := by
      conv_lhs => rw [h.frame]
      rfl }

/-- A bit enters the register (rule R157). -/
theorem ReadProgress.bit (h : ReadProgress s d u m cs) (hcount : u.pendingCount < 16)
    (hnext : u.nextCodeBit k d = (some b, v)) :
    ∃ ds, ReadProgress s d (v.accumulate b) m (ds ++ cs) ∧ ds.length ≤ 1 ∧ codeBitsOf ds = [b] := by
  obtain ⟨r, p, bs, n, ds, rfl, hle, hby, hlen, hds⟩ := State.nextCodeBit_of_some hnext
  have hbits : s.bitsWith (ds ++ cs) = s.bitsWith cs ++ [b] := by
    rw [State.bitsWith, codeBitsOf_append, hds, ← List.append_assoc, State.bitsWith]
  have hlength := h.length_bits
  refine ⟨ds, { h with
    frame := ?frame, readPos_ge := h.readPos_ge.trans hle, readPos_le := hby.trans (le_max_right _ _),
    count_le := hcount, length_bits := ?length, stored := ?stored, register := ?register }, hlen, hds⟩
  case frame =>
    conv_lhs => rw [h.frame]
    simp only [State.accumulate, List.append_assoc]
  case length => rw [hbits, List.length_append, hlength]; rfl
  case stored =>
    refine h.stored.congr fun i hi => ?_
    rw [hbits, codeAt_append (by omega)]
  case register =>
    rw [State.accumulate_pendingBits, hbits, codeBitsOf_append, hds, List.drop_append_of_le_length (by omega),
      codeOfBits_append, List.foldl_append]
    simp only [h.register]
    split <;> rfl

/-- A request without an answer leaves everything but the calls and the inputs (rule R160). -/
theorem ReadProgress.unanswered (h : ReadProgress s d u m cs) (hnext : u.nextCodeBit k d = (none, v)) :
    v.pendingCount = u.pendingCount ∧ ∃ ds, ReadProgress s d v m (ds ++ cs) ∧ ds.length ≤ 1 ∧ codeBitsOf ds = [] := by
  obtain ⟨p, bs, n, ds, rfl, hlen, hds⟩ := State.nextCodeBit_of_none hnext
  have hbits : codeBitsOf (ds ++ cs) = codeBitsOf cs := by rw [codeBitsOf_append, hds, List.append_nil]
  have hbits' : s.bitsWith (ds ++ cs) = s.bitsWith cs := by rw [State.bitsWith, hbits, State.bitsWith]
  refine ⟨rfl, ds, { h with
    frame := ?frame, length_bits := ?length, stored := ?stored, register := ?register }, hlen, hds⟩
  case frame =>
    conv_lhs => rw [h.frame]
    simp only [List.append_assoc]
  case length => rw [hbits']; exact h.length_bits
  case stored => rw [hbits']; exact h.stored
  case register => rw [hbits, hbits']; exact h.register

/-- A whole register holds the code of the latest 16 bits of the firing (rule R157). -/
theorem ReadProgress.register_of_whole (h : ReadProgress s d u m cs) (hcount : s.pendingCount ≤ 16)
    (hwhole : u.pendingCount = 16) : u.pendingBits = codeAt (s.bitsWith cs) m := by
  have hlength := h.length_bits
  rw [codeAt_of_length (by omega), h.register]
  split
  next hm =>
    rw [hm, hwhole, State.bitsWith, List.length_append, s.length_pendingCodeBits hcount] at hlength
    rw [hm, Nat.mul_zero, List.drop_zero, s.foldl_shiftInBit_pendingBits hcount (by omega), State.bitsWith]
  next => rfl

/-- A byte that has ended is stored (rule R158). -/
theorem ReadProgress.store (h : ReadProgress s d u m cs) (hcount : s.pendingCount ≤ 16) (hwhole : u.pendingCount = 16)
    (hended : u.readPos ≤ u.now) : ReadProgress s d u.storeByte (m + 1) cs := by
  have hbuffer : u.storeByte.buffer =
      putCell u.buffer ((s.cursor + m) % s.cfg.bufLen) (mfmDecode (codeAt (s.bitsWith cs) m)) := by
    rw [← h.register_of_whole hcount hwhole, ← h.cursor_mod, ← h.cfg_eq]
    rfl
  have hcursor : u.storeByte.cursor = (u.cursor + 1) % s.cfg.bufLen := by
    rw [← h.cfg_eq]
    rfl
  have hlength := h.length_bits
  refine { h with
    frame := ?frame, count_le := Nat.zero_le _, cursor_mod := ?cursor,
    length_bits := hlength.trans (by rw [hwhole]; rfl),
    stored := by rw [hbuffer]; exact h.stored.succ, register := ?register,
    ended := fun _ => h.readPos_ge.trans (hended.trans_eq h.now_eq) }
  case frame =>
    obtain ⟨buffer, cursor, heq⟩ := u.storeByte_frame
    rw [heq]
    conv_lhs => rw [h.frame]
  case cursor => rw [hcursor, Nat.mod_mod, Nat.add_mod, h.cursor_mod, ← Nat.add_mod, Nat.add_assoc]
  case register =>
    rw [if_neg m.succ_ne_zero, List.drop_of_length_le (by omega)]
    rfl

/-! ### The firing -/

/-- What holds of a state in a read firing from `s`: at most `extra` requests had no answer, and a byte that had ended at the
start is stored. -/
def ReadReaches (s : State) (d extra : Nat) (u : State) : Prop :=
  ∃ m cs, ReadProgress s d u m cs ∧ cs.length ≤ (codeBitsOf cs).length + extra ∧
    (s.pendingCount = 16 → s.readPos ≤ s.now → 0 < m)

/-- How a read firing leaves `BYTE`: for the horizon, or for the end of the accumulated byte (rule R156, rule R160). -/
def ReadRearms (s : State) (d : Nat) (u : State) : Prop :=
  (u.byte = some d ∧ (0 < s.cfg.hdHalfCell → u.pendingCount < 16)) ∨
    (u.byte = some u.readPos ∧ s.now < u.readPos ∧ u.pendingCount = 16)

/-- From any state of the firing the loop ends with `BYTE` armed again. -/
theorem readLoop_reaches (hcount : s.pendingCount ≤ 16)
    (hf : 2 * (d - u.readPos) + (if 16 ≤ u.pendingCount then 1 else 0) < f ∨ ¬ (k = .fd ∨ 0 < u.cfg.hdHalfCell))
    (h : ReadReaches s d 0 u) : ReadReaches s d 1 (readLoop k d f u) ∧ ReadRearms s d (readLoop k d f u) := by
  refine readLoop_induction k d (ReadReaches s d 0) (fun w => ReadReaches s d 1 w ∧ ReadRearms s d w)
    ?bit ?store ?suspend ?wait ?fuel f u hf h
  case bit =>
    rintro u b v ⟨m, cs, hprog, hasked, hfirst⟩ hlt hnext
    obtain ⟨ds, hprog, hlen, hds⟩ := hprog.bit hlt hnext
    exact ⟨m, ds ++ cs, hprog, by simp [hds]; omega, hfirst⟩
  case store =>
    rintro u ⟨m, cs, hprog, hasked, -⟩ hge hended
    exact ⟨m + 1, cs, hprog.store hcount (hprog.count_le.antisymm hge) hended, hasked, fun _ _ => m.succ_pos⟩
  case suspend =>
    rintro u v ⟨m, cs, hprog, hasked, hfirst⟩ hlt hnext
    obtain ⟨hpending, ds, hprog, hlen, hds⟩ := hprog.unanswered hnext
    exact ⟨⟨m, ds ++ cs, hprog.scheduleByte d, by simp [hds]; omega, hfirst⟩,
      .inl ⟨rfl, fun _ => hpending.trans_lt hlt⟩⟩
  case wait =>
    rintro u ⟨m, cs, hprog, hasked, hfirst⟩ hge hwait
    exact ⟨⟨m, cs, hprog.scheduleByte _, Nat.le_succ_of_le hasked, hfirst⟩,
      .inr ⟨rfl, hprog.now_eq.symm.trans_lt hwait, hprog.count_le.antisymm hge⟩⟩
  case fuel =>
    rintro u ⟨m, cs, hprog, hasked, hfirst⟩ hno
    refine ⟨⟨m, cs, hprog.scheduleByte d, Nat.le_succ_of_le hasked, hfirst⟩, .inl ⟨rfl, fun hpos => absurd ?_ hno⟩⟩
    rw [hprog.cfg_eq]
    exact .inr hpos

/-- A read firing that begins with an ended byte stores it first; any other begins where it stands. -/
theorem State.readByteFire_reaches (s : State) (k : Kind) (hcount : s.pendingCount ≤ 16) :
    ReadReaches s (s.now + byteTime s.cfg k) 1 (s.readByteFire k) ∧
      ReadRearms s (s.now + byteTime s.cfg k) (s.readByteFire k) := by
  by_cases hfirst : s.pendingCount = 16 ∧ s.readPos ≤ s.now
  · obtain ⟨hwhole, hended⟩ := hfirst
    rw [State.readByteFire, readLoop_succ_of_ended hwhole.ge hended]
    exact readLoop_reaches hcount (.inl (by simp [State.storeByte]))
      ⟨1, [], (ReadProgress.start hcount).store hcount hwhole hended, le_rfl, fun _ _ => Nat.one_pos⟩
  · exact readLoop_reaches hcount (.inl (readByteFire_fuel _ s))
      ⟨0, [], .start hcount, le_rfl, fun hwhole hended => absurd ⟨hwhole, hended⟩ hfirst⟩

/-- Settles O46: the firing reaches a state with `BYTE` armed again; before its present nothing has ended. -/
theorem readFiringStoresWholeBytesAndRearms : Obligations.ReadFiringStoresWholeBytesAndRearms := by
  intro k s hcount
  obtain ⟨⟨m, cs, hprog, hasked, hfirst⟩, hrearms⟩ := s.readByteFire_reaches k hcount
  refine ⟨s.readByteFire k, m, cs, exec_readByteFire k s, hprog.frame, hrearms, hprog.readPos_ge, hprog.readPos_le,
    hprog.count_le, hprog.cursor_mod, hprog.length_bits, hasked, hprog.stored.bytes, hprog.register, hfirst,
    fun hlater => ?none, hprog.stored.others⟩
  case none => exact Nat.eq_zero_of_not_pos fun hm => (hprog.ended hm).not_gt hlater

end Sys2Proof.Machine
end

section
/-! A hard-disk read: each firing stores the byte that has ended and takes the next 16 bits (rule R156 to rule R159, rule
R169). -/

namespace Sys2Proof.Machine

variable {s : State} {bits rest : List Bool} {cells : List Host.Cell} {cs : List Call} {d f j n t : Nat}

/-! ### The loop with the bits of the hard disk -/

/-- A half-cell that ends by the deadline gives the next bit that State holds (rule R101, rule R102). -/
theorem State.nextCodeBit_hd_of_cons {b : Bool} (hnext : s.hdBits = b :: rest)
    (hintime : s.readPos + s.cfg.hdHalfCell ≤ d) : s.nextCodeBit .hd d = (some b, { s with
      readPos := s.readPos + s.cfg.hdHalfCell, hdBits := rest, calls := .hdReadBit s.readPos b :: s.calls }) := by
  rw [State.nextCodeBit_hd_of_le hintime, State.hdNextBit_of_cons hnext]

/-- Bits that end by the horizon and do not fill more than the register are taken one by one (rule R101, rule R157). -/
theorem readLoop_hd_bits (s : State) (hbits : s.hdBits = bits ++ rest) (hroom : s.pendingCount + bits.length ≤ 16)
    (hwin : s.readPos + bits.length * s.cfg.hdHalfCell ≤ d) (f : Nat) :
    ∃ cs, readLoop .hd d (bits.length + f) s = readLoop .hd d f { s with
      pendingBits := bits.foldl shiftInBit s.pendingBits, pendingCount := s.pendingCount + bits.length,
      readPos := s.readPos + bits.length * s.cfg.hdHalfCell, hdBits := rest, calls := cs ++ s.calls } := by
  induction bits generalizing s with
  | nil =>
    obtain rfl : s.hdBits = rest := hbits
    exact ⟨[], by simp⟩
  | cons b bits ih =>
    rw [List.length_cons] at hroom hwin
    have hcell : s.readPos + (bits.length + 1) * s.cfg.hdHalfCell =
        s.readPos + s.cfg.hdHalfCell + bits.length * s.cfg.hdHalfCell := by ring
    have hsome := State.nextCodeBit_hd_of_cons (d := d) (rest := bits ++ rest) hbits (by omega)
    obtain ⟨cs, hcs⟩ := ih (State.accumulate { s with
        readPos := s.readPos + s.cfg.hdHalfCell, hdBits := bits ++ rest, calls := .hdReadBit s.readPos b :: s.calls } b)
      rfl (by simp; omega) (by simp; omega)
    refine ⟨cs ++ [.hdReadBit s.readPos b], ?_⟩
    rw [List.length_cons, Nat.add_right_comm, readLoop_succ_of_some (by omega) hsome, hcs, hcell]
    simp [State.accumulate, Nat.add_assoc, Nat.add_comm 1]

/-- With an empty register at the present, the loop takes the next 16 bits and waits for the end of their byte (rule R156). -/
theorem readLoop_hd_byte (hbits : 16 ≤ s.hdBits.length) (hcell : 0 < s.cfg.hdHalfCell) (hreg : s.pendingBits = 0)
    (hcount : s.pendingCount = 0) (hpos : s.readPos = s.now) (hf : 16 < f) :
    ∃ cs, readLoop .hd (s.now + 16 * s.cfg.hdHalfCell) f s = { s with
      pendingBits := codeAt s.hdBits 0, pendingCount := 16, readPos := s.now + 16 * s.cfg.hdHalfCell,
      byte := some (s.now + 16 * s.cfg.hdHalfCell), hdBits := s.hdBits.drop 16, calls := cs ++ s.calls } := by
  have hlen : (s.hdBits.take 16).length = 16 := List.length_take_of_le hbits
  obtain ⟨cs, hcs⟩ := readLoop_hd_bits (d := s.now + 16 * s.cfg.hdHalfCell) s (List.take_append_drop 16 s.hdBits).symm
    (by rw [hcount, hlen]) (by rw [hpos, hlen]) (f - 16 - 1 + 1)
  rw [hlen, show 16 + (f - 16 - 1 + 1) = f by omega, hreg, hcount, hpos,
    readLoop_succ_of_wait (by simp) (by simp; omega)] at hcs
  exact ⟨cs, hcs⟩

/-- A configuration that has a run has a half-cell of the hard disk that takes time (rule R180). -/
theorem hdHalfCell_pos_of_configOk {c : Params} (h : configOk c = true) : 0 < c.hdHalfCell := by
  simp only [configOk, Bool.and_eq_true, decide_eq_true_eq] at h
  exact h.2

theorem byteTime_hd {c : Params} (hcode : c.codeBits = 16) : byteTime c .hd = 16 * c.hdHalfCell := by
  rw [byteTime, hcode, halfCell]

/-- With an empty register, a firing takes the next 16 bits (rule R156). -/
theorem State.readByteFire_hd_of_empty (hcode : s.cfg.codeBits = 16) (hcell : 0 < s.cfg.hdHalfCell)
    (hbits : 16 ≤ s.hdBits.length) (hreg : s.pendingBits = 0) (hcount : s.pendingCount = 0) (hpos : s.readPos = s.now) :
    ∃ cs, s.readByteFire .hd = { s with
      pendingBits := codeAt s.hdBits 0, pendingCount := 16, readPos := s.now + 16 * s.cfg.hdHalfCell,
      byte := some (s.now + 16 * s.cfg.hdHalfCell), hdBits := s.hdBits.drop 16, calls := cs ++ s.calls } := by
  rw [State.readByteFire, byteTime_hd hcode]
  exact readLoop_hd_byte hbits hcell hreg hcount hpos (by omega)

/-- With a whole register whose byte ends at the present, a firing stores the byte and takes the next 16 bits (rule R156,
rule R158). -/
theorem State.readByteFire_hd_of_ended (hcode : s.cfg.codeBits = 16) (hcell : 0 < s.cfg.hdHalfCell)
    (hbits : 16 ≤ s.hdBits.length) (hcount : s.pendingCount = 16) (hpos : s.readPos = s.now) :
    ∃ cs, s.readByteFire .hd = { s with
      buffer := putCell s.buffer (s.cursor % s.cfg.bufLen) (mfmDecode s.pendingBits),
      cursor := (s.cursor + 1) % s.cfg.bufLen,
      pendingBits := codeAt s.hdBits 0, pendingCount := 16, readPos := s.now + 16 * s.cfg.hdHalfCell,
      byte := some (s.now + 16 * s.cfg.hdHalfCell), hdBits := s.hdBits.drop 16, calls := cs ++ s.calls } := by
  rw [State.readByteFire, byteTime_hd hcode, readLoop_succ_of_ended hcount.ge hpos.le]
  exact readLoop_hd_byte (s := s.storeByte) hbits hcell rfl rfl hpos (by omega)

/-! ### The firings of a read -/

/-- With nothing but `BYTE` pending in a hard-disk read, a step is a read firing. -/
theorem step_of_hd_read (hcfg : configOk s.cfg = true) (hkind : s.kind = .hd) (hread : s.cmd.readMode = true)
    (hagenda : s.agenda = []) (hmotor : s.motor = none) (hsector : s.sector = none) (hbyte : s.byte = some t)
    (hnow : s.now ≤ t) : step s = .next (State.readByteFire { s with byte := none, now := t } .hd) := by
  have hkind' : State.kind { s with byte := none, now := t } = .hd := hkind
  rw [step_eq_byteFire_of_only hcfg hagenda hmotor hsector hbyte hnow, exec_byteFire_of_read (by exact hread), hkind']

/-- The state after `j + 1` firings of a hard-disk read that begins at `t`, with the buffer and the calls they leave. -/
def State.afterReads (s : State) (t j : Nat) (cells : List Host.Cell) (cs : List Call) : State := { s with
  buffer := cells,
  cursor := (s.cursor + j) % s.cfg.bufLen,
  now := t + j * (16 * s.cfg.hdHalfCell),
  byte := some (t + (j + 1) * (16 * s.cfg.hdHalfCell)),
  readPos := t + (j + 1) * (16 * s.cfg.hdHalfCell),
  pendingBits := codeAt s.hdBits j,
  pendingCount := 16,
  hdBits := s.hdBits.drop (16 * (j + 1)),
  calls := cs }

section
variable (hcfg : configOk s.cfg = true) (hkind : s.kind = .hd) (hread : s.cmd.readMode = true)
  (hcode : s.cfg.codeBits = 16) (hagenda : s.agenda = []) (hmotor : s.motor = none) (hsector : s.sector = none)
include hcfg hkind hread hcode hagenda hmotor hsector

/-- The first firing has no byte to store. -/
theorem step_eq_afterReads_zero (hbyte : s.byte = some t) (hnow : s.now ≤ t) (hpos : s.readPos = t)
    (hreg : s.pendingBits = 0) (hcount : s.pendingCount = 0) (hcursor : s.cursor < s.cfg.bufLen)
    (hbits : 16 ≤ s.hdBits.length) : ∃ cs, step s = .next (s.afterReads t 0 s.buffer cs) := by
  obtain ⟨cs, hcs⟩ := State.readByteFire_hd_of_empty (s := { s with byte := none, now := t }) hcode
    (hdHalfCell_pos_of_configOk hcfg) hbits hreg hcount hpos
  refine ⟨cs ++ s.calls, ?_⟩
  rw [step_of_hd_read hcfg hkind hread hagenda hmotor hsector hbyte hnow, hcs]
  simp [State.afterReads, Nat.mod_eq_of_lt hcursor]

/-- Every later firing stores the byte that the one before has read. -/
theorem step_afterReads (hbits : 16 * (j + 2) ≤ s.hdBits.length) :
    ∃ ds, step (s.afterReads t j cells cs) = .next (s.afterReads t (j + 1)
      (putCell cells ((s.cursor + j) % s.cfg.bufLen) (mfmDecode (codeAt s.hdBits j))) ds) := by
  have hlater : t + j * (16 * s.cfg.hdHalfCell) ≤ t + (j + 1) * (16 * s.cfg.hdHalfCell) := by gcongr; omega
  have hnext : t + (j + 1) * (16 * s.cfg.hdHalfCell) + 16 * s.cfg.hdHalfCell =
      t + (j + 1 + 1) * (16 * s.cfg.hdHalfCell) := by ring
  obtain ⟨ds, hds⟩ := State.readByteFire_hd_of_ended
    (s := { s.afterReads t j cells cs with byte := none, now := t + (j + 1) * (16 * s.cfg.hdHalfCell) }) hcode
    (hdHalfCell_pos_of_configOk hcfg) (by simp only [State.afterReads, List.length_drop]; omega) rfl rfl
  refine ⟨ds ++ cs, ?_⟩
  rw [step_of_hd_read (s := s.afterReads t j cells cs) hcfg hkind hread hagenda hmotor hsector rfl hlater, hds]
  simp only [State.afterReads, codeAt_drop, List.drop_drop, hnext, Nat.mod_mod, Nat.mod_add_mod, Nat.add_zero]
  rfl

/-- The firings of a hard-disk read, one a step, store the codes in order. -/
theorem stepsFrom_afterReads (hbyte : s.byte = some t) (hnow : s.now ≤ t) (hpos : s.readPos = t)
    (hreg : s.pendingBits = 0) (hcount : s.pendingCount = 0) (hcursor : s.cursor < s.cfg.bufLen)
    (hbits : 16 * (n + 1) ≤ s.hdBits.length) :
    ∃ cells cs, stepsFrom (n + 1) s = some (s.afterReads t n cells cs) ∧
      StoredInOrder s.cfg.bufLen s.cursor s.buffer cells (fun i => mfmDecode (codeAt s.hdBits i)) n := by
  induction n with
  | zero =>
    obtain ⟨cs, hstep⟩ := step_eq_afterReads_zero hcfg hkind hread hcode hagenda hmotor hsector hbyte hnow hpos hreg
      hcount hcursor hbits
    exact ⟨s.buffer, cs, stepsFrom_one _ _ hstep, .zero⟩
  | succ n ih =>
    obtain ⟨cells, cs, hrun, hstored⟩ := ih (by omega)
    obtain ⟨ds, hstep⟩ := step_afterReads (t := t) (cells := cells) (cs := cs) hcfg hkind hread hcode hagenda hmotor
      hsector hbits
    exact ⟨_, ds, stepsFrom_succ _ _ _ _ hrun hstep, hstored.succ⟩

end

/-- Settles O48: the bits of the codes are read back as the codes, and no two of their bytes share a place of the buffer. -/
theorem hardDiskReadStoresTheDecodedCodes : Obligations.HardDiskReadStoresTheDecodedCodes := by
  intro s t codes rest hcfg hkind hread hcode hagenda hmotor hsector hbyte hnow hpos hreg hcount hcursor hfits hbits hrest
  have hlength : 16 * (codes.length + 1) ≤ s.hdBits.length := by
    rw [hbits, List.length_append, length_flatMap_bitsOfCode]
    omega
  obtain ⟨cells, cs, hrun, hstored⟩ := stepsFrom_afterReads hcfg hkind hread hcode hagenda hmotor hsector hbyte hnow hpos
    hreg hcount hcursor hlength
  refine ⟨_, hrun, fun i hi => ?_, hstored.others, rfl, rfl, rfl⟩
  have hcodeAt : codeAt s.hdBits i = codes[i] := by rw [hbits, codeAt_flatMap_bitsOfCode codes rest hi]
  exact (hstored.byteAt_of_le hfits hi).trans (congrArg mfmDecode hcodeAt)

end Sys2Proof.Machine
end

section
/-! No step stops, and an operation that hangs stays busy until a device reset (60_exceptions.md). -/

namespace Sys2Proof.Machine

variable {s t : State} {i : Instr}

/-! ### No exception (rule R175) -/

/-- Taking an entry of the agenda hands over the operation that its word decodes to. -/
theorem State.take_stimulus_of_decode (s : State) {time rank index w : Nat} (hdec : decode s.cfg.portMap w = .ok i) :
    s.take { time := time, rank := rank, source := .stimulus index w } =
      .runs i ((s.advanceTo time).dropStimulus index) := by
  simp only [State.take, hdec]

/-- In the invariant every pending event names an operation: a timer's own, or the one that the word of its entry decodes to. -/
theorem State.Inv.exists_take_eq_runs (h : s.Inv) {q : Pending} (hq : q ∈ s.pending) :
    ∃ i s', s.take q = .runs i s' := by
  rcases (s.mem_pending q).mp hq with ⟨_, _, rfl⟩ | ⟨_, _, rfl⟩ | ⟨_, _, rfl⟩ | ⟨j, e, hentry, rfl⟩
  case inr.inr.inr =>
    obtain ⟨i, hdec, -⟩ := h.agendaExternal e (List.mem_of_getElem? hentry)
    exact ⟨i, _, s.take_stimulus_of_decode hdec⟩
  all_goals exact ⟨_, _, rfl⟩

/-- With an admitted configuration a step with nothing to take waits (rule R198). -/
theorem step_of_waits (hcfg : configOk s.cfg = true) (hfetch : s.fetch = .waits) : step s = .next s := by
  simp only [step, hcfg, hfetch, if_true]

/-- Settles O3: a step waits, or takes an event that names an operation, and every operation completes. -/
theorem noStepStopsInInvariant : Obligations.NoStepStopsInInvariant := by
  intro s h
  rcases s.fetch_cases with ⟨-, hwaits⟩ | ⟨q, hq, -, htakes⟩
  · exact ⟨s, step_of_waits h.inRange.config hwaits⟩
  · obtain ⟨i, s', hruns⟩ := h.exists_take_eq_runs hq
    rw [step_of_fetch h.inRange.config (htakes.trans hruns)]
    exact exec_next i s'

/-! ### The kept hang (rule R176) -/

/-- A hung operation is busy, with no transfer and no idle count. -/
theorem State.hung_iff : s.hung = true ↔ s.busy = true ∧ s.byte = none ∧ s.idleCount = none := by
  simp [State.hung, State.transferActive, and_assoc]

/-- An increment leaves a hung operation busy: there is no transfer to complete and no idle count to run out, and a sector match
never clears the flag. -/
theorem State.busy_afterIncrement_of_hung (h : s.hung = true) : s.afterIncrement.busy = true := by
  obtain ⟨hbusy, hbyte, hidle⟩ := State.hung_iff.mp h
  rcases s.afterIncrement_cases with ⟨-, htransfer, -⟩ | ⟨-, -, -, hmatch⟩ | ⟨-, -, htick⟩ | hkeep
  · simp [State.transferActive, hbyte] at htransfer
  · obtain ⟨_, _, _, _, _, _, hframe, -⟩ := s.sectorMatch_cases
    rw [hmatch, hframe]
    exact hbusy
  · rw [htick, (idleTickReleasesAfterOneRevolution s).1 hidle]
    exact hbusy
  · rw [hkeep]
    exact hbusy

/-- Counting an event of a sector clock leaves a hung operation hung, and acting on the increment leaves it busy. -/
theorem busy_of_exec_sectorClock (h : s.hung = true) (hi : (∃ n, i = .fdPulse n) ∨ i = .hdIndex ∨ i = .sectorFire)
    (hexec : exec i s = .next t) : t.busy = true := by
  have hbusy : s.busy = true := (State.hung_iff.mp h).1
  rcases hi with ⟨n, rfl⟩ | rfl | rfl <;> obtain rfl := Host.Outcome.next.inj hexec
  · split
    · exact State.busy_afterIncrement_of_hung (s := s.countPulse) h
    · exact hbusy
  · split
    · obtain ⟨_, _, hframe⟩ := s.measurePeriod_frame
      rw [hframe]
      exact State.busy_afterIncrement_of_hung h
    · exact hbusy
  · split
    · rw [s.countSector_eq]
      exact State.busy_afterIncrement_of_hung h
    · exact hbusy

/-- Settles O60: only a sector clock and the device reset ever clear the busy flag, and a sector clock does not clear that of a
hung operation. -/
theorem onlyDeviceResetEndsAHungOperation : Obligations.OnlyDeviceResetEndsAHungOperation := by
  intro i s t hhung hexec hidle
  have hclears := (onlyStartSetsAndIncrementsClearBusy i s t hexec).2 (State.hung_iff.mp hhung).1 hidle
  by_contra hreset
  have hclock : (∃ n, i = .fdPulse n) ∨ i = .hdIndex ∨ i = .sectorFire := by simpa [hreset] using hclears
  simp [busy_of_exec_sectorClock hhung hclock hexec] at hidle

/-! ### The motor timer (rule R184) -/

theorem exec_motorFire (s : State) : exec .motorFire s = .next (s.cancelMotor.setMotors false) := rfl

/-- Turning motors on or off calls each attached floppy once, in rising order of the slots (rule R133, rule R184, rule R195). -/
theorem State.setMotors_eq (s : State) (on : Bool) : s.setMotors on = { s with
    calls := (((List.finRange 4).filter fun n => s.cfg.attached n).map fun n => Call.fdSetMotor n on).reverse ++ s.calls } := by
  rw [State.setMotors, motorCalls, attachedSlots_eq_filter_finRange]

/-- Settles O55: the timer is cancelled and the attached floppies are called. -/
theorem motorFireTurnsMotorsOff : Obligations.MotorFireTurnsMotorsOff := by
  intro s
  rw [exec_motorFire, State.setMotors_eq]
  rfl

end Sys2Proof.Machine
end

section
/-! The configurations that have a run, and the machine after a reset and at power-on (70_reset_and_hazards.md). -/

namespace Sys2Proof

/-! ### The head counts (rule R11) -/

/-- A head count is read from the number it stands for, and from no other. -/
theorem HeadCount.ofNat?_eq_some_iff {n : Nat} {h : HeadCount} : HeadCount.ofNat? n = some h ↔ h.toNat = n := by
  constructor
  · intro hread
    unfold HeadCount.ofNat? at hread
    split_ifs at hread with h1 h2 h4 h8 <;> cases hread
    · exact h1.symm
    · exact h2.symm
    · exact h4.symm
    · exact h8.symm
  · rintro rfl
    cases h <;> rfl

/-- The numbers of heads are the powers of two from 1 to 8. -/
theorem HeadCount.exists_toNat_eq_iff {n : Nat} : (∃ h : HeadCount, h.toNat = n) ↔ ∃ k, k ≤ 3 ∧ n = 2 ^ k := by
  constructor
  · rintro ⟨h, rfl⟩
    cases h with
    | one => exact ⟨0, by decide⟩
    | two => exact ⟨1, by decide⟩
    | four => exact ⟨2, by decide⟩
    | eight => exact ⟨3, by decide⟩
  · rintro ⟨k, hk, rfl⟩
    match k, hk with
    | 0, _ => exact ⟨.one, rfl⟩
    | 1, _ => exact ⟨.two, rfl⟩
    | 2, _ => exact ⟨.four, rfl⟩
    | 3, _ => exact ⟨.eight, rfl⟩

end Sys2Proof

namespace Sys2Proof.Machine

variable {s : State}

/-! ### The configurations that have a run (rule R180) -/

/-- The conditions on the port map and on its size, and the four quantities that may not be 0 (log entry 8). -/
theorem configOk_iff {c : Params} : configOk c = true ↔ c.portMap.ok = true ∧ c.portMap.sizeOk = true ∧
    0 < c.bufLen ∧ 0 < c.fdSectors ∧ 0 < c.hdSectors ∧ 0 < c.hdHalfCell := by
  simp only [configOk, Bool.and_eq_true, decide_eq_true_eq, and_assoc]

/-- A step refuses the configuration exactly when it is not admitted: no operation is refused, and an unreadable word of the
agenda is refused for another reason. -/
theorem step_eq_badConfiguration_iff : step s = .refused .badConfiguration ↔ ¬ configOk s.cfg = true := by
  constructor
  · intro hstep hcfg
    simp only [step, hcfg, if_true] at hstep
    split at hstep
    · cases hstep
    · next i s' _ =>
      obtain ⟨t, hexec⟩ := exec_next i s'
      cases hexec.symm.trans hstep
    · cases hstep
  · intro hcfg
    simp only [step, if_neg hcfg]

/-- Settles O9: the idle step, the conditions of an admitted configuration one by one, and the head counts by the numbers they
stand for. -/
theorem stepWaitsOrRefuses : Obligations.StepWaitsOrRefuses := by
  refine ⟨fun s => step_of_nothing_pending, fun s => ?refused, fun n => ⟨?heads, fun h => HeadCount.ofNat?_eq_some_iff.mp⟩⟩
  case refused =>
    rw [step_eq_badConfiguration_iff, configOk_iff, PortMap.ok_iff, PortMap.sizeOk_iff]
    simp only [and_assoc]
  case heads =>
    simp only [HeadCount.ofNat?_eq_some_iff]
    exact HeadCount.exists_toNat_eq_iff

/-! ### Power-on (rule R196) -/

/-- The document's literals and any admitted port map of four offsets make an admitted configuration. -/
theorem configOk_params : configOk Config.params = true := by
  obtain ⟨hmap, hfour⟩ := Config.portMap_ok
  have hsize : Config.portMap.sizeOk = true := by simp only [PortMap.sizeOk, hfour, Bool.true_or]
  exact configOk_iff.mpr ⟨hmap, hsize, by decide, by decide, by decide, by decide⟩

/-- Settles O1: the configuration and the buffer are admitted, the counters are 0, and no timer, pulse or agenda entry is
there that could break a clause. -/
theorem powerOnStateIsInInvariant : Obligations.PowerOnStateIsInInvariant := by
  obtain ⟨-, -, hbuf, hfd, hhd, -⟩ := configOk_iff.mp configOk_params
  exact {
    inRange := ⟨configOk_params, State.reset_bufferOk, hbuf, hfd, hhd, Nat.zero_le 16⟩
    timersArmed := ⟨fun hbyte => absurd rfl hbyte, fun hsector => absurd rfl hsector, nofun⟩
    onTime := ⟨nofun, nofun, nofun, nofun, nofun⟩
    agendaExternal := nofun }

/-! ### The device reset (rule R195, rule R197) -/

theorem exec_deviceReset (s : State) : exec .deviceReset s = .next (s.deviceReset.setMotors false) := rfl

/-- Settles O56: every field has its reset value, and the attached floppies are called. -/
theorem deviceResetSetsEveryField : Obligations.DeviceResetSetsEveryField := by
  intro s
  rw [exec_deviceReset, State.setMotors_eq]
  rfl

/-- With drive 0 selected the hard disk is the drive exactly when it is attached (rule R12). -/
theorem State.kind_eq_hd_of_drive_zero (hdrive : s.cmd.selectedDrive = 0) : s.kind = .hd ↔ s.cfg.hdAttached = true := by
  simp only [State.kind_eq_hd, hdrive, and_true]

/-- A byte of which only bit 0 and bit 3 can be set, as a number. -/
theorem bitAt_zero_or_bitAt_three : ∀ a b : Bool,
    bitAt 0 a ||| bitAt 1 false ||| bitAt 2 false ||| bitAt 3 b = BitVec.ofNat 8 (b.toNat * 8 + a.toNat) := by decide

/-- Neither busy nor with a motor on, and with drive 0 selected, status port 1 shows the hard disk and its type only. -/
theorem State.status1_of_drive_zero (hdrive : s.cmd.selectedDrive = 0) (hidle : s.busy = false) (hmotor : s.motor = none) :
    s.status1 = BitVec.ofNat 8 (s.cfg.hdTypeBit.toNat * 8 + s.cfg.hdAttached.toNat) := by
  simp only [State.status1, State.motorOn, State.kind_eq_hd_of_drive_zero hdrive, hidle, hmotor, Option.isSome_none,
    Bool.decide_eq_true, bitAt_zero_or_bitAt_three]

/-- Settles O57: a device reset selects drive 0, is not busy and leaves no motor timer. -/
theorem statusAfterReset : Obligations.StatusAfterReset := by
  intro s peek
  refine ⟨_, exec_deviceReset s, State.kind_eq_hd_of_drive_zero rfl, ?status⟩
  rw [exec_rdStatus1, State.status1_of_drive_zero rfl rfl rfl]
  rfl

end Sys2Proof.Machine
end
